-- ==== Sys2Proof/Word.lean ====
section
/-! DEFINITION. The words of the block: bytes, 32-bit and 64-bit words, slot names, binary64 values
and complex pairs. Only types stand here; the arithmetic is in Sys2Proof/Machine/Float.lean. -/

namespace Sys2Proof

/-- A byte, 8 bits (00_scope R8). -/
abbrev Byte := BitVec 8

/-- A 16-bit field of the container (30_encoding R92). -/
abbrev Word16 := BitVec 16

/-- A command word, a status register or a 32-bit field of the container (30_encoding R80, R92). -/
abbrev Word32 := BitVec 32

/-- A parameter register (10_state R30). -/
abbrev Word64 := BitVec 64

/-- The names of the `NSLOT` = 3 container slots (00_scope R7, 10_state R20). -/
inductive SlotId where
  | k0 | k1 | k2
  deriving DecidableEq, Repr

/-- The number of a slot: the value of a slot field and the detail of `EMPTY_SLOT`
(30_encoding R81, 60_exceptions R251). -/
def SlotId.index : SlotId → Nat
  | .k0 => 0
  | .k1 => 1
  | .k2 => 2

/-- A value of IEEE 754 binary64 (00_scope R11): one sign bit, a biased exponent below 2047 and 52
fraction bits for the finite values, signed infinities, and NaN. Every term is exactly one value:
nothing in the block tells two NaNs apart, so there is one (notes/assumptions/10.md). -/
inductive F64 where
  | nan
  | inf (neg : Bool)
  | fin (neg : Bool) (ex : Fin 2047) (frac : BitVec 52)
  deriving DecidableEq, Repr, Inhabited

/-- A complex value, a pair of binary64 values (00_scope R12). -/
structure Cplx where
  re : F64
  im : F64
  deriving DecidableEq, Repr, Inhabited

end Sys2Proof
end

