-- ==== Sys2Proof/Config.lean ====
section
/-! DEFINITION. What is fixed for the life of a block and what the spec leaves open (10_state R47):
the sizes of 00_scope R7, the choice of `NMAX`, of the numerics record `NUM` and of the two tap
functions of 93 U1 and U2, and the free records and functions of which nothing is known. -/

namespace Sys2Proof

/-- The number of container slots (00_scope R7). -/
def Config.nslot : Nat := 3

/-- The number of parameter registers (00_scope R7). -/
def Config.nparam : Nat := 8

/-- The one `bitsPerSample` value DECODE accepts (00_scope R7, 40_container R113). -/
def Config.supportedBits : Word16 := 16

/-- The largest value `NMAX` may have; it keeps `2*NMAX + 36` below `2^32` (00_scope R7). -/
abbrev Config.nmaxBound : Nat := 2147483629

/-- The functions of a numerics record before the properties of 00_scope R13 are imposed on them
(Sys2Proof/Machine/Num.lean imposes them). `dftAt x k` is bin `k` of the forward transform of `x`
and `idftAt` likewise of the inverse, so that the lengths are right by construction (NUM-DFT-LEN). -/
structure RawNum where
  tan : F64 → F64
  sin : F64 → F64
  cos : F64 → F64
  exp : F64 → F64
  pow10 : F64 → F64
  dftAt : List Cplx → Nat → Cplx
  idftAt : List Cplx → Nat → Cplx
  deriving Inhabited

/-- The free records: one for each number, and nothing is known of any of them (00_scope R7 leaves
`NUM` open; notes/assumptions/6.md). -/
opaque Config.freeNum : Nat → RawNum

/-- Which numerics record the block was built with: the default of 00_scope R14, or a free one. -/
inductive NumSel where
  | default
  | free (n : Nat)
  deriving DecidableEq, Repr

/-- The `mode` of a biquad: BQLP is `low`, BQHP is `high` (42_filters R160, R161). -/
inductive BqMode where
  | low | high
  deriving DecidableEq, Repr

/-- The feedforward taps `a1, a2, a3` and the feedback taps `b1, b2` of a biquad (42_filters R162). -/
structure Taps where
  a1 : F64
  a2 : F64
  a3 : F64
  b1 : F64
  b2 : F64
  deriving DecidableEq, Repr, Inhabited

/-- The free functions `BQ_COEFF(mode, fc, sr)`: one for each number, and nothing is known of any of
them (42_filters R163, 93 U1; notes/assumptions/17.md). -/
opaque Config.freeBqCoeff : Nat → BqMode → F64 → F64 → Taps

/-- The free kernels `FIR_KERNEL(Fc, M)` before normalisation, tap by tap: `i` is the tap's index, so
that the length is `M` by construction (93 U2; notes/assumptions/17.md). -/
opaque Config.freeFirTap : Nat → F64 → Nat → Nat → F64

/-- Which tap function the block was built with: the default of the rule, or a free one. -/
inductive TapSel where
  | default
  | free (n : Nat)
  deriving DecidableEq, Repr

/-- The open parameters as the model's argument: of 00_scope R7 `NMAX`, held as `NMAX - 1` so that
`1 <= NMAX <= 2147483629` is a fact of the type (notes/assumptions/5.md), and the choice of `NUM`; and
the choices of `BQ_COEFF` and `FIR_KERNEL`, which 93 U1 and U2 make parameters with a default. -/
structure Cfg where
  nmaxPred : Fin Config.nmaxBound
  num : NumSel
  bq : TapSel
  fir : TapSel
  deriving DecidableEq, Repr

/-- `NMAX`, the largest buffer length (00_scope R7). -/
def Cfg.nmax (c : Cfg) : Nat := c.nmaxPred.val + 1

/-- The parameters a reset state starts with (DESIGN CHOICE, notes/assumptions/5.md, 6.md and
17.md): the largest `NMAX` the spec allows, the default record of 00_scope R14, and the default taps. -/
def Cfg.initial : Cfg := ⟨⟨2147483628, by decide⟩, .default, .default, .default⟩

end Sys2Proof
end

