-- ==== Sys2Proof/Machine/Float.lean ====
section
/-! DEFINITION. Binary64 arithmetic (00_scope R11): every operation computes the exact result over
the integers and rounds it once, to nearest, ties to even. Every finite binary64 value is a whole
number of `2^-1074`; that number is its count of units, and exact results are quotients of units.
Details the spec takes from the standard by name are PRESUMED (notes/assumptions/11.md). -/

namespace Sys2Proof

/-- How many units of `2^-1074` the value 1 has. -/
@[irreducible]
def F64.unitsPerOne : Nat := 2 ^ 1074

/-- The significand of a finite value: the fraction, with the leading 1 of a normal value. -/
def F64.significand (ex : Fin 2047) (frac : BitVec 52) : Nat :=
  if ex.val = 0 then frac.toNat else 2 ^ 52 + frac.toNat

/-- The magnitude of a finite value in units of `2^-1074`. -/
def F64.magUnits (ex : Fin 2047) (frac : BitVec 52) : Nat :=
  F64.significand ex frac * 2 ^ (ex.val - 1)

/-- A finite value in units of `2^-1074`, with its sign; 0 for the other values. -/
def F64.units : F64 → Int
  | .nan => 0
  | .inf _ => 0
  | .fin neg ex frac =>
    if neg then -(F64.magUnits ex frac : Int) else (F64.magUnits ex frac : Int)

/-- Neither an infinity nor a NaN (00_scope R11, `isfinite`). -/
def F64.isFinite : F64 → Bool
  | .nan => false
  | .inf _ => false
  | .fin _ _ _ => true

/-- A NaN. -/
def F64.isNaN : F64 → Bool
  | .nan => true
  | .inf _ => false
  | .fin _ _ _ => false

/-- The value a 64-bit pattern encodes: bit 63 the sign, bits 62:52 the exponent, bits 51:0 the
fraction (00_scope R11, 10_state R31). -/
def F64.ofBits (w : Word64) : F64 :=
  let neg := w.getLsbD 63
  let ex := (w.extractLsb' 52 11).toNat
  let frac := w.extractLsb' 0 52
  if h : ex < 2047 then .fin neg ⟨ex, h⟩ frac
  else if frac = 0 then .inf neg else .nan

/-- A zero with a sign. -/
def F64.zeroOf (neg : Bool) : F64 := .fin neg 0 0

/-- `+0.0`. -/
def F64.zero : F64 := F64.zeroOf false

/-- `num / den` rounded to the nearest integer, ties to even. -/
def nearestEven (num den : Nat) : Nat :=
  let q := num / den
  let r := num % den
  if 2 * r < den then q
  else if den < 2 * r then q + 1
  else q + q % 2

/-- The value with significand `n` (at most `2^53`) and scale `2^e` units: an infinity when its
exponent is above the format's. -/
def F64.pack (neg : Bool) (n e : Nat) : F64 :=
  if n < 2 ^ 52 then .fin neg 0 (BitVec.ofNat 52 n)
  else
    let n' := if n < 2 ^ 53 then n else n / 2
    let b := if n < 2 ^ 53 then e + 1 else e + 2
    if h : b < 2047 then .fin neg ⟨b, h⟩ (BitVec.ofNat 52 (n' - 2 ^ 52)) else .inf neg

/-- `num / den` units with a sign, rounded to binary64, to nearest, ties to even (00_scope R11). The
spacing of the format at the exact value is `2^e` units. -/
def F64.roundUnits (neg : Bool) (num den : Nat) : F64 :=
  let e := (num / den).log2 - 52
  F64.pack neg (nearestEven num (den * 2 ^ e)) e

/-- The quotient of two integers rounded to binary64; `den` is not 0 where this is used. -/
def F64.ofRat (num : Int) (den : Nat) : F64 :=
  F64.roundUnits (decide (num < 0)) (num.natAbs * F64.unitsPerOne) den

/-- `float(n)`: an integer rounded to binary64 (00_scope R11). -/
def F64.ofInt (n : Int) : F64 := F64.ofRat n 1

/-- `float(n)` of a natural number. -/
def F64.ofNat (n : Nat) : F64 := F64.ofInt n

/-- The value with the other sign. -/
def F64.neg : F64 → F64
  | .nan => .nan
  | .inf s => .inf (!s)
  | .fin s ex frac => .fin (!s) ex frac

/-- `abs(v)`: the sign bit cleared (00_scope R11). -/
def F64.abs : F64 → F64
  | .nan => .nan
  | .inf _ => .inf false
  | .fin _ ex frac => .fin false ex frac

/-- `a + b` (00_scope R11). An exact zero sum is `+0.0` unless both operands are negative. -/
def F64.add (a b : F64) : F64 :=
  match a, b with
  | .nan, _ => .nan
  | .inf _, .nan => .nan
  | .inf s, .inf t => if s = t then .inf s else .nan
  | .inf s, .fin _ _ _ => .inf s
  | .fin _ _ _, .nan => .nan
  | .fin _ _ _, .inf t => .inf t
  | .fin s ex frac, .fin t ey gy =>
    let sum := (F64.fin s ex frac).units + (F64.fin t ey gy).units
    if sum = 0 then F64.zeroOf (s && t)
    else F64.roundUnits (decide (sum < 0)) sum.natAbs 1

/-- `a - b`, the sum of `a` and `b` with the other sign (00_scope R11). -/
def F64.sub (a b : F64) : F64 := a.add b.neg

/-- `a * b` (00_scope R11). -/
def F64.mul (a b : F64) : F64 :=
  match a, b with
  | .nan, _ => .nan
  | .inf _, .nan => .nan
  | .inf s, .inf t => .inf (s != t)
  | .inf s, .fin t ey gy => if F64.magUnits ey gy = 0 then .nan else .inf (s != t)
  | .fin _ _ _, .nan => .nan
  | .fin s ex frac, .inf t => if F64.magUnits ex frac = 0 then .nan else .inf (s != t)
  | .fin s ex frac, .fin t ey gy =>
    F64.roundUnits (s != t) (F64.magUnits ex frac * F64.magUnits ey gy) F64.unitsPerOne

/-- `a / b` (00_scope R11). -/
def F64.div (a b : F64) : F64 :=
  match a, b with
  | .nan, _ => .nan
  | .inf _, .nan => .nan
  | .inf _, .inf _ => .nan
  | .inf s, .fin t _ _ => .inf (s != t)
  | .fin _ _ _, .nan => .nan
  | .fin s _ _, .inf t => F64.zeroOf (s != t)
  | .fin s ex frac, .fin t ey gy =>
    if F64.magUnits ey gy = 0 then
      if F64.magUnits ex frac = 0 then .nan else .inf (s != t)
    else
      F64.roundUnits (s != t) (F64.magUnits ex frac * F64.unitsPerOne) (F64.magUnits ey gy)

/-- `a < b`, false when either is a NaN (00_scope R11). -/
def F64.lt (a b : F64) : Bool :=
  match a, b with
  | .nan, _ => false
  | .inf _, .nan => false
  | .inf s, .inf t => s && !t
  | .inf s, .fin _ _ _ => s
  | .fin _ _ _, .nan => false
  | .fin _ _ _, .inf t => !t
  | .fin s ex frac, .fin t ey gy =>
    decide ((F64.fin s ex frac).units < (F64.fin t ey gy).units)

/-- `a == b`, false when either is a NaN; the two zeros are equal (00_scope R11). -/
def F64.feq (a b : F64) : Bool :=
  match a, b with
  | .nan, _ => false
  | .inf _, .nan => false
  | .inf s, .inf t => s == t
  | .inf _, .fin _ _ _ => false
  | .fin _ _ _, .nan => false
  | .fin _ _ _, .inf _ => false
  | .fin s ex frac, .fin t ey gy =>
    decide ((F64.fin s ex frac).units = (F64.fin t ey gy).units)

/-- `a <= b`. -/
def F64.le (a b : F64) : Bool := a.lt b || a.feq b

/-- `a > b`. -/
def F64.gt (a b : F64) : Bool := b.lt a

/-- `trunc(v)`: the integer part, toward zero (40_container R122); none when `v` is not finite. -/
def F64.trunc : F64 → Option Int
  | .nan => none
  | .inf _ => none
  | .fin neg ex frac =>
    let m : Int := (F64.magUnits ex frac / F64.unitsPerOne : Nat)
    some (if neg then -m else m)

/-- `round_half_away(v)`: the nearest integer, ties away from zero (43_dynamics R213); none when `v`
is not finite. -/
def F64.roundHalfAway : F64 → Option Int
  | .nan => none
  | .inf _ => none
  | .fin neg ex frac =>
    let m : Int := ((2 * F64.magUnits ex frac + F64.unitsPerOne) / (2 * F64.unitsPerOne) : Nat)
    some (if neg then -m else m)

/-- Entry `i` of a sample list. Every use has `i` below the length; past the end it is `+0.0`. -/
def sampleAt (x : List F64) (i : Nat) : F64 := x.getD i F64.zero

end Sys2Proof
end

