-- ==== Sys2Proof/Machine/Elementary.lean ====
section
/-! DEFINITION. The elementary functions of the default numerics record (00_scope R14): `tan`, `sin`,
`cos`, `exp` and `pow10` at finite operands, correctly rounded. Each is computed in fixed point with
an error bound, as an enclosure of the ideal value; when both ends round to the same binary64 value
that is the result, else the precision is raised (notes/assumptions/7.md). -/

namespace Sys2Proof

/-- `m * 2^e` rounded to binary64. -/
def F64.ofDyadic (m e : Int) : F64 :=
  let u := e + 1074
  if 0 ≤ u then F64.roundUnits (decide (m < 0)) (m.natAbs * 2 ^ u.toNat) 1
  else F64.roundUnits (decide (m < 0)) m.natAbs (2 ^ (-u).toNat)

/-- The first of the enclosures' roundings whose two ends agree; the last lower end when none do. -/
def settle (ends : Nat → F64 × F64) : List Nat → F64
  | [] => .nan
  | p :: ps =>
    let e := ends p
    if e.1 = e.2 then e.1
    else if ps.isEmpty then e.1
    else settle ends ps

/-- The precisions tried, in bits. -/
def precisions : List Nat := [192, 384, 768, 1536]

/-- The series of `atan(1/q)` (`alternate`) or `atanh(1/q)`, with `qq = q*q`, from the term `t` of
index `k`; stops when the terms are gone. -/
def inverseSeries (qq : Nat) (alternate : Bool) : Nat → Nat → Nat → Bool → Int → Int
  | 0, _, _, _, acc => acc
  | fuel + 1, t, k, minus, acc =>
    if t = 0 then acc
    else
      inverseSeries qq alternate fuel (t / qq) (k + 2) (alternate && !minus)
        (if minus then acc - (t / k : Nat) else acc + (t / k : Nat))

/-- `atan(1/q) * 2^p`, within `p` units. -/
def atanInv (q p : Nat) : Int := inverseSeries (q * q) true p (2 ^ p / q) 1 false 0

/-- `atanh(1/q) * 2^p`, within `p` units. -/
def atanhInv (q p : Nat) : Int := inverseSeries (q * q) false p (2 ^ p / q) 1 false 0

/-- `π * 2^p` within `2^16` units: `π = 16 atan(1/5) - 4 atan(1/239)`. -/
def piFixed (p : Nat) : Int := 16 * atanInv 5 p - 4 * atanInv 239 p

/-- `ln 2 * 2^p` within `2^16` units: `ln 2 = 2 atanh(1/3)`. -/
def ln2Fixed (p : Nat) : Int := 2 * atanhInv 3 p

/-- `ln 10 * 2^p` within `2^16` units: `ln 10 = 3 ln 2 + 2 atanh(1/9)`. -/
def ln10Fixed (p : Nat) : Int := 3 * ln2Fixed p + 2 * atanhInv 9 p

/-- The terms of `e^r` from term `t` of index `k` on, all scaled by `2^p`. -/
def expSeries (p : Nat) (r : Int) : Nat → Int → Nat → Int → Int
  | 0, _, _, acc => acc
  | fuel + 1, t, k, acc =>
    if t = 0 then acc
    else expSeries p r fuel (t * r / ((2 : Int) ^ p * (k + 1 : Nat))) (k + 1) (acc + t)

/-- The two ends of `e^(y / 2^p)`, for `y` known within `2^25` units, rounded to binary64:
`y = k ln 2 + r`, and `e^r` is known within `2^32` units. -/
def expEnds (p : Nat) (y : Int) : F64 × F64 :=
  let ln2 := ln2Fixed p
  let k := y / ln2
  let r := y - k * ln2
  let m := expSeries p r p ((2 : Int) ^ p) 0 0
  let err : Int := (2 : Int) ^ 32
  (F64.ofDyadic (m - err) (k - p), F64.ofDyadic (m + err) (k - p))

/-- The terms of a sine or cosine series from term `t` on, where the next term is
`-t * r2 / ((k+1)(k+2))`, all scaled by `2^p`. -/
def trigSeries (p : Nat) (r2 : Int) : Nat → Int → Nat → Int → Int
  | 0, _, _, acc => acc
  | fuel + 1, t, k, acc =>
    if t = 0 then acc
    else
      trigSeries p r2 fuel (-(t * r2) / ((2 : Int) ^ p * ((k + 1) * (k + 2) : Nat))) (k + 2)
        (acc + t)

/-- An angle of `u` units reduced by quarter turns: the quarter (0 to 3), and the sine and cosine of
the rest, between `-π/4` and `π/4`, scaled by `2^p` and known within `2^20` units. -/
def quarterTurn (p : Nat) (u : Int) : Nat × Int × Int :=
  let whole := u.natAbs.log2 + 1 - 1074
  let q := p + whole + 8
  let pi := piFixed q
  let x := u * (2 : Int) ^ q / (2 : Int) ^ 1074
  let n := (4 * x + pi) / (2 * pi)
  let r := (2 * x - n * pi) / (2 : Int) ^ (whole + 9)
  let r2 := r * r / (2 : Int) ^ p
  ((n % 4).toNat, trigSeries p r2 p r 1 0, trigSeries p r2 p ((2 : Int) ^ p) 0 0)

/-- The sine by the quarter: `sin, cos, -sin, -cos` of the rest. -/
def quarterSin (q : Nat × Int × Int) : Int :=
  match q.1 with
  | 0 => q.2.1
  | 1 => q.2.2
  | 2 => -q.2.1
  | _ => -q.2.2

/-- The cosine by the quarter: `cos, -sin, -cos, sin` of the rest. -/
def quarterCos (q : Nat × Int × Int) : Int :=
  match q.1 with
  | 0 => q.2.2
  | 1 => -q.2.1
  | 2 => -q.2.2
  | _ => q.2.1

/-- The error bound of `quarterTurn`. -/
def trigErr : Int := (2 : Int) ^ 20

/-- Both ends of a value scaled by `2^p`, rounded. -/
def trigEnds (p : Nat) (v : Int) : F64 × F64 :=
  (F64.ofDyadic (v - trigErr) (-p), F64.ofDyadic (v + trigErr) (-p))

/-- Both ends of a quotient of two enclosed values, rounded; the ends differ when the divisor's sign
is not settled. -/
def quotientEnds (num den : Int) : F64 × F64 :=
  let n := if den < 0 then -num else num
  let d := if den < 0 then -den else den
  if d ≤ trigErr then (.nan, F64.zero)
  else
    let lo := n - trigErr
    let hi := n + trigErr
    (F64.ofRat lo (if 0 ≤ lo then d + trigErr else d - trigErr).toNat,
     F64.ofRat hi (if 0 ≤ hi then d - trigErr else d + trigErr).toNat)

/-- Magnitude below `2^-30`: there the nearest binary64 to `sin v` and to `tan v` is `v`; at a zero both
zeros are nearest, and the operand is taken (PRESUMED, notes/assumptions/24.md). -/
def F64.isTiny (v : F64) : Bool := v.units.natAbs < 2 ^ 1044

/-- `sin` of a finite operand. A zero gives that zero, so `-0.0` at `-0.0`, which 00_scope R14 leaves open
(PRESUMED, notes/assumptions/24.md). -/
def sinDefault (v : F64) : F64 :=
  if v.isTiny then v
  else settle (fun p => trigEnds p (quarterSin (quarterTurn p v.units))) precisions

/-- `cos` of a finite operand. -/
def cosDefault (v : F64) : F64 :=
  settle (fun p => trigEnds p (quarterCos (quarterTurn p v.units))) precisions

/-- `tan` of a finite operand. A zero gives that zero, so `-0.0` at `-0.0`, which 00_scope R14 leaves open
(PRESUMED, notes/assumptions/24.md). -/
def tanDefault (v : F64) : F64 :=
  if v.isTiny then v
  else
    settle (fun p => quotientEnds (quarterSin (quarterTurn p v.units))
      (quarterCos (quarterTurn p v.units))) precisions

/-- `e^v` of a finite operand: above 710 it is beyond the format, below -746 it rounds to zero,
which is `+0.0` (PRESUMED, notes/assumptions/24.md). -/
def expDefault (v : F64) : F64 :=
  if (710 * F64.unitsPerOne : Int) ≤ v.units then .inf false
  else if v.units ≤ -(746 * F64.unitsPerOne : Int) then F64.zero
  else settle (fun p => expEnds p (v.units * (2 : Int) ^ p / (2 : Int) ^ 1074)) precisions

/-- `10^v` of a finite operand: exact before rounding at an integer, above 309 beyond the format,
below -324 rounding to zero, which is `+0.0` (PRESUMED, notes/assumptions/24.md). -/
def pow10Default (v : F64) : F64 :=
  if (309 * F64.unitsPerOne : Int) ≤ v.units then .inf false
  else if v.units ≤ -(324 * F64.unitsPerOne : Int) then F64.zero
  else if v.units % (2 : Int) ^ 1074 = 0 then
    let n := v.units / (2 : Int) ^ 1074
    if 0 ≤ n then F64.ofNat (10 ^ n.toNat) else F64.ofRat 1 (10 ^ (-n).toNat)
  else settle (fun p => expEnds p (v.units * ln10Fixed p / (2 : Int) ^ 1074)) precisions

end Sys2Proof
end

