-- ==== Sys2Proof/Machine/Num.lean ====
section
/-! DEFINITION. The numerics record `NUM` (00_scope R12): its default (R14, 41_spectral R144), the
named properties of R13 that are imposed on every record, and the record a choice names. -/

namespace Sys2Proof

/-- The numerics record (00_scope R12). -/
structure Num where
  pi : F64
  sqrt2 : F64
  tan : F64 → F64
  sin : F64 → F64
  cos : F64 → F64
  exp : F64 → F64
  pow10 : F64 → F64
  dft : List Cplx → List Cplx
  idft : List Cplx → List Cplx

/-- NUM-PI (00_scope R13): the binary64 nearest π. -/
def piBits : Word64 := 0x400921FB54442D18

/-- NUM-SQRT2 (00_scope R13): the binary64 nearest √2. -/
def sqrt2Bits : Word64 := 0x3FF6A09E667F3BCD

/-- The value 2.0. -/
def F64.two : F64 := F64.ofNat 2

/-- The value 1.0. -/
def F64.one : F64 := F64.ofNat 1

/-- NUM-NAN for a trigonometric function (00_scope R13): a NaN at a NaN and at the infinities. -/
def trigField (f : F64 → F64) (v : F64) : F64 :=
  match v with
  | .nan => .nan
  | .inf _ => .nan
  | .fin s ex frac => f (.fin s ex frac)

/-- NUM-NAN and NUM-EXP-RANGE (00_scope R13): `exp(-Inf) = +0.0`, `exp(+Inf) = +Inf`, and for
`v <= 0` a result from 0 to 1. A free record's value outside that range is replaced by 1.0
(notes/assumptions/9.md). -/
def expField (f : F64 → F64) (v : F64) : F64 :=
  match v with
  | .nan => .nan
  | .inf neg => if neg then F64.zero else .inf false
  | .fin s ex frac =>
    let r := f (.fin s ex frac)
    if (F64.fin s ex frac).le F64.zero && !(F64.zero.le r && r.le F64.one) then F64.one else r

/-- NUM-NAN, NUM-POW10-ZERO and NUM-POW10-NEGINF (00_scope R13). -/
def pow10Field (f : F64 → F64) (v : F64) : F64 :=
  match v with
  | .nan => .nan
  | .inf neg => if neg then F64.zero else .inf false
  | .fin s ex frac => if F64.magUnits ex frac = 0 then F64.one else f (.fin s ex frac)

/-- NUM-DFT-LEN (00_scope R13): as many bins as the operand has entries. -/
def dftField (f : List Cplx → Nat → Cplx) (x : List Cplx) : List Cplx :=
  (List.range x.length).map (f x)

/-- A record with the properties of 00_scope R13 imposed: NUM-TOTAL, NUM-PI, NUM-SQRT2,
NUM-POW10-ZERO, NUM-POW10-NEGINF, NUM-EXP-RANGE, NUM-NAN and NUM-DFT-LEN. The others
(NUM-FAITHFUL, NUM-DFT-ROUNDTRIP, NUM-DFT-IDEAL) are for claims to assume
(Sys2Proof/Safety.lean, notes/assumptions/8.md). -/
def Num.ofRaw (r : RawNum) : Num where
  pi := F64.ofBits piBits
  sqrt2 := F64.ofBits sqrt2Bits
  tan := trigField r.tan
  sin := trigField r.sin
  cos := trigField r.cos
  exp := expField r.exp
  pow10 := pow10Field r.pow10
  dft := dftField r.dftAt
  idft := dftField r.idftAt

/-! ### The default transform pair (41_spectral R144) -/

/-- The angle of bin product `kn` over length `n`:
`((2.0 * PI) * float((k*n) mod N)) / float(N)`. -/
def dftAngle (kn len : Nat) : F64 :=
  ((F64.two.mul (F64.ofBits piBits)).mul (F64.ofNat (kn % len))).div (F64.ofNat len)

/-- Entry `i` of a complex list; every use has `i` below the length. -/
def cplxAt (x : List Cplx) (i : Nat) : Cplx := x.getD i ⟨F64.zero, F64.zero⟩

/-- One term of the forward sum: `x[n]` times `(c, -s)`, added to the accumulator. -/
def dftTerm (x : List Cplx) (k : Nat) (acc : Cplx) (n : Nat) : Cplx :=
  let th := dftAngle (k * n) x.length
  let c := cosDefault th
  let s := sinDefault th
  ⟨acc.re.add (((cplxAt x n).re.mul c).add ((cplxAt x n).im.mul s)),
   acc.im.add (((cplxAt x n).im.mul c).sub ((cplxAt x n).re.mul s))⟩

/-- Bin `k` of the default forward transform: the direct sum in index order from `+0.0`. -/
def dftAtDefault (x : List Cplx) (k : Nat) : Cplx :=
  (List.range x.length).foldl (dftTerm x k) ⟨F64.zero, F64.zero⟩

/-- One term of the inverse sum: `X[k]` times `(c, s)`, added to the accumulator. -/
def idftTerm (x : List Cplx) (n : Nat) (acc : Cplx) (k : Nat) : Cplx :=
  let th := dftAngle (k * n) x.length
  let c := cosDefault th
  let s := sinDefault th
  ⟨acc.re.add (((cplxAt x k).re.mul c).sub ((cplxAt x k).im.mul s)),
   acc.im.add (((cplxAt x k).re.mul s).add ((cplxAt x k).im.mul c))⟩

/-- Entry `n` of the default inverse transform: the direct sum, divided by the length. -/
def idftAtDefault (x : List Cplx) (n : Nat) : Cplx :=
  let sum := (List.range x.length).foldl (idftTerm x n) ⟨F64.zero, F64.zero⟩
  ⟨sum.re.div (F64.ofNat x.length), sum.im.div (F64.ofNat x.length)⟩

/-- The default record's functions (00_scope R14). -/
def rawDefault : RawNum where
  tan := tanDefault
  sin := sinDefault
  cos := cosDefault
  exp := expDefault
  pow10 := pow10Default
  dftAt := dftAtDefault
  idftAt := idftAtDefault

/-- The numerics record a block was built with (00_scope R7, R12). -/
def NumSel.record : NumSel → Num
  | .default => Num.ofRaw rawDefault
  | .free n => Num.ofRaw (Config.freeNum n)

/-- `lin(db) = 32768.0 * NUM.pow10(db / 20.0)` (00_scope R15). -/
def Num.lin (num : Num) (db : F64) : F64 :=
  (F64.ofNat 32768).mul (num.pow10 (db.div (F64.ofNat 20)))

end Sys2Proof
end

