-- ==== Sys2Proof/Syntax.lean ====
section
/-! DEFINITION. The thirteen commands of 30_encoding R84, one constructor per row of
spec/opcode_table.json. -/

namespace Sys2Proof

/-- A command. `d` is the first slot operand `KD`, `a` and `b` are MIX's sources `KA` and `KB`, and
`makeup` is the flag `F` of COMP (`COMP.MK` is `COMP` with `F = 1`, 30_encoding R91). -/
inductive Instr where
  | decode (d : SlotId)
  | encode (d : SlotId)
  | bqlp (d : SlotId)
  | bqhp (d : SlotId)
  | firlp (d : SlotId)
  | ravg (d : SlotId)
  | hpf2 (d : SlotId)
  | norm (d : SlotId)
  | comp (d : SlotId) (makeup : Bool)
  | mix (d a b : SlotId)
  | fft (d : SlotId)
  | ifft
  | recon (d : SlotId)
  deriving DecidableEq, Repr

end Sys2Proof
end

