-- ==== Sys2Proof/WellFormed.lean ====
section
/-! DEFINITION. Which command terms are commands: the checks of 30_encoding R86 that a term of
`Instr` can still fail. A term names its slots by `SlotId`, so "no such slot" cannot be written;
what is left is step 4, MIX with a destination that is a source (44_mixer R241). -/

namespace Sys2Proof

/-- A command is well formed when MIX's destination is neither of its sources. -/
def Instr.wf : Instr → Bool
  | .decode _ => true
  | .encode _ => true
  | .bqlp _ => true
  | .bqhp _ => true
  | .firlp _ => true
  | .ravg _ => true
  | .hpf2 _ => true
  | .norm _ => true
  | .comp _ _ => true
  | .mix d a b => decide (d ≠ a) && decide (d ≠ b)
  | .fft _ => true
  | .ifft => true
  | .recon _ => true

end Sys2Proof
end

