-- ==== Sys2Proof/Decode.lean ====
section
/-! DEFINITION. The command decoder and the encoder (30_encoding R80 to R86, R90): total on every
32-bit word and on every list of bytes, rejecting by name. -/

namespace Sys2Proof

/-- The reasons of 30_encoding R86 for which a word is not a command, in the order they are checked. -/
inductive DecodeError where
  | reservedOpcode
  | reservedBit
  | noSuchSlot
  | mixAlias
  deriving DecidableEq, Repr

/-- The detail `ILLEGAL_COMMAND` reports for a reason (30_encoding R86, 60_exceptions R251). -/
def DecodeError.detail : DecodeError → Nat
  | .reservedOpcode => 0
  | .reservedBit => 1
  | .noSuchSlot => 2
  | .mixAlias => 3

/-- The twelve opcodes of 30_encoding R86 step 1; the two biquad modes share one (R84). -/
inductive Op where
  | decode | encode | biquad | firlp | ravg | hpf2 | norm | comp | mix | fft | ifft | recon
  deriving DecidableEq, Repr

/-- The opcode number (30_encoding R84). -/
def Op.code : Op → Byte
  | .decode => 0x01
  | .encode => 0x02
  | .biquad => 0x10
  | .firlp => 0x11
  | .ravg => 0x12
  | .hpf2 => 0x13
  | .norm => 0x20
  | .comp => 0x21
  | .mix => 0x30
  | .fft => 0x40
  | .ifft => 0x41
  | .recon => 0x42

/-- The opcodes, in the order of the table. -/
def opcodes : List Op :=
  [.decode, .encode, .biquad, .firlp, .ravg, .hpf2, .norm, .comp, .mix, .fft, .ifft, .recon]

/-- The opcode of an opcode field, if it is not reserved (30_encoding R86 step 1). -/
def opcodeOf (b : Byte) : Option Op := opcodes.find? (fun op => op.code == b)

/-- The bits of the word that are in `OP` or in a field the opcode uses (30_encoding R84): `KD` is
bits 9:8, `KA` bits 11:10, `KB` bits 13:12, `F` bit 16. -/
def Op.usedBits : Op → Word32
  | .decode => 0x000003FF
  | .encode => 0x000003FF
  | .biquad => 0x000103FF
  | .firlp => 0x000003FF
  | .ravg => 0x000003FF
  | .hpf2 => 0x000003FF
  | .norm => 0x000003FF
  | .comp => 0x000103FF
  | .mix => 0x00003FFF
  | .fft => 0x000003FF
  | .ifft => 0x000000FF
  | .recon => 0x000003FF

/-- Field `OP` (30_encoding R80). -/
def fieldOP (cw : Word32) : Byte := cw.extractLsb' 0 8

/-- Field `KD`. -/
def fieldKD (cw : Word32) : BitVec 2 := cw.extractLsb' 8 2

/-- Field `KA`. -/
def fieldKA (cw : Word32) : BitVec 2 := cw.extractLsb' 10 2

/-- Field `KB`. -/
def fieldKB (cw : Word32) : BitVec 2 := cw.extractLsb' 12 2

/-- Field `F`. -/
def fieldF (cw : Word32) : Bool := cw.getLsbD 16

/-- The slot a slot field names; 3 names none (30_encoding R81). -/
def slotOf (f : BitVec 2) : Option SlotId :=
  if f = 0 then some .k0 else if f = 1 then some .k1 else if f = 2 then some .k2 else none

/-- The command an opcode and its used fields make; none when a used slot field is 3. -/
def buildInstr (op : Op) (cw : Word32) : Option Instr :=
  match op with
  | .decode => (slotOf (fieldKD cw)).map .decode
  | .encode => (slotOf (fieldKD cw)).map .encode
  | .biquad => (slotOf (fieldKD cw)).map (fun d => if fieldF cw then .bqhp d else .bqlp d)
  | .firlp => (slotOf (fieldKD cw)).map .firlp
  | .ravg => (slotOf (fieldKD cw)).map .ravg
  | .hpf2 => (slotOf (fieldKD cw)).map .hpf2
  | .norm => (slotOf (fieldKD cw)).map .norm
  | .comp => (slotOf (fieldKD cw)).map (fun d => .comp d (fieldF cw))
  | .mix =>
    match slotOf (fieldKD cw), slotOf (fieldKA cw), slotOf (fieldKB cw) with
    | some d, some a, some b => some (.mix d a b)
    | _, _, _ => none
  | .fft => (slotOf (fieldKD cw)).map .fft
  | .ifft => some .ifft
  | .recon => (slotOf (fieldKD cw)).map .recon

/-- The decoder: the four checks of 30_encoding R86 in their order, then the command. -/
def decode (cw : Word32) : Except DecodeError Instr :=
  match opcodeOf (fieldOP cw) with
  | none => .error .reservedOpcode
  | some op =>
    if cw &&& ~~~op.usedBits ≠ 0 then .error .reservedBit
    else
      match buildInstr op cw with
      | none => .error .noSuchSlot
      | some i => if i.wf then .ok i else .error .mixAlias

/-- The word `OP | KD << 8 | KA << 10 | KB << 12 | F << 16` (30_encoding R90). -/
def packWord (op : Op) (kd ka kb : Nat) (f : Bool) : Word32 :=
  op.code.setWidth 32 ||| (BitVec.ofNat 32 kd <<< 8) ||| (BitVec.ofNat 32 ka <<< 10)
    ||| (BitVec.ofNat 32 kb <<< 12) ||| (BitVec.ofNat 32 f.toNat <<< 16)

/-- The encoder: the command word of a command (30_encoding R84, R90). -/
def encode : Instr → Word32
  | .decode d => packWord .decode d.index 0 0 false
  | .encode d => packWord .encode d.index 0 0 false
  | .bqlp d => packWord .biquad d.index 0 0 false
  | .bqhp d => packWord .biquad d.index 0 0 true
  | .firlp d => packWord .firlp d.index 0 0 false
  | .ravg d => packWord .ravg d.index 0 0 false
  | .hpf2 d => packWord .hpf2 d.index 0 0 false
  | .norm d => packWord .norm d.index 0 0 false
  | .comp d makeup => packWord .comp d.index 0 0 makeup
  | .mix d a b => packWord .mix d.index a.index b.index false
  | .fft d => packWord .fft d.index 0 0 false
  | .ifft => packWord .ifft 0 0 0 false
  | .recon d => packWord .recon d.index 0 0 false

/-! ### Command words as bytes (30_encoding R90: four bytes, little-endian) -/

/-- Why the head of a byte list is not a command. -/
inductive ByteError where
  | truncated
  | word (e : DecodeError)
  deriving DecidableEq, Repr

/-- The four bytes a script stores a command word as, the least significant first. -/
def wordBytes (cw : Word32) : List Byte :=
  [cw.extractLsb' 0 8, cw.extractLsb' 8 8, cw.extractLsb' 16 8, cw.extractLsb' 24 8]

/-- The command at the head of a byte list, with the bytes after it. -/
def decodeBytes : List Byte → Except ByteError (Instr × List Byte)
  | b0 :: b1 :: b2 :: b3 :: rest =>
    match decode (b3 ++ b2 ++ b1 ++ b0) with
    | .ok i => .ok (i, rest)
    | .error e => .error (.word e)
  | _ => .error .truncated

/-- The word an opcode-table row's bits stand for: the bits above `nbits` are 0. -/
def tableWord (nbits w : Nat) : Word32 := BitVec.ofNat 32 (w % 2 ^ nbits)

/-- What the decoder reads from a word numbered as spec/opcode_table.json numbers it, laid out in
bytes as a script stores it; a command has 32 bits, so a longer row is none. -/
def decodeTableWord (nbits w : Nat) : Option Instr :=
  if nbits ≤ 32 then
    match decodeBytes (wordBytes (tableWord nbits w)) with
    | .ok (i, _) => some i
    | .error _ => none
  else none

end Sys2Proof
end

