-- ==== Sys2Proof/Machine/Bytes.lean ====
section
/-! DEFINITION. Byte order (00_scope R8, 20_memory R60): the one place where bytes become numbers and
numbers bytes. -/

namespace Sys2Proof.Machine

/-- `le16`: two bytes as a number, the first the least significant. -/
def le16 (b0 b1 : Byte) : Word16 := b1 ++ b0

/-- `le32`: four bytes as a number, the first the least significant. -/
def le32 (b0 b1 b2 b3 : Byte) : Word32 := b3 ++ b2 ++ b1 ++ b0

/-- `to_le16`: a number below `2^16` as two bytes, the least significant first. -/
def toLe16 (v : Nat) : List Byte := [BitVec.ofNat 8 v, BitVec.ofNat 8 (v / 2 ^ 8)]

/-- `to_le32`: a number below `2^32` as four bytes, the least significant first. -/
def toLe32 (v : Nat) : List Byte :=
  [BitVec.ofNat 8 v, BitVec.ofNat 8 (v / 2 ^ 8), BitVec.ofNat 8 (v / 2 ^ 16),
    BitVec.ofNat 8 (v / 2 ^ 24)]

/-- `sext_16`: the signed value of a 16-bit pattern (00_scope R8, 40_container R111). -/
def sext16 (v : Word16) : Int :=
  if v.toNat < 32768 then (v.toNat : Int) else (v.toNat : Int) - 65536

/-- Byte `i` of a byte list. Every use has `i` below the length. -/
def byteAt (h : List Byte) (i : Nat) : Byte := h.getD i 0

end Sys2Proof.Machine
end

