-- ==== Sys2Proof/Machine/State.lean ====
section
/-! DEFINITION. The state of the block (10_state R20), with the configuration it was built with and
the host's coming actions, and the state after reset (10_state R48). All of it is plain data. -/

namespace Sys2Proof.Machine

/-- A four-byte tag, in stream order (20_memory R61). -/
structure Tag where
  b0 : Byte
  b1 : Byte
  b2 : Byte
  b3 : Byte
  deriving DecidableEq, Repr

/-- The PcmHeader: thirteen fields (10_state R22, 30_encoding R92). Numbers are unsigned. -/
structure Header where
  containerTag : Tag
  containerSize : Word32
  formatTag : Tag
  fmtTag : Tag
  fmtSize : Word32
  formatCode : Word16
  channels : Word16
  sampleRate : Word32
  byteRate : Word32
  blockAlign : Word16
  bitsPerSample : Word16
  dataTag : Tag
  dataSize : Word32
  deriving DecidableEq, Repr

/-- The derived quantities, computed once at decode time (10_state R23). -/
structure Derived where
  sampleCount : Nat
  frameSize : Nat
  durationSeconds : F64
  deriving DecidableEq, Repr

/-- What a valid slot holds (10_state R21 to R24). -/
structure Container where
  hdr : Header
  der : Derived
  buf : List F64
  deriving DecidableEq, Repr

/-- The registers of the status group the host reads (10_state R32 to R36). -/
inductive StatusReg where
  | status | fault | fcmd | finfo
  | len (k : SlotId)
  | specLen | timeLen | srcCnt | snkCnt
  deriving DecidableEq, Repr

/-- The host's named actions (20_memory R66): what the host can do to the block. -/
inductive HostAction where
  | issue (cw : Word32)
  | pushSrc (b : Byte)
  | setP (i : Fin 8) (v : Word64)
  | getP (i : Fin 8)
  | readStatus (r : StatusReg)
  | popSnk
  | reset
  deriving DecidableEq, Repr

/-- One move of the host: a named action, or an access to the port at a byte offset (20_memory R65). -/
inductive HostMove where
  | act (a : HostAction)
  | write (offset : Nat) (v : Word64)
  | read (offset : Nat)
  deriving DecidableEq, Repr

/-- The whole state. `k0`, `k1`, `k2` are the container slots and `spec`, `time` the complex buffers:
`none` is `valid = 0`, which holds no value (10_state R21, R28, R29). `p` are the parameter registers
(R30); `faulted`, `fault`, `fcmd`, `finfo` the status group (R32 to R35); `src` and `snk` the byte
streams, head first (R37, R38). `cfg` is the configuration (R47), `host` the host's moves to come,
head first, and `reply` what the last one returned (the model's own: notes/assumptions/2.md, 3.md). -/
structure State where
  k0 : Option Container
  k1 : Option Container
  k2 : Option Container
  spec : Option (List Cplx)
  time : Option (List Cplx)
  p : Vector Word64 8
  faulted : Bool
  fault : Word32
  fcmd : Word32
  finfo : Word64
  src : List Byte
  snk : List Byte
  cfg : Cfg
  host : List HostMove
  reply : Option Word64
  deriving DecidableEq, Repr

/-- The reasons a step can stop. There is none: every fault of the block is sticky state that the
next state shows (60_exceptions R256), and 93 Part 1 has no stuck behaviour
(notes/assumptions/1.md). -/
inductive Fault where
  deriving DecidableEq, Repr

/-- The reasons a step can be refused. -/
inductive Refusal where
  /-- Raised by `exec`'s arm of an instruction that has no meaning yet; safe. No arm raises it. -/
  | notModelled (mnemonic : String)
  deriving DecidableEq, Repr

/-- What one step or one command answers. -/
abbrev Result := Host.Outcome State Fault Refusal

/-- The state after reset (10_state R48, 70_reset R280). `cfg`, `host` and `reply` are the model's own
fields (DESIGN CHOICE, notes/assumptions/2.md, 3.md, 5.md, 6.md, 17.md). -/
def State.reset : State where
  k0 := none
  k1 := none
  k2 := none
  spec := none
  time := none
  p := Vector.replicate 8 0
  faulted := false
  fault := 0
  fcmd := 0
  finfo := 0
  src := []
  snk := []
  cfg := Cfg.initial
  host := []
  reply := none

end Sys2Proof.Machine
end

