-- ==== Sys2Proof/Machine/Ops.lean ====
section
/-! DEFINITION. The operations every command shares: slots, streams, raising a fault (60_exceptions
R256), reset, the one way out of the faulted state (70_reset R280), and running a command to its
commit or its raise. -/

namespace Sys2Proof.Machine

/-! ### Slots (10_state R21, R27) -/

/-- `K[k]`, none when `K[k].valid = 0`. -/
def State.slot (s : State) : SlotId → Option Container
  | .k0 => s.k0
  | .k1 => s.k1
  | .k2 => s.k2

/-- `K[k] <- c`; no other slot changes (10_state R27). -/
def State.setSlot (s : State) (k : SlotId) (c : Option Container) : State :=
  match k with
  | .k0 => { s with k0 := c }
  | .k1 => { s with k1 := c }
  | .k2 => { s with k2 := c }

/-! ### Streams (20_memory R62, R63) -/

/-- `SrcRead(n)`: the first `n` bytes of `SRC`, which stay there. -/
def State.srcRead (s : State) (n : Nat) : List Byte := s.src.take n

/-- `SrcDrop(n)`: the first `n` bytes of `SRC` are removed. -/
def State.srcDrop (s : State) (n : Nat) : State := { s with src := s.src.drop n }

/-- `SnkWrite(b)`: bytes are appended to the tail of `SNK`. -/
def State.snkWrite (s : State) (b : List Byte) : State := { s with snk := s.snk ++ b }

/-! ### Faults (60_exceptions R251, R256) -/

/-- The fault kinds of 60_exceptions R251. -/
inductive FaultKind where
  | streamExhausted | format | paramDomain | degenerateInput | nonFinite | encodeRange
  | illegalCommand | emptySlot | capacity
  deriving DecidableEq, Repr

/-- The fault code (60_exceptions R251). -/
def FaultKind.code : FaultKind → Nat
  | .streamExhausted => 1
  | .format => 2
  | .paramDomain => 3
  | .degenerateInput => 4
  | .nonFinite => 5
  | .encodeRange => 6
  | .illegalCommand => 7
  | .emptySlot => 8
  | .capacity => 9

/-- A raised fault: its kind and the detail `FINFO` will hold. -/
structure Raise where
  kind : FaultKind
  info : Nat
  deriving DecidableEq, Repr

/-- `raise F(info)` when the condition holds; the pseudocode goes on when it does not (00_scope R9). -/
def failIf (cond : Bool) (kind : FaultKind) (info : Nat) : Except Raise Unit :=
  if cond then .error ⟨kind, info⟩ else .ok ()

/-- Taking a fault in the command issued as word `cw`: the four registers of the status group are
written and nothing else changes (60_exceptions R256). -/
def State.raise (s : State) (cw : Word32) (f : Raise) : State :=
  { s with
    faulted := true
    fault := BitVec.ofNat 32 f.kind.code
    fcmd := cw
    finfo := BitVec.ofNat 64 f.info }

/-- Reset, the only way out of the faulted state (60_exceptions R268, 70_reset R280): every piece of
state takes its reset value and only the configuration survives (R281). The moves the host has still
to make are the host's own and stay. -/
def State.hardReset (s : State) : State :=
  { State.reset with cfg := s.cfg, host := s.host, reply := none }

/-- A command run to its commit or its raise: either the state its pseudocode commits, or the state
before it with the fault taken (00_scope R9, 60_exceptions R256). -/
def runCommand (i : Instr) (s : State) (body : Except Raise State) : Result :=
  match body with
  | .ok t => .next t
  | .error f => .next (s.raise (encode i) f)

end Sys2Proof.Machine
end

