-- ==== Sys2Proof/Machine/Operands.lean ====
section
/-! DEFINITION. Operands: the parameter registers in their two readings (10_state R31), the slot
operands with their faults (60_exceptions R259, R260), and the common frame of the transforms
(42_filters R197). -/

namespace Sys2Proof.Machine

/-- `Pf(i)`: parameter register `i` read as a binary64 value. -/
def State.pf (s : State) (i : Fin 8) : F64 := F64.ofBits s.p[i]

/-- `Pn(i)`: parameter register `i` read as an unsigned integer. -/
def State.pn (s : State) (i : Fin 8) : Nat := s.p[i].toNat

/-- The numerics record of the block (00_scope R12). -/
def State.num (s : State) : Num := s.cfg.num.record

/-- A slot named as something a command reads: `EMPTY_SLOT` when it holds nothing
(60_exceptions R259). -/
def readSlot (d : SlotId) (s : State) : Except Raise Container :=
  match s.slot d with
  | none => .error ⟨.emptySlot, d.index⟩
  | some c => .ok c

/-- The detail of `EMPTY_SLOT` that stands for `SPEC` (60_exceptions R251). -/
def specDetail : Nat := 4

/-- The detail of `EMPTY_SLOT` that stands for `TIME` (60_exceptions R251). -/
def timeDetail : Nat := 5

/-- A complex buffer a command reads: `EMPTY_SLOT` when it holds nothing. -/
def readCplx (v : Option (List Cplx)) (detail : Nat) : Except Raise (List Cplx) :=
  match v with
  | none => .error ⟨.emptySlot, detail⟩
  | some x => .ok x

/-- `sr = float(K[d].hdr.sampleRate)` (42_filters R197). -/
def Container.rate (c : Container) : F64 := F64.ofNat c.hdr.sampleRate.toNat

/-- `prologue(d)`: the slot must be valid and its buffer not empty (42_filters R197). -/
def prologue (d : SlotId) (s : State) : Except Raise Container := do
  let c ← readSlot d s
  failIf c.buf.isEmpty .degenerateInput 0
  return c

/-- The lowest index of an entry that is a NaN or an infinity. -/
def firstNonFinite (y : List F64) : Option Nat := y.findIdx? (fun v => !v.isFinite)

/-- The finiteness check: `NON_FINITE` with the lowest failing index (60_exceptions R262). -/
def checkFinite (y : List F64) : Except Raise Unit :=
  match firstNonFinite y with
  | some i => .error ⟨.nonFinite, i⟩
  | none => .ok ()

/-- `K[d].buf <- y`, the header and the derived quantities as they were (42_filters R197). -/
def State.setBuf (s : State) (d : SlotId) (c : Container) (y : List F64) : State :=
  s.setSlot d (some { c with buf := y })

/-- `epilogue(d, y)`: the finiteness check, then the commit (42_filters R197). -/
def epilogue (d : SlotId) (c : Container) (y : List F64) (s : State) : Except Raise State := do
  checkFinite y
  return s.setBuf d c y

end Sys2Proof.Machine
end

