-- ==== Sys2Proof/Machine/Container.lean ====
section
/-! DEFINITION. The PCM container commands DECODE and ENCODE (40_container R110 to R124). -/

namespace Sys2Proof.Machine

/-- The tag at an offset, in stream order (20_memory R61). -/
def tagAt (h : List Byte) (i : Nat) : Tag :=
  ⟨byteAt h i, byteAt h (i + 1), byteAt h (i + 2), byteAt h (i + 3)⟩

/-- The 32-bit number at an offset. -/
def u32At (h : List Byte) (i : Nat) : Word32 :=
  le32 (byteAt h i) (byteAt h (i + 1)) (byteAt h (i + 2)) (byteAt h (i + 3))

/-- The 16-bit number at an offset. -/
def u16At (h : List Byte) (i : Nat) : Word16 := le16 (byteAt h i) (byteAt h (i + 1))

/-- The length of the header (00_scope R6). -/
def headerLen : Nat := 44

/-- `parse_header(h)`: the thirteen fields at the offsets of 30_encoding R92; nothing is validated
(40_container R112). -/
def parseHeader (h : List Byte) : Header where
  containerTag := tagAt h 0
  containerSize := u32At h 4
  formatTag := tagAt h 8
  fmtTag := tagAt h 12
  fmtSize := u32At h 16
  formatCode := u16At h 20
  channels := u16At h 22
  sampleRate := u32At h 24
  byteRate := u32At h 28
  blockAlign := u16At h 32
  bitsPerSample := u16At h 34
  dataTag := tagAt h 36
  dataSize := u32At h 40

/-- `derive(hdr)` (40_container R114): floor divisions of unbounded naturals and one binary64
quotient. -/
def deriveQuantities (hdr : Header) : Derived where
  sampleCount := 8 * hdr.dataSize.toNat / hdr.bitsPerSample.toNat
  frameSize := hdr.channels.toNat * hdr.bitsPerSample.toNat / 8
  durationSeconds := (F64.ofNat hdr.dataSize.toNat).div (F64.ofNat hdr.byteRate.toNat)

/-- The frames of a body: one entry per two bytes, a little-endian signed 16-bit integer as a
binary64 value (40_container R111). -/
def decodeFrames : List Byte → List F64
  | b0 :: b1 :: rest => F64.ofInt (sext16 (le16 b0 b1)) :: decodeFrames rest
  | [_] => []
  | [] => []

/-- The pseudocode of `DECODE K<d>` (40_container R110). -/
def decodeBody (d : SlotId) (s : State) : Except Raise State := do
  failIf (decide (s.src.length < headerLen)) .streamExhausted 0
  let hdr := parseHeader (s.srcRead headerLen)
  failIf (hdr.bitsPerSample != Config.supportedBits) .format 34
  failIf (hdr.byteRate == 0) .format 28
  let der := deriveQuantities hdr
  failIf (decide (s.cfg.nmax < der.sampleCount)) .capacity der.sampleCount
  let need := headerLen + 2 * der.sampleCount
  failIf (decide (s.src.length < need)) .streamExhausted 1
  let buf := decodeFrames ((s.srcRead need).drop headerLen)
  return (s.srcDrop need).setSlot d (some ⟨hdr, der, buf⟩)

/-- `DECODE K<d>` (40_container R110). -/
def execDecode (d : SlotId) (s : State) : Result := runCommand (.decode d) s (decodeBody d s)

/-- A tag's bytes in stream order. -/
def tagBytes (t : Tag) : List Byte := [t.b0, t.b1, t.b2, t.b3]

/-- `header_bytes(hdr, N)`: every field as DECODE read it, but `containerSize`, written as
`36 + 2*N`, and `dataSize`, written as `2*N` (40_container R121). -/
def headerBytes (hdr : Header) (n : Nat) : List Byte :=
  tagBytes hdr.containerTag ++ toLe32 (36 + 2 * n) ++ tagBytes hdr.formatTag
    ++ tagBytes hdr.fmtTag ++ toLe32 hdr.fmtSize.toNat ++ toLe16 hdr.formatCode.toNat
    ++ toLe16 hdr.channels.toNat ++ toLe32 hdr.sampleRate.toNat ++ toLe32 hdr.byteRate.toNat
    ++ toLe16 hdr.blockAlign.toNat ++ toLe16 hdr.bitsPerSample.toNat ++ tagBytes hdr.dataTag
    ++ toLe32 (2 * n)

/-- The 16-bit integer an amplitude is written as: its integer part toward zero, when that is in
range (40_container R122). An amplitude that is not finite has none (notes/assumptions/16.md). -/
def sample16 (v : F64) : Option Int :=
  match v.trunc with
  | some q => if -32768 ≤ q ∧ q ≤ 32767 then some q else none
  | none => none

/-- `to_le16(q mod 65536)` of an amplitude in range (30_encoding R96). -/
def frameBytes (v : F64) : List Byte :=
  match sample16 v with
  | some q => toLe16 (q % 65536).toNat
  | none => []

/-- The range check of ENCODE: `ENCODE_RANGE` with the lowest failing index (40_container R120). -/
def checkRange (x : List F64) : Except Raise Unit :=
  match x.findIdx? (fun v => (sample16 v).isNone) with
  | some i => .error ⟨.encodeRange, i⟩
  | none => .ok ()

/-- The pseudocode of `ENCODE K<d>` (40_container R120). -/
def encodeBody (d : SlotId) (s : State) : Except Raise State := do
  let c ← readSlot d s
  checkRange c.buf
  return (s.snkWrite (headerBytes c.hdr c.buf.length ++ c.buf.flatMap frameBytes)).setSlot d none

/-- `ENCODE K<d>` (40_container R120). -/
def execEncode (d : SlotId) (s : State) : Result := runCommand (.encode d) s (encodeBody d s)

end Sys2Proof.Machine
end

