-- ==== Sys2Proof/Machine/Filters.lean ====
section
/-! DEFINITION. The Filter Bank: BQLP, BQHP, FIRLP, RAVG and HPF2 (42_filters). Each builds a new list
from the raw samples; nothing overwritten is read back (70_reset R289). -/

namespace Sys2Proof.Machine

/-! ### Biquad (42_filters R160 to R166) -/

/-- `bq_coeff_low(fc, sr)`, the default (42_filters R163). -/
def bqCoeffLow (num : Num) (fc sr : F64) : Taps :=
  let c := F64.one.div (num.tan ((num.pi.mul fc).div sr))
  let r := num.sqrt2
  let a1 := F64.one.div ((F64.one.add (r.mul c)).add (c.mul c))
  { a1 := a1
    a2 := F64.two.mul a1
    a3 := a1
    b1 := (F64.two.mul (F64.one.sub (c.mul c))).mul a1
    b2 := ((F64.one.sub (r.mul c)).add (c.mul c)).mul a1 }

/-- `bq_coeff_high(fc, sr)`, the default (42_filters R164). -/
def bqCoeffHigh (num : Num) (fc sr : F64) : Taps :=
  let c := num.tan ((num.pi.mul fc).div sr)
  let r := num.sqrt2
  let a1 := F64.one.div ((F64.one.add (r.mul c)).add (c.mul c))
  { a1 := a1
    a2 := (F64.ofInt (-2)).mul a1
    a3 := a1
    b1 := (F64.two.mul ((c.mul c).sub F64.one)).mul a1
    b2 := ((F64.one.sub (r.mul c)).add (c.mul c)).mul a1 }

/-- `BQ_COEFF(mode, fc, sr)`: the five taps from the function the block was built with, by default
those of the numbered rules (42_filters R163, R164, 93 U1). -/
def State.bqCoeff (s : State) (mode : BqMode) (fc sr : F64) : Taps :=
  match s.cfg.bq with
  | .default =>
    match mode with
    | .low => bqCoeffLow s.num fc sr
    | .high => bqCoeffHigh s.num fc sr
  | .free n => Config.freeBqCoeff n mode fc sr

/-- One output of the recurrence (42_filters R162):
`((((a1*x) + (a2*x1)) + (a3*x2)) - (b1*y1)) - (b2*y2)`. -/
def bqNext (t : Taps) (x x1 x2 y1 y2 : F64) : F64 :=
  ((((t.a1.mul x).add (t.a2.mul x1)).add (t.a3.mul x2)).sub (t.b1.mul y1)).sub (t.b2.mul y2)

/-- The recurrence from the third sample on, with the last two inputs and the last two outputs. -/
def bqLoop (t : Taps) (x1 x2 y1 y2 : F64) : List F64 → List F64
  | [] => []
  | x :: rest =>
    let y := bqNext t x x1 x2 y1 y2
    y :: bqLoop t x x1 y y1 rest

/-- `bq_run`: the first two samples pass through unchanged (42_filters R162). -/
def bqRun (t : Taps) : List F64 → List F64
  | [] => []
  | [x0] => [x0]
  | x0 :: x1 :: rest => x0 :: x1 :: bqLoop t x1 x0 x1 x0 rest

/-- The pseudocode of the two biquad commands, which differ in their mode (42_filters R160, R161). -/
def biquadBody (mode : BqMode) (d : SlotId) (s : State) : Except Raise State := do
  let c ← prologue d s
  epilogue d c (bqRun (s.bqCoeff mode (s.pf 0) c.rate) c.buf) s

/-- `BQLP K<d>` (42_filters R160). -/
def execBqlp (d : SlotId) (s : State) : Result :=
  runCommand (.bqlp d) s (biquadBody .low d s)

/-- `BQHP K<d>` (42_filters R161). -/
def execBqhp (d : SlotId) (s : State) : Result :=
  runCommand (.bqhp d) s (biquadBody .high d s)

/-! ### Windowed-sinc FIR (42_filters R170 to R175) -/

/-- Tap `i` of `M` before normalisation, for the cutoff `Fc` as a fraction of the sample rate, by
default (42_filters R171). -/
def sincTap (num : Num) (cutoff : F64) (m i : Nat) : F64 :=
  let k : Int := (i : Int) - (m / 2 : Nat)
  let turn := F64.two.mul num.pi
  let sinc :=
    if k = 0 then turn.mul cutoff
    else (num.sin ((turn.mul cutoff).mul (F64.ofInt k))).div (F64.ofInt k)
  let window :=
    (F64.ofRat 54 100).sub
      ((F64.ofRat 46 100).mul (num.cos ((turn.mul (F64.ofNat i)).div (F64.ofNat m))))
  sinc.mul window

/-- The sum of a list, from `+0.0` in index order. -/
def sumFrom0 (x : List F64) : F64 := x.foldl F64.add F64.zero

/-- Tap `i` of `FIR_KERNEL(Fc, M)`, the kernel before normalisation, from the function the block was
built with, by default that of the numbered rule (42_filters R171, 93 U2). -/
def State.firTap (s : State) (cutoff : F64) (m i : Nat) : F64 :=
  match s.cfg.fir with
  | .default => sincTap s.num cutoff m i
  | .free n => Config.freeFirTap n cutoff m i

/-- `sinc_kernel(Fc, M)`: the taps `tap 0` to `tap (M-1)`, normalised so that they sum to 1
(42_filters R171, R172). -/
def sincKernel (tap : Nat → F64) (m : Nat) : List F64 :=
  let g := (List.range m).map tap
  g.map (fun v => v.div (sumFrom0 g))

/-- `dot(h, x, j)`: tap `i` times sample `j - i`, summed from `+0.0` in increasing `i`
(42_filters R173). -/
def firDot (h x : List F64) (j : Nat) : F64 :=
  sumFrom0 ((List.range h.length).map (fun i => (sampleAt x (j - i)).mul (sampleAt h i)))

/-- The convolution: outputs `M` to `N-1`, so the first `M` samples are dropped (42_filters R173). -/
def firRun (h x : List F64) : List F64 :=
  (List.range (x.length - h.length)).map (fun k => firDot h x (k + h.length))

/-- The pseudocode of `FIRLP K<d>` (42_filters R170): the Nyquist check, then the length check. -/
def firlpBody (d : SlotId) (s : State) : Except Raise State := do
  let c ← prologue d s
  let fc := s.pf 0
  let m := s.pn 1
  failIf (fc.gt (c.rate.div F64.two)) .paramDomain 0
  failIf (m == 0 || decide (c.buf.length ≤ m)) .paramDomain 1
  epilogue d c (firRun (sincKernel (s.firTap (fc.div c.rate) m) m) c.buf) s

/-- `FIRLP K<d>` (42_filters R170). -/
def execFirlp (d : SlotId) (s : State) : Result := runCommand (.firlp d) s (firlpBody d s)

/-! ### Rolling average (42_filters R180 to R182) -/

/-- The mean of the last `min(i+1, W)` raw samples ending at `i`, summed from the oldest
(42_filters R180, R181). -/
def windowMean (x : List F64) (w i : Nat) : F64 :=
  let lo := i + 1 - w
  let cnt := i - lo + 1
  (sumFrom0 ((x.drop lo).take cnt)).div (F64.ofNat cnt)

/-- The outputs: means at indices 0 to N-6, the last five samples as they were (42_filters R180). -/
def ravgRun (x : List F64) (w : Nat) : List F64 :=
  (List.range x.length).map
    (fun i => if i + 6 ≤ x.length then windowMean x w i else sampleAt x i)

/-- The pseudocode of `RAVG K<d>` (42_filters R180). -/
def ravgBody (d : SlotId) (s : State) : Except Raise State := do
  let c ← prologue d s
  let w := s.pn 0
  failIf (w == 0) .paramDomain 0
  epilogue d c (ravgRun c.buf w) s

/-- `RAVG K<d>` (42_filters R180). -/
def execRavg (d : SlotId) (s : State) : Result := runCommand (.ravg d) s (ravgBody d s)

/-! ### Fixed high-pass (42_filters R190, R191) -/

/-- The second difference from the third sample on: `(x[n] - (2.0 * x[n-1])) + x[n-2]`. -/
def hpfLoop (x1 x2 : F64) : List F64 → List F64
  | [] => []
  | x :: rest => ((x.sub (F64.two.mul x1)).add x2) :: hpfLoop x x1 rest

/-- The outputs: `+0.0` for the first two samples (42_filters R190). -/
def hpfRun : List F64 → List F64
  | [] => []
  | [_] => [F64.zero]
  | x0 :: x1 :: rest => F64.zero :: F64.zero :: hpfLoop x1 x0 rest

/-- The pseudocode of `HPF2 K<d>` (42_filters R190). -/
def hpf2Body (d : SlotId) (s : State) : Except Raise State := do
  let c ← prologue d s
  epilogue d c (hpfRun c.buf) s

/-- `HPF2 K<d>` (42_filters R190). -/
def execHpf2 (d : SlotId) (s : State) : Result := runCommand (.hpf2 d) s (hpf2Body d s)

end Sys2Proof.Machine
end

