-- ==== Sys2Proof/Machine/Dynamics.lean ====
section
/-! DEFINITION. The Dynamics Engine: NORM and COMP (43_dynamics). -/

namespace Sys2Proof.Machine

/-! ### Normalise (43_dynamics R200 to R203) -/

/-- The greatest magnitude of a list, from `+0.0` (43_dynamics R201). -/
def peakOf (x : List F64) : F64 :=
  x.foldl (fun peak v => if v.abs.gt peak then v.abs else peak) F64.zero

/-- `normalize(x, db)`: every sample times one quotient `target / peak`; a silent list raises
`DEGENERATE_INPUT(1)` (43_dynamics R201). -/
def normalize (num : Num) (x : List F64) (db : F64) : Except Raise (List F64) := do
  let target := num.lin db
  let peak := peakOf x
  failIf (peak.feq F64.zero) .degenerateInput 1
  let g := target.div peak
  return x.map (fun v => v.mul g)

/-- The pseudocode of `NORM K<d>` (43_dynamics R200). -/
def normBody (d : SlotId) (s : State) : Except Raise State := do
  let c ← prologue d s
  let y ← normalize s.num c.buf (s.pf 0)
  epilogue d c y s

/-- `NORM K<d>` (43_dynamics R200). -/
def execNorm (d : SlotId) (s : State) : Result := runCommand (.norm d) s (normBody d s)

/-! ### Compress (43_dynamics R210 to R219) -/

/-- `coeff(ms, sr)`: the one-pole smoothing coefficient of a time (43_dynamics R212). -/
def smoothing (num : Num) (ms sr : F64) : F64 :=
  let t := ms.div (F64.ofNat 1000)
  if t.feq F64.zero then F64.zero else num.exp ((F64.ofInt (-1)).div (sr.mul t))

/-- `lookahead_mean`: the mean of the `L` samples from the head on, over `L` however many there are
(43_dynamics R213). The list is the buffer from index `i` on. -/
def lookaheadMean (fromI : List F64) (l : Nat) : F64 :=
  (sumFrom0 (fromI.take l)).div (F64.ofNat l)

/-- `envelope(env, pk, ca, cr)` (43_dynamics R214). -/
def envelope (env pk ca cr : F64) : F64 :=
  let th := if pk.gt env then ca else cr
  ((F64.one.sub th).mul pk).add (th.mul env)

/-- `knee_gain(env, thr, knee, ratio)`: the three regions in the source's order, and a NaN when none
holds (43_dynamics R215). -/
def kneeGain (env thr knee ratio : F64) : F64 :=
  let d := env.sub thr
  let hk := knee.div F64.two
  if d.lt (F64.zero.sub hk) then F64.one
  else if d.abs.le hk then
    let t := d.add hk
    (env.add ((((F64.one.div ratio).sub F64.one).mul (t.mul t)).div (F64.two.mul knee))).div env
  else if d.gt hk then (thr.add (d.div ratio)).div env
  else .nan

/-- What one COMP works with (43_dynamics R210 lines 2 to 7). -/
structure CompSetup where
  thr : F64
  knee : F64
  ratio : F64
  ca : F64
  cr : F64
  look : Nat
  deriving DecidableEq, Repr

/-- The per-sample loop of COMP from an index on, with the envelope before it
(43_dynamics R210 lines 10 to 14). -/
def compLoop (k : CompSetup) (env : F64) : List F64 → List F64
  | [] => []
  | x :: rest =>
    let env' := envelope env (lookaheadMean (x :: rest) k.look) k.ca k.cr
    x.mul (kneeGain env' k.thr k.knee k.ratio) :: compLoop k env' rest

/-- `L = round(sampleRate · lookaheadSeconds)`: `PARAM_DOMAIN(4)` when that is not finite or below 1
(43_dynamics R210 lines 5 to 8, R213). -/
def lookaheadCount (lookMs sr : F64) : Except Raise Nat :=
  match (sr.mul (lookMs.div (F64.ofNat 1000))).roundHalfAway with
  | some l => if l < 1 then .error ⟨.paramDomain, 4⟩ else .ok l.toNat
  | none => .error ⟨.paramDomain, 4⟩

/-- The pseudocode of `COMP K<d>` and `COMP.MK K<d>` (43_dynamics R210). -/
def compBody (d : SlotId) (makeup : Bool) (s : State) : Except Raise State := do
  let c ← prologue d s
  let look ← lookaheadCount (s.pf 4) c.rate
  let k : CompSetup :=
    { thr := s.num.lin (s.pf 0)
      knee := s.num.lin (s.pf 5)
      ratio := s.pf 1
      ca := smoothing s.num (s.pf 2) c.rate
      cr := smoothing s.num (s.pf 3) c.rate
      look := look }
  let y := compLoop k F64.zero c.buf
  checkFinite y
  if makeup then
    let z ← normalize s.num y (s.pf 6)
    epilogue d c z s
  else
    epilogue d c y s

/-- `COMP K<d>`, with `F = 1` `COMP.MK K<d>` (43_dynamics R210). -/
def execComp (d : SlotId) (makeup : Bool) (s : State) : Result :=
  runCommand (.comp d makeup) s (compBody d makeup s)

end Sys2Proof.Machine
end

