-- ==== Sys2Proof/Machine/Mixer.lean ====
section
/-! DEFINITION. The Mixer: MIX (44_mixer R240 to R245). -/

namespace Sys2Proof.Machine

/-- `clip16(t)` (44_mixer R244). -/
def clip16 (t : F64) : F64 :=
  if t.gt (F64.ofInt 32767) then F64.ofInt 32767
  else if t.lt (F64.ofInt (-32768)) then F64.ofInt (-32768)
  else t

/-- The clipped sums of the longer and the shorter track; the shorter one's missing tail is `+0.0`
(44_mixer R240 lines 7 to 9). -/
def mixRun : List F64 → List F64 → List F64
  | [], _ => []
  | x :: xs, [] => clip16 (x.add F64.zero) :: mixRun xs []
  | x :: xs, w :: ws => clip16 (x.add w) :: mixRun xs ws

/-- What MIX writes, from the longer track and the shorter one: the longer one's header and derived
quantities (44_mixer R243). -/
def mixContainer (longer shorter : Container) : Container :=
  { longer with buf := mixRun longer.buf shorter.buf }

/-- The pseudocode of `MIX K<d>, K<a>, K<b>` (44_mixer R240); on equal lengths `a` is the longer
(R242). The decoder has refused a destination that is a source (30_encoding R86); a term that has
one all the same is illegal here too (notes/assumptions/14.md). -/
def mixBody (d a b : SlotId) (s : State) : Except Raise State := do
  failIf (d == a || d == b) .illegalCommand DecodeError.mixAlias.detail
  let ca ← readSlot a s
  let cb ← readSlot b s
  failIf (ca.buf.isEmpty || cb.buf.isEmpty) .degenerateInput 0
  if cb.buf.length ≤ ca.buf.length then
    return s.setSlot d (some (mixContainer ca cb))
  else
    return s.setSlot d (some (mixContainer cb ca))

/-- `MIX K<d>, K<a>, K<b>` (44_mixer R240). -/
def execMix (d a b : SlotId) (s : State) : Result := runCommand (.mix d a b) s (mixBody d a b s)

end Sys2Proof.Machine
end

