-- ==== Sys2Proof/Machine/Spectral.lean ====
section
/-! DEFINITION. The spectral commands FFT, IFFT and RECON (41_spectral R145 to R147). -/

namespace Sys2Proof.Machine

/-- A sample as a complex value with imaginary part `+0.0`. -/
def realCplx (v : F64) : Cplx := ⟨v, F64.zero⟩

/-- The pseudocode of `FFT K<d>` (41_spectral R145). -/
def fftBody (d : SlotId) (s : State) : Except Raise State := do
  let c ← prologue d s
  return { s with spec := some (s.num.dft (c.buf.map realCplx)) }

/-- `FFT K<d>` (41_spectral R145). -/
def execFft (d : SlotId) (s : State) : Result := runCommand (.fft d) s (fftBody d s)

/-- The pseudocode of `IFFT` (41_spectral R146). -/
def ifftBody (s : State) : Except Raise State := do
  let x ← readCplx s.spec specDetail
  return { s with time := some (s.num.idft x) }

/-- `IFFT` (41_spectral R146). -/
def execIfft (s : State) : Result := runCommand .ifft s (ifftBody s)

/-- The reconstruction: the real parts of `t` over the entries of `x` present in both, then the tail
of the buffer or the extra real parts, whichever is longer (41_spectral R147). -/
def reconstruct (x : List F64) (t : List Cplx) : List F64 :=
  (t.take (min x.length t.length)).map Cplx.re ++ x.drop t.length
    ++ (t.drop x.length).map Cplx.re

/-- The pseudocode of `RECON K<d>` (41_spectral R147): both operands are checked before the length. -/
def reconBody (d : SlotId) (s : State) : Except Raise State := do
  let c ← readSlot d s
  let t ← readCplx s.time timeDetail
  failIf c.buf.isEmpty .degenerateInput 0
  epilogue d c (reconstruct c.buf t) s

/-- `RECON K<d>` (41_spectral R147). -/
def execRecon (d : SlotId) (s : State) : Result := runCommand (.recon d) s (reconBody d s)

end Sys2Proof.Machine
end

