-- ==== Sys2Proof/Machine/Dispatch.lean ====
section
/-! DEFINITION. One arm per command: the command's own rule, after the faulted check and the decode
checks that 30_encoding R80 puts before it (Sys2Proof/Machine/Port.lean makes those). -/

namespace Sys2Proof.Machine

/-- What a command does in a state that is not faulted. -/
def exec (i : Instr) (s : State) : Host.Outcome State Fault Refusal :=
  match i with
  | .decode d => Sys2Proof.Machine.execDecode d s
  | .encode d => Sys2Proof.Machine.execEncode d s
  | .bqlp d => Sys2Proof.Machine.execBqlp d s
  | .bqhp d => Sys2Proof.Machine.execBqhp d s
  | .firlp d => Sys2Proof.Machine.execFirlp d s
  | .ravg d => Sys2Proof.Machine.execRavg d s
  | .hpf2 d => Sys2Proof.Machine.execHpf2 d s
  | .norm d => Sys2Proof.Machine.execNorm d s
  | .comp d makeup => Sys2Proof.Machine.execComp d makeup s
  | .mix d a b => Sys2Proof.Machine.execMix d a b s
  | .fft d => Sys2Proof.Machine.execFft d s
  | .ifft => Sys2Proof.Machine.execIfft s
  | .recon d => Sys2Proof.Machine.execRecon d s

end Sys2Proof.Machine
end

