-- ==== Sys2Proof/Machine/Flags.lean ====
section
/-! DEFINITION. The block has no condition codes (10_state R45). What it shows of itself are the views
of 10_state R32 and R36 and the output level of 60_exceptions R269, all computed from the state. -/

namespace Sys2Proof.Machine

/-- `STATUS`: bit 0 `FAULTED`, bits 1 to 3 the slots' valid bits, bit 4 `SPECV`, bit 5 `TIMEV`, the
others 0 (10_state R32). -/
def State.status (s : State) : Word32 :=
  BitVec.ofNat 32
    (s.faulted.toNat + 2 * s.k0.isSome.toNat + 4 * s.k1.isSome.toNat + 8 * s.k2.isSome.toNat
      + 16 * s.spec.isSome.toNat + 32 * s.time.isSome.toNat)

/-- `LENk`: the length of a valid slot's buffer, else 0 (10_state R36). -/
def State.len (s : State) (k : SlotId) : Nat :=
  match s.slot k with
  | some c => c.buf.length
  | none => 0

/-- `SPECLEN` and `TIMELEN`: the length of a valid complex buffer, else 0 (10_state R36). -/
def cplxLen (v : Option (List Cplx)) : Nat :=
  match v with
  | some x => x.length
  | none => 0

/-- What a read of a status register returns (10_state R32 to R36). DESIGN CHOICE: a count of 2^64 or
more, which R36 does not say how to show in 64 bits, reads modulo 2^64 (notes/assumptions/23.md). -/
def State.statusReg (s : State) : StatusReg → Word64
  | .status => s.status.setWidth 64
  | .fault => s.fault.setWidth 64
  | .fcmd => s.fcmd.setWidth 64
  | .finfo => s.finfo
  | .len k => BitVec.ofNat 64 (s.len k)
  | .specLen => BitVec.ofNat 64 (cplxLen s.spec)
  | .timeLen => BitVec.ofNat 64 (cplxLen s.time)
  | .srcCnt => BitVec.ofNat 64 s.src.length
  | .snkCnt => BitVec.ofNat 64 s.snk.length

/-- The output level `fault_o` (60_exceptions R269). -/
def State.faultO (s : State) : Bool := s.faulted

end Sys2Proof.Machine
end

