-- ==== Sys2Proof/Machine/Port.lean ====
section
/-! DEFINITION. The host's side: issuing a command (30_encoding R80), the named actions (20_memory R66)
and the port map (20_memory R65). -/

namespace Sys2Proof.Machine

/-- Issuing the command word `cw`, in the order of 30_encoding R80: the faulted check, under which the
word is ignored whole (60_exceptions R257); the decode checks (30_encoding R86); the command. -/
def issue (cw : Word32) (s : State) : Result :=
  if s.faulted then .next s
  else
    match decode cw with
    | .error e => .next (s.raise cw ⟨.illegalCommand, e.detail⟩)
    | .ok i => exec i s

/-- `PushSrc(b)`: a byte at the tail of `SRC`. -/
def pushSrc (b : Byte) (s : State) : State := { s with src := s.src ++ [b] }

/-- `SetP(i, v)`. -/
def setP (i : Fin 8) (v : Word64) (s : State) : State := { s with p := s.p.set i v }

/-- A read that changes nothing: the value is returned to the host. -/
def answer (v : Word64) (s : State) : State := { s with reply := some v }

/-- `PopSnk`: the head byte of `SNK` is removed and returned; `0x00` when there is none
(20_memory R65). -/
def popSnk (s : State) : State :=
  match s.snk with
  | [] => answer 0 s
  | b :: rest => answer (b.setWidth 64) { s with snk := rest }

/-- The named host actions (20_memory R66). -/
def hostAct (a : HostAction) (s : State) : Result :=
  match a with
  | .issue cw => issue cw s
  | .pushSrc b => .next (pushSrc b s)
  | .setP i v => .next (setP i v s)
  | .getP i => .next (answer s.p[i] s)
  | .readStatus r => .next (answer (s.statusReg r) s)
  | .popSnk => .next (popSnk s)
  | .reset => .next s.hardReset

/-- The parameter register whose port is at an offset: `P[i]` at `0x80 + 8*i` (20_memory R65). -/
def paramAt (offset : Nat) : Option (Fin 8) :=
  if h : 0x80 ≤ offset ∧ offset < 0xC0 ∧ offset % 8 = 0 then
    some ⟨(offset - 0x80) / 8, by omega⟩
  else none

/-- What a write to the port at an offset does; a value wider than the port loses its high bits, and
a write to a read-only or reserved offset is ignored (20_memory R65, notes/assumptions/12.md). -/
def writeAction (offset : Nat) (v : Word64) : Option HostAction :=
  match offset with
  | 0x00 => some (.issue (v.setWidth 32))
  | 0x18 => some (.pushSrc (v.setWidth 8))
  | _ => (paramAt offset).map (fun i => .setP i v)

/-- What a read of the port at an offset does; a read of a write-only or reserved offset does nothing
and returns 0 (20_memory R65). -/
def readAction (offset : Nat) : Option HostAction :=
  match offset with
  | 0x04 => some (.readStatus .status)
  | 0x08 => some (.readStatus .fault)
  | 0x0C => some (.readStatus .fcmd)
  | 0x10 => some (.readStatus .finfo)
  | 0x1C => some .popSnk
  | 0x20 => some (.readStatus .srcCnt)
  | 0x28 => some (.readStatus .snkCnt)
  | 0x30 => some (.readStatus (.len .k0))
  | 0x38 => some (.readStatus (.len .k1))
  | 0x40 => some (.readStatus (.len .k2))
  | 0x48 => some (.readStatus .specLen)
  | 0x50 => some (.readStatus .timeLen)
  | _ => (paramAt offset).map .getP

/-- One move of the host. -/
def hostMove (m : HostMove) (s : State) : Result :=
  match m with
  | .act a => hostAct a s
  | .write offset v =>
    match writeAction offset v with
    | some a => hostAct a s
    | none => .next s
  | .read offset =>
    match readAction offset with
    | some a => hostAct a s
    | none => .next (answer 0 s)

/-- Taking the head move off the host's list; what the last move returned is gone. -/
def State.begin (s : State) (rest : List HostMove) : State := { s with host := rest, reply := none }

/-- One step: the host's next move, or nothing when there is none: an idle block is a block to which
no host action is applied (00_scope R16, 60_exceptions R273). -/
def stepBody (s : State) : Result :=
  match s.host with
  | [] => .next s
  | m :: rest => hostMove m (s.begin rest)

/-- The state whose next move is to issue a word. -/
def State.withIssue (s : State) (cw : Word32) : State :=
  { s with host := .act (.issue cw) :: s.host }

end Sys2Proof.Machine
end

