-- ==== Sys2Proof/Machine/Step.lean ====
section
/-! DEFINITION. The step, and the placing of a command word where the next step takes its command. -/

namespace Sys2Proof.Machine

/-- One step of the machine: one host action (00_scope R16). -/
def step (s : State) : Host.Outcome State Fault Refusal := stepBody s

/-- The state whose next step issues the command word whose `nbits` bits are `w`
(notes/assumptions/4.md). -/
def State.withFetchWord (s : State) (nbits w : Nat) : State := s.withIssue (tableWord nbits w)

end Sys2Proof.Machine
end

