-- ==== Sys2Proof/Safety.lean ====
section
/-! DEFINITION. What counts as a safe run, in the terms claims use: the invariant of the state, the
states a fault has not reached, and the properties of the numerics record that the machine does not
impose and a claim may assume (00_scope R13). -/

namespace Sys2Proof.Machine

/-! ### Faults -/

/-- A state no fault has reached since reset (10_state R32). -/
def State.Healthy (s : State) : Prop := s.faulted = false

/-! ### The invariant -/

/-- Every entry of a list is finite (10_state R25). -/
def AllFinite (x : List F64) : Prop := ∀ v ∈ x, v.isFinite = true

/-- What holds of a valid slot: a buffer of at most `NMAX` finite entries (10_state R24, R25), a
header DECODE accepts (40_container R113, R114), and the derived quantities that header gives, never
recomputed (10_state R22, R23). -/
def Container.Ok (nmax : Nat) (c : Container) : Prop :=
  c.buf.length ≤ nmax ∧ AllFinite c.buf ∧ c.hdr.bitsPerSample = Config.supportedBits
    ∧ c.hdr.byteRate ≠ 0 ∧ c.der = deriveQuantities c.hdr

/-- What holds of a valid complex buffer: 1 to `NMAX` entries (10_state R28, R29, 41_spectral R146). -/
def CplxOk (nmax : Nat) (v : List Cplx) : Prop := 1 ≤ v.length ∧ v.length ≤ nmax

/-- What holds of the status group: all zero before a fault (10_state R33 to R35); after one, a code of
60_exceptions R251, which is `ILLEGAL_COMMAND` exactly when the recorded word is not a command. -/
def State.FaultGroupOk (s : State) : Prop :=
  (s.faulted = false → s.fault = 0 ∧ s.fcmd = 0 ∧ s.finfo = 0) ∧
  (s.faulted = true →
    (∃ k : FaultKind, s.fault = BitVec.ofNat 32 k.code) ∧
    (s.fault = BitVec.ofNat 32 FaultKind.illegalCommand.code ↔ ∃ e, decode s.fcmd = .error e))

/-- The invariant of the block. -/
def State.Inv (s : State) : Prop :=
  (∀ k c, s.slot k = some c → c.Ok s.cfg.nmax) ∧
  (∀ v, s.spec = some v → CplxOk s.cfg.nmax v) ∧
  (∀ v, s.time = some v → CplxOk s.cfg.nmax v) ∧
  s.FaultGroupOk

end Sys2Proof.Machine

namespace Sys2Proof

/-! ### Properties of NUM that a claim may assume (00_scope R13) -/

/-- A finite value as a rational number; 0 for the others. -/
def F64.toRat (v : F64) : ℚ := v.units / F64.unitsPerOne

/-- The unit in the last place of a finite value. -/
def F64.ulp : F64 → ℚ
  | .nan => 0
  | .inf _ => 0
  | .fin _ ex _ => 2 ^ (ex.val - 1) / F64.unitsPerOne

/-- The greatest finite value, `(2^53 - 1) * 2^971`. -/
def F64.greatest : ℚ := (2 ^ 53 - 1) * 2 ^ 971

/-- NUM-FAITHFUL for one function and its ideal: at a finite operand where the ideal function is
defined and its value is in the range of the format, the result is finite and within one unit in the
last place of the ideal value. DESIGN CHOICE (notes/assumptions/8.md), where R13 does not say: the unit
is that of the result and not of the ideal value, which can differ next to a power of two; and "within
the binary64 range" bounds the magnitude from above only, so that an ideal value below the least
subnormal is in range and its result is held to one unit as well. -/
def Faithful (f : F64 → F64) (defined : ℝ → Prop) (ideal : ℝ → ℝ) : Prop :=
  ∀ v : F64, v.isFinite = true → defined (v.toRat : ℝ) →
    |ideal (v.toRat : ℝ)| ≤ (F64.greatest : ℝ) →
    (f v).isFinite = true ∧ |((f v).toRat : ℝ) - ideal (v.toRat : ℝ)| ≤ ((f v).ulp : ℝ)

/-- NUM-FAITHFUL (00_scope R13, ASSUMED there). -/
def Num.IsFaithful (num : Num) : Prop :=
  Faithful num.tan (fun x => Real.cos x ≠ 0) Real.tan ∧
  Faithful num.sin (fun _ => True) Real.sin ∧
  Faithful num.cos (fun _ => True) Real.cos ∧
  Faithful num.exp (fun _ => True) Real.exp ∧
  Faithful num.pow10 (fun _ => True) (fun x => (10 : ℝ) ^ x)

/-- The round-trip tolerance of 00_scope R13: `1e-8` absolute, or `1e-8` of the operand. -/
def Close (y x : F64) : Prop :=
  y.isFinite = true ∧
    (|y.toRat - x.toRat| ≤ 1 / 10 ^ 8 ∨ |y.toRat - x.toRat| ≤ 1 / 10 ^ 8 * |x.toRat|)

/-- NUM-DFT-ROUNDTRIP for one list of real values (00_scope R13): the inverse transform of the forward
transform gives back every entry within the tolerance. -/
def Num.RoundTrips (num : Num) (x : List F64) : Prop :=
  List.Forall₂ (fun y v => Close y.re v) (num.idft (num.dft (x.map Machine.realCplx))) x

/-- NUM-DFT-ROUNDTRIP (00_scope R13) for lists up to a length. -/
def Num.HasRoundTrip (num : Num) (nmax : Nat) : Prop :=
  ∀ x : List F64, 1 ≤ x.length → x.length ≤ nmax → Machine.AllFinite x → num.RoundTrips x

/-- `z` has two finite parts, and `w` is its value among the complex numbers: an infinity or a NaN has
none. -/
def Cplx.IsValue (z : Cplx) (w : ℂ) : Prop :=
  z.re.isFinite = true ∧ z.im.isFinite = true ∧ w = (((z.re.toRat : ℝ) : ℂ) + ((z.im.toRat : ℝ) : ℂ) * Complex.I)

/-- `X` is the ideal forward transform of `x` over length `n` (41_spectral R142). -/
def IsIdealForward (n : ℕ) (x X : ℕ → ℂ) : Prop :=
  ∀ k < n, X k = ∑ j ∈ Finset.range n,
    x j * Complex.exp (-(2 * Real.pi * Complex.I * (k * j : ℕ)) / n)

/-- `y` is the ideal inverse transform of `X` over length `n` (41_spectral R143). -/
def IsIdealInverse (n : ℕ) (X y : ℕ → ℂ) : Prop :=
  ∀ j < n, y j = (1 / (n : ℂ)) * ∑ k ∈ Finset.range n,
    X k * Complex.exp ((2 * Real.pi * Complex.I * (k * j : ℕ)) / n)

/-- Both parts of an ideal value are in the range of the format. -/
def InRange (w : ℂ) : Prop := |w.re| ≤ (F64.greatest : ℝ) ∧ |w.im| ≤ (F64.greatest : ℝ)

/-- `z` is finite and within `bound` of an ideal value. -/
def Cplx.Approximates (z : Cplx) (w : ℂ) (bound : ℝ) : Prop := ∃ v, z.IsValue v ∧ ‖v - w‖ ≤ bound

/-- NUM-DFT-IDEAL (00_scope R13, ASSUMED there) for a forward transform, with the error bound a claim
names: the spec gives none. DESIGN CHOICE (notes/assumptions/8.md), where the spec does not say: of a
list with an infinity or a NaN nothing is said; of a list of finite entries every bin whose ideal value
is in range is finite and within the bound, and of a bin out of range nothing is said. -/
def Num.ApproximatesForward (num : Num) (x : List Cplx) (bound : ℝ) : Prop :=
  ∀ ideal X : ℕ → ℂ, IsIdealForward x.length ideal X →
    (∀ j < x.length, (cplxAt x j).IsValue (ideal j)) →
    ∀ k < x.length, InRange (X k) → (cplxAt (num.dft x) k).Approximates (X k) bound

/-- NUM-DFT-IDEAL for an inverse transform, likewise. -/
def Num.ApproximatesInverse (num : Num) (x : List Cplx) (bound : ℝ) : Prop :=
  ∀ ideal y : ℕ → ℂ, IsIdealInverse x.length ideal y →
    (∀ j < x.length, (cplxAt x j).IsValue (ideal j)) →
    ∀ k < x.length, InRange (y k) → (cplxAt (num.idft x) k).Approximates (y k) bound

end Sys2Proof
end

