-- ==== Sys2Proof/Certificates/Slice0/Obligations.lean ====
section
/-! DEFINITION. The statements for the provers, from the numbered rules of spec/. Where a statement
speaks of a list a command builds, it gives its length and every entry by index, as the rule does. -/

namespace Sys2Proof.Claims

open Sys2Proof.Machine

/-! ### Words the statements share -/

/-- A command ends in a fault: the state before it with the four registers written (60_exceptions
R256, stated by `Obligations.FaultEntryWritesOnlyTheStatusGroup`). -/
def Raises (i : Instr) (s : State) (k : FaultKind) (info : Nat) : Prop :=
  exec i s = .next (s.raise (encode i) ⟨k, info⟩)

/-- The common end of a transform (42_filters R197): a result of finite entries replaces the buffer of
slot `d`, whose container was `c`, and nothing else; else the fault names the lowest index. -/
def EndsWith (i : Instr) (d : SlotId) (c : Container) (y : List F64) (s : State) : Prop :=
  (AllFinite y → exec i s = .next (s.setSlot d (some { c with buf := y }))) ∧
  (∀ n, (∃ v, y[n]? = some v ∧ v.isFinite = false) →
    (∀ m < n, ∀ v, y[m]? = some v → v.isFinite = true) → Raises i s .nonFinite n)

/-- The sum of the entries `f 0, ..., f (n-1)`, from `+0.0` in index order, one rounding a sum. -/
def sumTo (f : Nat → F64) : Nat → F64
  | 0 => F64.zero
  | n + 1 => (sumTo f n).add (f n)

/-- The transforms with a slot of their own and no second operand (42_filters R197). -/
def slotTransforms (d : SlotId) : List Instr :=
  [.bqlp d, .bqhp d, .firlp d, .ravg d, .hpf2 d, .norm d, .comp d false, .comp d true]

/-- The parameter registers a command reads (30_encoding R88). -/
def paramsRead : Instr → List (Fin 8)
  | .decode _ => []
  | .encode _ => []
  | .bqlp _ => [0]
  | .bqhp _ => [0]
  | .firlp _ => [0, 1]
  | .ravg _ => [0]
  | .hpf2 _ => []
  | .norm _ => [0]
  | .comp _ makeup => if makeup then [0, 1, 2, 3, 4, 5, 6] else [0, 1, 2, 3, 4, 5]
  | .mix _ _ _ => []
  | .fft _ => []
  | .ifft => []
  | .recon _ => []

/-- The table's match and mask of a command (30_encoding R84). -/
def tableRow : Instr → Word32 × Word32
  | .decode _ => (0x00000001, 0xFFFFFCFF)
  | .encode _ => (0x00000002, 0xFFFFFCFF)
  | .bqlp _ => (0x00000010, 0xFFFFFCFF)
  | .bqhp _ => (0x00010010, 0xFFFFFCFF)
  | .firlp _ => (0x00000011, 0xFFFFFCFF)
  | .ravg _ => (0x00000012, 0xFFFFFCFF)
  | .hpf2 _ => (0x00000013, 0xFFFFFCFF)
  | .norm _ => (0x00000020, 0xFFFFFCFF)
  | .comp _ _ => (0x00000021, 0xFFFEFCFF)
  | .mix _ _ _ => (0x00000030, 0xFFFFC0FF)
  | .fft _ => (0x00000040, 0xFFFFFCFF)
  | .ifft => (0x00000041, 0xFFFFFFFF)
  | .recon _ => (0x00000042, 0xFFFFFCFF)

/-- The opcodes that are not reserved (30_encoding R86 step 1). -/
def assignedOpcodes : List Nat :=
  [0x01, 0x02, 0x10, 0x11, 0x12, 0x13, 0x20, 0x21, 0x30, 0x40, 0x41, 0x42]

/-- The bits outside `OP` and the used fields of an assigned opcode (30_encoding R84). -/
def unusedBits (op : Nat) : Word32 :=
  if op = 0x10 ∨ op = 0x21 then 0xFFFEFC00
  else if op = 0x30 then 0xFFFFC000
  else if op = 0x41 then 0xFFFFFF00
  else 0xFFFFFC00

/-- Bits `hi:lo` of a word as a number (00_scope R8). -/
def bitsAt (cw : Word32) (lo len : Nat) : Nat := cw.toNat / 2 ^ lo % 2 ^ len

/-- Steps 1 to 4 of 30_encoding R86 fail at a word, as conditions on its bits. -/
def FailsStep1 (cw : Word32) : Prop := bitsAt cw 0 8 ∉ assignedOpcodes

@[inherit_doc FailsStep1]
def FailsStep2 (cw : Word32) : Prop := cw &&& unusedBits (bitsAt cw 0 8) ≠ 0

@[inherit_doc FailsStep1]
def FailsStep3 (cw : Word32) : Prop :=
  bitsAt cw 8 2 = 3 ∨ (bitsAt cw 0 8 = 0x30 ∧ (bitsAt cw 10 2 = 3 ∨ bitsAt cw 12 2 = 3))

@[inherit_doc FailsStep1]
def FailsStep4 (cw : Word32) : Prop :=
  bitsAt cw 0 8 = 0x30 ∧ (bitsAt cw 8 2 = bitsAt cw 10 2 ∨ bitsAt cw 8 2 = bitsAt cw 12 2)

/-- The unsigned number in two bytes of a list, the first the least significant (00_scope R8). -/
def num16 (b : List Byte) (i : Nat) : Nat := (b.getD i 0).toNat + 256 * (b.getD (i + 1) 0).toNat

/-- The unsigned number in four bytes of a list, the first the least significant. -/
def num32 (b : List Byte) (i : Nat) : Nat := num16 b i + 65536 * num16 b (i + 2)

/-- The signed 16-bit integer in two bytes of a list (40_container R111). -/
def frame16 (b : List Byte) (i : Nat) : Int :=
  if num16 b i < 32768 then (num16 b i : Int) else (num16 b i : Int) - 65536

/-- A container header at the head of `SRC` that DECODE accepts: 16 bits a sample and a byte rate that
is not zero (40_container R113, R114). -/
def HeaderAccepted (s : State) : Prop :=
  44 ≤ s.src.length ∧ num16 s.src 34 = 16 ∧ num32 s.src 28 ≠ 0

/-- The derived sample count of the header at the head of `SRC`: `dataSize div 2`. -/
def announced (s : State) : Nat := num32 s.src 40 / 2

/-- The sample rate of a container as a binary64 value (42_filters R197). -/
def rateOf (c : Container) : F64 := F64.ofNat c.hdr.sampleRate.toNat

/-- The taps of 42_filters R163. -/
def LowTaps (num : Num) (fc sr : F64) (t : Taps) : Prop :=
  ∃ c : F64, c = (F64.ofNat 1).div (num.tan ((num.pi.mul fc).div sr)) ∧
    t.a1 = (F64.ofNat 1).div (((F64.ofNat 1).add (num.sqrt2.mul c)).add (c.mul c)) ∧
    t.a2 = (F64.ofNat 2).mul t.a1 ∧ t.a3 = t.a1 ∧
    t.b1 = ((F64.ofNat 2).mul ((F64.ofNat 1).sub (c.mul c))).mul t.a1 ∧
    t.b2 = (((F64.ofNat 1).sub (num.sqrt2.mul c)).add (c.mul c)).mul t.a1

/-- The taps of 42_filters R164. -/
def HighTaps (num : Num) (fc sr : F64) (t : Taps) : Prop :=
  ∃ c : F64, c = num.tan ((num.pi.mul fc).div sr) ∧
    t.a1 = (F64.ofNat 1).div (((F64.ofNat 1).add (num.sqrt2.mul c)).add (c.mul c)) ∧
    t.a2 = (F64.ofInt (-2)).mul t.a1 ∧ t.a3 = t.a1 ∧
    t.b1 = ((F64.ofNat 2).mul ((c.mul c).sub (F64.ofNat 1))).mul t.a1 ∧
    t.b2 = (((F64.ofNat 1).sub (num.sqrt2.mul c)).add (c.mul c)).mul t.a1

/-- `y` is what the recurrence of 42_filters R162 makes of `x`. -/
def IsBiquad (t : Taps) (x y : List F64) : Prop :=
  y.length = x.length ∧
  (∀ n, n < 2 → y[n]? = x[n]?) ∧
  (∀ n, ∀ x0 x1 x2 y1 y2, x[n + 2]? = some x0 → x[n + 1]? = some x1 → x[n]? = some x2 →
    y[n + 1]? = some y1 → y[n]? = some y2 →
    y[n + 2]? = some (((((t.a1.mul x0).add (t.a2.mul x1)).add (t.a3.mul x2)).sub
      (t.b1.mul y1)).sub (t.b2.mul y2)))

/-- `t` are the taps of a biquad on the block of `s`: by the formulas of 42_filters R163 or R164, or of
the free function the block was built with (93 U1, notes/assumptions/17.md). -/
def IsBqCoeff (s : State) (mode : BqMode) (fc sr : F64) (t : Taps) : Prop :=
  (s.cfg.bq = .default → mode = .low → LowTaps s.cfg.num.record fc sr t) ∧
  (s.cfg.bq = .default → mode = .high → HighTaps s.cfg.num.record fc sr t) ∧
  (∀ n, s.cfg.bq = .free n → t = Config.freeBqCoeff n mode fc sr)

/-- Tap `i` of `m` before normalisation by 42_filters R171, for the cutoff fraction `fcut`. -/
def firTap (num : Num) (fcut : F64) (m i : Nat) : F64 :=
  let k : Int := (i : Int) - (m / 2 : Nat)
  let twoPi := (F64.ofNat 2).mul num.pi
  let s := if k = 0 then twoPi.mul fcut
    else (num.sin ((twoPi.mul fcut).mul (F64.ofInt k))).div (F64.ofInt k)
  s.mul ((F64.ofRat 54 100).sub
    ((F64.ofRat 46 100).mul (num.cos ((twoPi.mul (F64.ofNat i)).div (F64.ofNat m)))))

/-- `g` are the taps before normalisation on the block of `s`: by 42_filters R171, or of the free
kernel the block was built with (93 U2, notes/assumptions/17.md). -/
def IsFirKernel (s : State) (fcut : F64) (m : Nat) (g : Nat → F64) : Prop :=
  (s.cfg.fir = .default → ∀ i < m, g i = firTap s.cfg.num.record fcut m i) ∧
  (∀ n, s.cfg.fir = .free n → ∀ i < m, g i = Config.freeFirTap n fcut m i)

/-- `y` is the filtering of `x` with the `m` taps `g`, normalised (42_filters R172, R173). -/
def IsFir (g : Nat → F64) (m : Nat) (x y : List F64) : Prop :=
  ∃ h : Nat → F64, (∀ i < m, h i = (g i).div (sumTo g m)) ∧
    y.length = x.length - m ∧
    ∀ k, k + m < x.length →
      y[k]? = some (sumTo (fun i => (x.getD (k + m - i) F64.zero).mul (h i)) m)

/-- `y` is the rolling average of `x` with window `w` (42_filters R180). -/
def IsRollingAverage (w : Nat) (x y : List F64) : Prop :=
  y.length = x.length ∧
  (∀ i, i + 6 ≤ x.length →
    y[i]? = some ((sumTo (fun m => x.getD (i + 1 - min (i + 1) w + m) F64.zero) (min (i + 1) w)).div
      (F64.ofNat (min (i + 1) w)))) ∧
  (∀ i, x.length < i + 6 → y[i]? = x[i]?)

/-- `y` is the second difference of `x` (42_filters R190). -/
def IsSecondDifference (x y : List F64) : Prop :=
  y.length = x.length ∧
  (∀ n, n < 2 → n < x.length → y[n]? = some F64.zero) ∧
  (∀ n, ∀ x0 x1 x2, x[n + 2]? = some x0 → x[n + 1]? = some x1 → x[n]? = some x2 →
    y[n + 2]? = some ((x0.sub ((F64.ofNat 2).mul x1)).add x2))

/-- `lin(db)` (00_scope R15). -/
def linear (num : Num) (db : F64) : F64 := (F64.ofNat 32768).mul (num.pow10 (db.div (F64.ofNat 20)))

/-- Every entry is a zero of either sign. -/
def Silent (x : List F64) : Prop := ∀ v ∈ x, v.feq F64.zero = true

/-- `y` is `x` scaled so that its peak meets a target (43_dynamics R201): the peak is the magnitude of
an entry and no entry's magnitude is above it, and the quotient is formed once. -/
def IsNormalized (target : F64) (x y : List F64) : Prop :=
  ∃ peak, (∃ v ∈ x, peak = v.abs) ∧ (∀ v ∈ x, v.abs.gt peak = false) ∧
    y = x.map (fun v => v.mul (target.div peak))

/-- The lookahead mean at index `i` (43_dynamics R213): the samples from `i` on that exist, at most
`l` of them, summed in index order and divided by `l`. -/
def meanAhead (x : List F64) (l i : Nat) : F64 :=
  (sumTo (fun m => x.getD (i + m) F64.zero) (min l (x.length - i))).div (F64.ofNat l)

/-- The coefficient of a time in milliseconds (43_dynamics R212). -/
def coeffOf (num : Num) (ms sr : F64) : F64 :=
  if (ms.div (F64.ofNat 1000)).feq F64.zero then F64.zero
  else num.exp ((F64.ofInt (-1)).div (sr.mul (ms.div (F64.ofNat 1000))))

/-- The envelope after a new peak estimate (43_dynamics R214). -/
def nextEnv (env pk ca cr : F64) : F64 :=
  if pk.gt env then (((F64.ofNat 1).sub ca).mul pk).add (ca.mul env)
  else (((F64.ofNat 1).sub cr).mul pk).add (cr.mul env)

/-- `y` is the compression of `x` (43_dynamics R210 lines 9 to 14): there is an envelope, `+0.0`
before index 0, that each index updates from its lookahead mean. -/
def IsCompressed (thr knee ratio ca cr : F64) (l : Nat) (x y : List F64) : Prop :=
  ∃ env : Nat → F64, env 0 = F64.zero ∧
    (∀ i, env (i + 1) = nextEnv (env i) (meanAhead x l i) ca cr) ∧
    y.length = x.length ∧
    ∀ i : Nat, ∀ v : F64, x[i]? = some v → y[i]? = some (v.mul (kneeGain (env (i + 1)) thr knee ratio))

/-- `clip16(t)` (44_mixer R244). -/
def clipped (t : F64) : F64 :=
  if t.gt (F64.ofInt 32767) then F64.ofInt 32767
  else if t.lt (F64.ofInt (-32768)) then F64.ofInt (-32768) else t

/-- `y` is the mix of a longer track and a shorter one (44_mixer R240). -/
def IsMix (xl xs y : List F64) : Prop :=
  y.length = xl.length ∧
  ∀ i : Nat, ∀ v : F64, xl[i]? = some v → y[i]? = some (clipped (v.add (xs.getD i F64.zero)))

/-- `y` is the reconstruction of `x` from `t` (41_spectral R147). -/
def IsReconstruction (x : List F64) (t : List Cplx) (y : List F64) : Prop :=
  y.length = max x.length t.length ∧
  (∀ i : Nat, ∀ z : Cplx, t[i]? = some z → y[i]? = some z.re) ∧
  (∀ i : Nat, t.length ≤ i → y[i]? = x[i]?)

/-- Everything but the slots is as it was. -/
def SameButSlots (s t : State) : Prop :=
  t.spec = s.spec ∧ t.time = s.time ∧ t.p = s.p ∧ t.faulted = s.faulted ∧ t.fault = s.fault ∧
  t.fcmd = s.fcmd ∧ t.finfo = s.finfo ∧ t.src = s.src ∧ t.snk = s.snk ∧ t.cfg = s.cfg ∧
  t.host = s.host ∧ t.reply = s.reply

/-- The magnitude of a finite value in units of `2^-1074`. -/
def magnitude (v : F64) : Nat := v.units.natAbs

end Sys2Proof.Claims

open Sys2Proof Sys2Proof.Machine Sys2Proof.Claims

/-! ### Reset -/

/-- 10_state R48: the state after reset, and every register and view the host can read. -/
def Obligations.ResetStateHoldsTheStatedValues : Prop :=
  (∀ k, State.reset.slot k = none) ∧ State.reset.spec = none ∧ State.reset.time = none ∧
  (∀ i : Fin 8, State.reset.p[i] = 0) ∧ State.reset.faulted = false ∧ State.reset.status = 0 ∧
  State.reset.fault = 0 ∧ State.reset.fcmd = 0 ∧ State.reset.finfo = 0 ∧
  (∀ r, State.reset.statusReg r = 0) ∧ State.reset.src = [] ∧ State.reset.snk = []

/-- 70_reset R280, R281: the host action Reset, in any state, faulted or not, gives every piece of
state its reset value; only the configuration stays, and the host's own coming moves, which are the
model's field (notes/assumptions/2.md, 22.md). -/
def Obligations.ResetActionRestoresTheResetState : Prop :=
  ∀ s rest, s.host = .act .reset :: rest →
    step s = .next { State.reset with cfg := s.cfg, host := rest } ∧
    ∀ t, step s = .next t →
      (∀ k, t.slot k = none) ∧ t.spec = none ∧ t.time = none ∧ (∀ i : Fin 8, t.p[i] = 0) ∧
      t.status = 0 ∧ t.fault = 0 ∧ t.fcmd = 0 ∧ t.finfo = 0 ∧ t.src = [] ∧ t.snk = [] ∧
      t.faultO = false ∧ t.cfg = s.cfg

/-! ### Commands and words -/

/-- 30_encoding R80, 00_scope R16: a step whose move issues a word (by the named action or by a write
to the CMD port) that decodes to a command, in a state that is not faulted, is that command, run at
the state with the move taken off the host's list and no reply pending (the list and the reply are the
model's own: notes/assumptions/2.md, 3.md). That a value wider than the CMD port loses its high bits is
the model's choice (notes/assumptions/12.md). -/
def Obligations.StepRunsTheDecodedCommand : Prop :=
  ∀ s cw rest i, s.faulted = false → decode cw = .ok i →
    (s.host = .act (.issue cw) :: rest →
      step s = exec i { s with host := rest, reply := none }) ∧
    (∀ v : Word64, v.setWidth 32 = cw → s.host = .write 0x00 v :: rest →
      step s = exec i { s with host := rest, reply := none })

/-- 60_exceptions R258, 30_encoding R86: a step whose move issues a word that is not a command takes
ILLEGAL_COMMAND (code 7) with the detail of the first check that fails, and does nothing else to the
block (the host's list and the reply are the model's own: notes/assumptions/2.md, 3.md). -/
def Obligations.IllegalWordTakesIllegalCommand : Prop :=
  ∀ s cw rest e, s.faulted = false → decode cw = .error e →
    s.host = .act (.issue cw) :: rest →
    step s = .next { s with
      host := rest
      reply := none
      faulted := true
      fault := 7
      fcmd := cw
      finfo := BitVec.ofNat 64 e.detail }

/-- 30_encoding R86: the four checks in their order, each read off the bits of the word; a word that
fails none is a command. -/
def Obligations.DecodeChecksRunInOrder : Prop :=
  ∀ cw : Word32,
    (FailsStep1 cw → decode cw = .error .reservedOpcode) ∧
    (¬ FailsStep1 cw → FailsStep2 cw → decode cw = .error .reservedBit) ∧
    (¬ FailsStep1 cw → ¬ FailsStep2 cw → FailsStep3 cw → decode cw = .error .noSuchSlot) ∧
    (¬ FailsStep1 cw → ¬ FailsStep2 cw → ¬ FailsStep3 cw → FailsStep4 cw →
      decode cw = .error .mixAlias) ∧
    (¬ FailsStep1 cw → ¬ FailsStep2 cw → ¬ FailsStep3 cw → ¬ FailsStep4 cw →
      ∃ i, decode cw = .ok i) ∧
    DecodeError.reservedOpcode.detail = 0 ∧ DecodeError.reservedBit.detail = 1 ∧
    DecodeError.noSuchSlot.detail = 2 ∧ DecodeError.mixAlias.detail = 3 ∧
    (∀ s e, s.faulted = false → decode cw = .error e →
      issue cw s = .next (s.raise cw ⟨.illegalCommand, e.detail⟩))

/-- 30_encoding R84: a word that decodes to a command meets that command's match and mask; a word
that meets a row's match and mask passes the first two checks; no word meets two rows. -/
def Obligations.DecodedWordsMatchTheirTableRow : Prop :=
  (∀ cw i, decode cw = .ok i → cw &&& (tableRow i).2 = (tableRow i).1) ∧
  (∀ cw i, cw &&& (tableRow i).2 = (tableRow i).1 →
    decode cw ≠ .error .reservedOpcode ∧ decode cw ≠ .error .reservedBit ∧
    ∀ j, decode cw = .ok j → tableRow j = tableRow i) ∧
  (∀ cw i j, cw &&& (tableRow i).2 = (tableRow i).1 → cw &&& (tableRow j).2 = (tableRow j).1 →
    tableRow i = tableRow j)

/-- 30_encoding R82, R84: a word decodes to a command exactly when the command is well formed and the
word is its encoding, so every command has one word and decoding drops no bit. -/
def Obligations.DecodeAndEncodeAgree : Prop :=
  ∀ cw i, decode cw = .ok i ↔ (i.wf = true ∧ encode i = cw)

/-- 30_encoding R90: a command stored in a script as four little-endian bytes is read back, and the
bytes after it are what is left. -/
def Obligations.ScriptBytesReadBack : Prop :=
  ∀ i rest, i.wf = true →
    (∃ b0 b1 b2 b3 : Byte,
      wordBytes (encode i) = [b0, b1, b2, b3] ∧
      (encode i).toNat = b0.toNat + 256 * b1.toNat + 65536 * b2.toNat + 16777216 * b3.toNat) ∧
    decodeBytes (wordBytes (encode i) ++ rest) = .ok (i, rest)

/-- 95 section 2.1, 30_encoding R84: the reference words of every mnemonic, and one word for each
reason a word is refused. -/
def Obligations.ReferenceWordsDecode : Prop :=
  decode 0x00000101 = .ok (.decode .k1) ∧ decode 0x00000202 = .ok (.encode .k2) ∧
  decode 0x00000010 = .ok (.bqlp .k0) ∧ decode 0x00010110 = .ok (.bqhp .k1) ∧
  decode 0x00000211 = .ok (.firlp .k2) ∧ decode 0x00000012 = .ok (.ravg .k0) ∧
  decode 0x00000113 = .ok (.hpf2 .k1) ∧ decode 0x00000020 = .ok (.norm .k0) ∧
  decode 0x00000021 = .ok (.comp .k0 false) ∧ decode 0x00010221 = .ok (.comp .k2 true) ∧
  decode 0x00001230 = .ok (.mix .k2 .k0 .k1) ∧ decode 0x00002430 = .ok (.mix .k0 .k1 .k2) ∧
  decode 0x00000040 = .ok (.fft .k0) ∧ decode 0x00000041 = .ok .ifft ∧
  decode 0x00000042 = .ok (.recon .k0) ∧
  decode 0x00000000 = .error .reservedOpcode ∧ decode 0x00010013 = .error .reservedBit ∧
  decode 0x00003C30 = .error .noSuchSlot ∧ decode 0x00001130 = .error .mixAlias

/-! ### Faults -/

/-- 60_exceptions R256: a command that faults leaves the state before it, with FAULTED, FAULT, FCMD and
FINFO written, the word in FCMD, and `fault_o` at 1; one that does not fault leaves those four. The
codes are those of the table of R251, in its order. -/
def Obligations.FaultEntryWritesOnlyTheStatusGroup : Prop :=
  (∀ cw s t, s.faulted = false → issue cw s = .next t →
    (t.faulted = true → t.faultO = true ∧ ∃ k : FaultKind, ∃ info,
      t = { s with
        faulted := true
        fault := BitVec.ofNat 32 k.code
        fcmd := cw
        finfo := BitVec.ofNat 64 info }) ∧
    (t.faulted = false → t.fault = s.fault ∧ t.fcmd = s.fcmd ∧ t.finfo = s.finfo)) ∧
  [FaultKind.streamExhausted, .format, .paramDomain, .degenerateInput, .nonFinite, .encodeRange,
    .illegalCommand, .emptySlot, .capacity].map FaultKind.code = [1, 2, 3, 4, 5, 6, 7, 8, 9]

/-- 60_exceptions R257: in the faulted state a command word is accepted and has no effect whatever,
legal or not, and whatever the host does but Reset, the fault registers and every slot and buffer stay;
the other named actions work as always (what one returns stands in `reply`, the model's own field:
notes/assumptions/3.md). -/
def Obligations.FaultedStateIgnoresCommands : Prop :=
  ∀ s, s.faulted = true →
    (∀ cw, issue cw s = .next s) ∧
    (∀ a t, a ≠ .reset → hostAct a s = .next t →
      t.faulted = true ∧ t.fault = s.fault ∧ t.fcmd = s.fcmd ∧ t.finfo = s.finfo ∧
      (∀ k, t.slot k = s.slot k) ∧ t.spec = s.spec ∧ t.time = s.time) ∧
    (∀ b, hostAct (.pushSrc b) s = .next { s with src := s.src ++ [b] }) ∧
    (∀ i v, hostAct (.setP i v) s = .next { s with p := s.p.set i v }) ∧
    (∀ i : Fin 8, hostAct (.getP i) s = .next { s with reply := some s.p[i] }) ∧
    (∀ r, hostAct (.readStatus r) s = .next { s with reply := some (s.statusReg r) }) ∧
    (∀ b rest, s.snk = b :: rest →
      hostAct .popSnk s = .next { s with snk := rest, reply := some (b.setWidth 64) }) ∧
    (s.snk = [] → hostAct .popSnk s = .next { s with reply := some 0 })

/-- 60_exceptions R268: the only step that leaves the faulted state is Reset. -/
def Obligations.OnlyResetLeavesTheFaultedState : Prop :=
  ∀ s t, s.faulted = true → step s = .next t → t.faulted = false →
    ∃ rest, s.host = .act .reset :: rest

/-- 60_exceptions R259: a command that reads an empty slot, `SPEC` or `TIME` raises EMPTY_SLOT with the
operand's number, `K[KA]` before `K[KB]` and `K[KD]` before `TIME`. -/
def Obligations.EmptyOperandsRaiseEmptySlot : Prop :=
  (∀ d s, s.slot d = none →
    ∀ i ∈ [Instr.encode d, .fft d, .recon d] ++ slotTransforms d, Raises i s .emptySlot d.index) ∧
  (∀ d a b s, d ≠ a → d ≠ b → s.slot a = none → Raises (.mix d a b) s .emptySlot a.index) ∧
  (∀ d a b s, d ≠ a → d ≠ b → s.slot a ≠ none → s.slot b = none →
    Raises (.mix d a b) s .emptySlot b.index) ∧
  (∀ s, s.spec = none → Raises .ifft s .emptySlot 4) ∧
  (∀ d s, s.slot d ≠ none → s.time = none → Raises (.recon d) s .emptySlot 5) ∧
  SlotId.k0.index = 0 ∧ SlotId.k1.index = 1 ∧ SlotId.k2.index = 2

/-- 60_exceptions R259: a destination that is only written is never looked at: whatever stood there,
the command commits the same state. -/
def Obligations.DestinationsAreNeverChecked : Prop :=
  ∀ s t, t.faulted = false →
    (∀ d c, exec (.decode d) s = .next t → exec (.decode d) (s.setSlot d c) = .next t) ∧
    (∀ d a b c, d ≠ a → d ≠ b → exec (.mix d a b) s = .next t →
      exec (.mix d a b) (s.setSlot d c) = .next t) ∧
    (∀ d v, exec (.fft d) s = .next t → exec (.fft d) { s with spec := v } = .next t) ∧
    (∀ v, exec .ifft s = .next t → exec .ifft { s with time := v } = .next t)

/-- 60_exceptions R260, detail 0: a transform, FFT, RECON or MIX that reads an empty buffer raises
DEGENERATE_INPUT(0). -/
def Obligations.EmptyBuffersRaiseDegenerateInput : Prop :=
  (∀ d s c, s.slot d = some c → c.buf = [] →
    ∀ i ∈ .fft d :: slotTransforms d, Raises i s .degenerateInput 0) ∧
  (∀ d s c, s.slot d = some c → c.buf = [] → s.time ≠ none →
    Raises (.recon d) s .degenerateInput 0) ∧
  (∀ d a b s ca cb, d ≠ a → d ≠ b → s.slot a = some ca → s.slot b = some cb →
    (ca.buf = [] ∨ cb.buf = []) → Raises (.mix d a b) s .degenerateInput 0)

/-! ### DECODE and ENCODE -/

/-- 30_encoding R92, 20_memory R60, R61: the thirteen fields of a 44-byte header, numbers from the byte
of the lower offset up, tags in stream order. -/
def Obligations.HeaderFieldsStandAtTheirOffsets : Prop :=
  ∀ h : List Byte,
    let p := parseHeader h
    tagBytes p.containerTag = [h.getD 0 0, h.getD 1 0, h.getD 2 0, h.getD 3 0] ∧
    p.containerSize.toNat = num32 h 4 ∧
    tagBytes p.formatTag = [h.getD 8 0, h.getD 9 0, h.getD 10 0, h.getD 11 0] ∧
    tagBytes p.fmtTag = [h.getD 12 0, h.getD 13 0, h.getD 14 0, h.getD 15 0] ∧
    p.fmtSize.toNat = num32 h 16 ∧ p.formatCode.toNat = num16 h 20 ∧
    p.channels.toNat = num16 h 22 ∧ p.sampleRate.toNat = num32 h 24 ∧
    p.byteRate.toNat = num32 h 28 ∧ p.blockAlign.toNat = num16 h 32 ∧
    p.bitsPerSample.toNat = num16 h 34 ∧
    tagBytes p.dataTag = [h.getD 36 0, h.getD 37 0, h.getD 38 0, h.getD 39 0] ∧
    p.dataSize.toNat = num32 h 40

/-- 40_container R110, R111, R114, R115: a DECODE of an accepted header whose frames are all there and
fit commits: exactly `44 + 2*sampleCount` bytes leave `SRC`, the slot holds the parsed header, the
derived quantities and one exact entry per frame, and nothing else changes. -/
def Obligations.DecodeFillsTheSlot : Prop :=
  ∀ d s, HeaderAccepted s → announced s ≤ s.cfg.nmax → 44 + 2 * announced s ≤ s.src.length →
    ∃ c : Container,
      exec (.decode d) s =
        .next ({ s with src := s.src.drop (44 + 2 * announced s) }.setSlot d (some c)) ∧
      c.hdr = parseHeader (s.src.take 44) ∧
      c.der.sampleCount = announced s ∧
      c.der.frameSize = num16 s.src 22 * 16 / 8 ∧
      c.der.durationSeconds = (F64.ofNat (num32 s.src 40)).div (F64.ofNat (num32 s.src 28)) ∧
      c.buf.length = announced s ∧
      ∀ i < announced s, c.buf[i]? = some (F64.ofInt (frame16 s.src (44 + 2 * i)))

/-- 60_exceptions R267 (DECODE's own order), 40_container R110: STREAM_EXHAUSTED(0), FORMAT(34),
FORMAT(28), CAPACITY, STREAM_EXHAUSTED(1), the first that holds; nothing is consumed. -/
def Obligations.DecodeFaultsInOrder : Prop :=
  ∀ d s,
    (s.src.length < 44 → Raises (.decode d) s .streamExhausted 0) ∧
    (44 ≤ s.src.length → num16 s.src 34 ≠ 16 → Raises (.decode d) s .format 34) ∧
    (44 ≤ s.src.length → num16 s.src 34 = 16 → num32 s.src 28 = 0 →
      Raises (.decode d) s .format 28) ∧
    (HeaderAccepted s → s.cfg.nmax < announced s →
      Raises (.decode d) s .capacity (announced s)) ∧
    (HeaderAccepted s → announced s ≤ s.cfg.nmax → s.src.length < 44 + 2 * announced s →
      Raises (.decode d) s .streamExhausted 1)

/-- 40_container R120, R121, R122: an ENCODE of a slot whose amplitudes all have their integer part in
range appends to `SNK` the header with both sizes recomputed and one two's-complement little-endian
frame per entry, frees the slot, and changes nothing else. -/
def Obligations.EncodeWritesTheContainer : Prop :=
  ∀ d s c q, s.slot d = some c →
    List.Forall₂ (fun (v : F64) (n : Int) => v.trunc = some n ∧ -32768 ≤ n ∧ n ≤ 32767) c.buf q →
    ∃ bytes : List Byte,
      exec (.encode d) s = .next ({ s with snk := s.snk ++ bytes }.setSlot d none) ∧
      bytes.length = 44 + 2 * c.buf.length ∧
      parseHeader bytes = { c.hdr with
        containerSize := BitVec.ofNat 32 (36 + 2 * c.buf.length)
        dataSize := BitVec.ofNat 32 (2 * c.buf.length) } ∧
      ∀ i n, q[i]? = some n → frame16 bytes (44 + 2 * i) = n

/-- 60_exceptions R263, 40_container R122: an ENCODE with an amplitude whose integer part is out of
range raises ENCODE_RANGE with the lowest such index; `SNK` and the slot stay. -/
def Obligations.EncodeRangeNamesTheLowestIndex : Prop :=
  ∀ d s c n v q, s.slot d = some c → c.buf[n]? = some v → v.trunc = some q →
    (q < -32768 ∨ 32767 < q) →
    (∀ m < n, ∀ u, c.buf[m]? = some u → ∃ r, u.trunc = some r ∧ -32768 ≤ r ∧ r ≤ 32767) →
    Raises (.encode d) s .encodeRange n

/-- 40_container R121: a container with an even `dataSize` and `containerSize = 36 + dataSize` that is
decoded and encoded comes out byte for byte as it went in. -/
def Obligations.DecodeThenEncodeIsTheIdentity : Prop :=
  ∀ d s, HeaderAccepted s → announced s ≤ s.cfg.nmax → 44 + 2 * announced s ≤ s.src.length →
    num32 s.src 40 = 2 * announced s → num32 s.src 4 = 36 + 2 * announced s →
    ∃ t u, exec (.decode d) s = .next t ∧ exec (.encode d) t = .next u ∧
      u.snk = s.snk ++ s.src.take (44 + 2 * announced s) ∧
      u.src = s.src.drop (44 + 2 * announced s) ∧ u.slot d = none ∧ u.faulted = s.faulted

/-! ### FFT, IFFT, RECON -/

/-- 41_spectral R145: FFT of a slot with a buffer writes `SPEC` with the forward transform of the
samples as complex values, one bin per sample, and nothing else. -/
def Obligations.FftWritesTheSpectrum : Prop :=
  ∀ d s c, s.slot d = some c → c.buf ≠ [] →
    ∃ v, v = s.cfg.num.record.dft (c.buf.map (fun x => ⟨x, F64.zero⟩)) ∧
      exec (.fft d) s = .next { s with spec := some v } ∧
      v.length = c.buf.length ∧
      ∀ t, exec (.fft d) s = .next t →
        t.statusReg .specLen = BitVec.ofNat 64 c.buf.length ∧ (∀ k, t.slot k = s.slot k)

/-- 41_spectral R146: IFFT of a valid `SPEC` writes `TIME` with its inverse transform, as long as it,
and nothing else. -/
def Obligations.IfftWritesTheTimeBuffer : Prop :=
  ∀ s x, s.spec = some x →
    ∃ v, v = s.cfg.num.record.idft x ∧ exec .ifft s = .next { s with time := some v } ∧
      v.length = x.length ∧
      ∀ t, exec .ifft s = .next t →
        t.statusReg .timeLen = BitVec.ofNat 64 x.length ∧ t.spec = s.spec

/-- 41_spectral R147: RECON writes the real parts of `TIME` over the buffer where both have an entry,
keeps the buffer's tail or appends the extra real parts, and checks the result. -/
def Obligations.ReconOverwritesWithRealParts : Prop :=
  ∀ d s c t, s.slot d = some c → s.time = some t → c.buf ≠ [] →
    ∃ y, IsReconstruction c.buf t y ∧ EndsWith (.recon d) d c y s

/-- 41_spectral R148, R141: where the numerics record round-trips the buffer within its tolerance
(NUM-DFT-ROUNDTRIP, which a claim may assume), FFT, IFFT and RECON in this order run without a fault
and leave a buffer of the same length, every entry within the tolerance of its old value, in a slot
otherwise as it was. -/
def Obligations.SpectralRoundTripKeepsTheBuffer : Prop :=
  ∀ d s c, s.slot d = some c → c.buf ≠ [] → s.cfg.num.record.RoundTrips c.buf →
    ∃ t u w y, exec (.fft d) s = .next t ∧ exec .ifft t = .next u ∧ exec (.recon d) u = .next w ∧
      w.slot d = some { c with buf := y } ∧ y.length = c.buf.length ∧
      List.Forall₂ Close y c.buf ∧ w.faulted = s.faulted ∧ (∀ k, k ≠ d → w.slot k = s.slot k)

/-- 00_scope R13: the properties the machine imposes on every numerics record it can be built with. -/
def Obligations.NumericsRecordsHaveTheirProperties : Prop :=
  ∀ sel : NumSel,
    let num := sel.record
    num.pi = F64.ofBits 0x400921FB54442D18 ∧ num.sqrt2 = F64.ofBits 0x3FF6A09E667F3BCD ∧
    num.pow10 (F64.zeroOf false) = F64.ofNat 1 ∧ num.pow10 (F64.zeroOf true) = F64.ofNat 1 ∧
    num.pow10 (.inf true) = F64.zero ∧ num.exp (.inf true) = F64.zero ∧
    (∀ v : F64, v.le F64.zero = true →
      F64.zero.le (num.exp v) = true ∧ (num.exp v).le (F64.ofNat 1) = true) ∧
    (∀ f ∈ [num.tan, num.sin, num.cos, num.exp, num.pow10], f .nan = .nan) ∧
    (∀ f ∈ [num.tan, num.sin, num.cos], ∀ neg, f (.inf neg) = .nan) ∧
    num.exp (.inf false) = .inf false ∧ num.pow10 (.inf false) = .inf false ∧
    (∀ x, (num.dft x).length = x.length) ∧ (∀ x, (num.idft x).length = x.length)

/-! ### Filters -/

/-- 42_filters R160 to R164: BQLP and BQHP build the recurrence of R162 with the taps for `P[0]` and the
sample rate, the first two outputs equal to the first two inputs, and end as every transform does. The
taps are those of R163 and R164 on a block with the default `BQ_COEFF`, and free on any other: that the
block's function is chosen in the configuration is the model's own (notes/assumptions/17.md). -/
def Obligations.BiquadsRunTheRecurrence : Prop :=
  ∀ d s c, s.slot d = some c → c.buf ≠ [] →
    (∃ t y, IsBqCoeff s .low (F64.ofBits s.p[0]) (rateOf c) t ∧ IsBiquad t c.buf y ∧
      EndsWith (.bqlp d) d c y s) ∧
    (∃ t y, IsBqCoeff s .high (F64.ofBits s.p[0]) (rateOf c) t ∧ IsBiquad t c.buf y ∧
      EndsWith (.bqhp d) d c y s)

/-- 42_filters R165, R166, R182: on a buffer of one or two finite samples both biquads, and on one of at
most five RAVG with a window that is not 0, succeed and change nothing, whatever the cutoff and the
sample rate. -/
def Obligations.ShortBuffersPassThrough : Prop :=
  ∀ d s c, s.slot d = some c → c.buf ≠ [] → AllFinite c.buf →
    (c.buf.length ≤ 2 → exec (.bqlp d) s = .next s ∧ exec (.bqhp d) s = .next s) ∧
    (c.buf.length ≤ 5 → 0 < s.p[0].toNat → exec (.ravg d) s = .next s)

/-- 42_filters R170 to R173: FIRLP with a cutoff not above Nyquist and `0 < M < N` normalises its kernel
as R172 says, convolves it as R173 says, and ends as every transform does, with `N - M` samples. The
kernel is that of R171 on a block with the default `FIR_KERNEL`, and free on any other: that the block's
function is chosen in the configuration is the model's own (notes/assumptions/17.md). -/
def Obligations.FirlpConvolvesTheKernel : Prop :=
  ∀ d s c, s.slot d = some c →
    (F64.ofBits s.p[0]).gt ((rateOf c).div (F64.ofNat 2)) = false →
    0 < s.p[1].toNat → s.p[1].toNat < c.buf.length →
    ∃ g y, IsFirKernel s ((F64.ofBits s.p[0]).div (rateOf c)) s.p[1].toNat g ∧
      IsFir g s.p[1].toNat c.buf y ∧
      EndsWith (.firlp d) d c y s

/-- 42_filters R174, 60_exceptions R261: FIRLP checks the cutoff against half the sample rate first
(strictly above faults, whatever `M` is), then `M` against 0 and `N`. -/
def Obligations.FirlpChecksCutoffThenLength : Prop :=
  ∀ d s c, s.slot d = some c → c.buf ≠ [] →
    ((F64.ofBits s.p[0]).gt ((rateOf c).div (F64.ofNat 2)) = true →
      Raises (.firlp d) s .paramDomain 0) ∧
    ((F64.ofBits s.p[0]).gt ((rateOf c).div (F64.ofNat 2)) = false →
      (s.p[1].toNat = 0 ∨ c.buf.length ≤ s.p[1].toNat) → Raises (.firlp d) s .paramDomain 1)

/-- 42_filters R175: FIRLP with one tap that is finite and not a zero before normalisation, whichever
kernel the block was built with (notes/assumptions/17.md), succeeds on finite samples, and only drops
the first. -/
def Obligations.FirlpWithOneTapDropsASample : Prop :=
  ∀ d s c, ∀ g : Nat → F64, s.slot d = some c → 1 < c.buf.length → AllFinite c.buf →
    (F64.ofBits s.p[0]).gt ((rateOf c).div (F64.ofNat 2)) = false → s.p[1] = 1 →
    IsFirKernel s ((F64.ofBits s.p[0]).div (rateOf c)) 1 g →
    (g 0).isFinite = true → (g 0).feq F64.zero = false →
    ∃ y, exec (.firlp d) s = .next (s.setSlot d (some { c with buf := y })) ∧
      List.Forall₂ (fun v u => v.feq u = true) y (c.buf.drop 1)

/-- 42_filters R180, R181: RAVG with a window that is not 0 averages the last `min(i+1, W)` raw samples
at every index up to `N-6`, leaves the last five samples, and ends as every transform does; a window of
0 faults. -/
def Obligations.RavgAveragesRawSamples : Prop :=
  ∀ d s c, s.slot d = some c → c.buf ≠ [] →
    (s.p[0].toNat = 0 → Raises (.ravg d) s .paramDomain 0) ∧
    (0 < s.p[0].toNat →
      ∃ y, IsRollingAverage s.p[0].toNat c.buf y ∧ EndsWith (.ravg d) d c y s)

/-- 42_filters R190: HPF2 writes `+0.0` at the first two indices and the second difference of raw
samples at the others, and ends as every transform does. -/
def Obligations.Hpf2TakesSecondDifferences : Prop :=
  ∀ d s c, s.slot d = some c → c.buf ≠ [] →
    ∃ y, IsSecondDifference c.buf y ∧ EndsWith (.hpf2 d) d c y s

/-- 42_filters R191: HPF2 of integer samples of magnitude below `2^50` succeeds, and gives the exact
integer second differences. -/
def Obligations.Hpf2IsExactOnIntegers : Prop :=
  ∀ d s c, ∀ q : List Int, s.slot d = some c → q ≠ [] → (∀ n ∈ q, |n| < 2 ^ 50) →
    c.buf = q.map F64.ofInt →
    ∃ r : List Int,
      exec (.hpf2 d) s = .next (s.setSlot d (some { c with buf := r.map F64.ofInt })) ∧
      r.length = q.length ∧ (∀ i < 2, i < q.length → r[i]? = some 0) ∧
      ∀ i : Nat, ∀ q0 q1 q2 : Int, q[i + 2]? = some q0 → q[i + 1]? = some q1 → q[i]? = some q2 →
        r[i + 2]? = some (q0 - 2 * q1 + q2)

/-! ### Dynamics -/

/-- 43_dynamics R200, R201: NORM of a finite buffer that is not silent scales every sample by one
quotient of the target and the greatest magnitude, and ends as every transform does; a silent buffer
raises DEGENERATE_INPUT(1). -/
def Obligations.NormScalesToTheTarget : Prop :=
  ∀ d s c, s.slot d = some c → c.buf ≠ [] → AllFinite c.buf →
    (Silent c.buf → Raises (.norm d) s .degenerateInput 1) ∧
    (¬ Silent c.buf →
      ∃ y, IsNormalized (linear s.cfg.num.record (F64.ofBits s.p[0])) c.buf y ∧
        EndsWith (.norm d) d c y s)

/-- 43_dynamics R203: NORM of finite samples that are not silent to a target of minus infinity succeeds
and makes every sample a zero. -/
def Obligations.NormToMinusInfinitySilences : Prop :=
  ∀ d s c, s.slot d = some c → AllFinite c.buf → ¬ Silent c.buf →
    F64.ofBits s.p[0] = .inf true →
    ∃ y, exec (.norm d) s = .next (s.setSlot d (some { c with buf := y })) ∧
      y.length = c.buf.length ∧ Silent y

/-- 43_dynamics R210 to R217: COMP with a lookahead of at least one sample compresses the buffer as
R210 says. Without makeup the compressed list ends as every transform does. With makeup a compressed
list that is not finite faults; a silent one raises DEGENERATE_INPUT(1); any other is normalised to
`P[6]` and that list ends as every transform does. -/
def Obligations.CompFollowsTheEnvelope : Prop :=
  ∀ d s c (l : Nat), s.slot d = some c → c.buf ≠ [] →
    ((rateOf c).mul ((F64.ofBits s.p[4]).div (F64.ofNat 1000))).roundHalfAway = some (l : Int) →
    1 ≤ l →
    ∃ y, IsCompressed (linear s.cfg.num.record (F64.ofBits s.p[0]))
        (linear s.cfg.num.record (F64.ofBits s.p[5])) (F64.ofBits s.p[1])
        (coeffOf s.cfg.num.record (F64.ofBits s.p[2]) (rateOf c))
        (coeffOf s.cfg.num.record (F64.ofBits s.p[3]) (rateOf c)) l c.buf y ∧
      EndsWith (.comp d false) d c y s ∧
      (¬ AllFinite y → ∃ n, Raises (.comp d true) s .nonFinite n ∧ Raises (.comp d false) s .nonFinite n) ∧
      (AllFinite y → Silent y → Raises (.comp d true) s .degenerateInput 1) ∧
      (AllFinite y → ¬ Silent y →
        ∃ z, IsNormalized (linear s.cfg.num.record (F64.ofBits s.p[6])) y z ∧
          EndsWith (.comp d true) d c z s)

/-- 43_dynamics R213, 60_exceptions R261: COMP raises PARAM_DOMAIN(4) when the lookahead in samples is
not finite or rounds below 1. -/
def Obligations.CompRefusesShortLookahead : Prop :=
  ∀ d makeup s c, s.slot d = some c → c.buf ≠ [] →
    (((rateOf c).mul ((F64.ofBits s.p[4]).div (F64.ofNat 1000))).isFinite = false →
      Raises (.comp d makeup) s .paramDomain 4) ∧
    (∀ l : Int,
      ((rateOf c).mul ((F64.ofBits s.p[4]).div (F64.ofNat 1000))).roundHalfAway = some l →
      l < 1 → Raises (.comp d makeup) s .paramDomain 4)

/-- 43_dynamics R219 (d): COMP of a silent buffer, with a threshold above half the knee, a lookahead of
at least one sample and finite coefficients, succeeds and changes nothing; with makeup it raises
DEGENERATE_INPUT(1). -/
def Obligations.CompPassesSilence : Prop :=
  ∀ d s c (l : Nat), s.slot d = some c → c.buf ≠ [] → Silent c.buf →
    ((rateOf c).mul ((F64.ofBits s.p[4]).div (F64.ofNat 1000))).roundHalfAway = some (l : Int) →
    1 ≤ l →
    (linear s.cfg.num.record (F64.ofBits s.p[0])).gt
      ((linear s.cfg.num.record (F64.ofBits s.p[5])).div (F64.ofNat 2)) = true →
    (coeffOf s.cfg.num.record (F64.ofBits s.p[2]) (rateOf c)).isFinite = true →
    (coeffOf s.cfg.num.record (F64.ofBits s.p[3]) (rateOf c)).isFinite = true →
    exec (.comp d false) s = .next s ∧ Raises (.comp d true) s .degenerateInput 1

/-- 43_dynamics R215: the gain in each of the three regions, tested in their order, and a NaN when
`d` or the half-width is a NaN (one value stands for all: notes/assumptions/10.md); for a `d` and a
half-width of at least 0 that are no NaN exactly one of the three conditions holds. -/
def Obligations.KneeGainHasThreeRegions : Prop :=
  ∀ env thr knee ratio : F64,
    let d := env.sub thr
    let hk := knee.div (F64.ofNat 2)
    let first := d.lt (F64.zero.sub hk) = true
    let second := d.abs.le hk = true
    let third := d.gt hk = true
    (first → kneeGain env thr knee ratio = F64.ofNat 1) ∧
    (¬ first → second → kneeGain env thr knee ratio =
      (env.add (((((F64.ofNat 1).div ratio).sub (F64.ofNat 1)).mul ((d.add hk).mul (d.add hk))).div
        ((F64.ofNat 2).mul knee))).div env) ∧
    (¬ first → ¬ second → third →
      kneeGain env thr knee ratio = (thr.add (d.div ratio)).div env) ∧
    (d.isNaN = true ∨ hk.isNaN = true → kneeGain env thr knee ratio = .nan) ∧
    (d.isNaN = false → F64.zero.le hk = true →
      (first ∧ ¬ second ∧ ¬ third) ∨ (¬ first ∧ second ∧ ¬ third) ∨
        (¬ first ∧ ¬ second ∧ third))

/-! ### Mixer -/

/-- 44_mixer R240, R242, R243, R244: MIX of two valid slots with buffers into a third writes the
clipped sums, as long as the longer track (the first when they are equally long), with that track's
header and derived quantities, and nothing else. -/
def Obligations.MixSumsAndClips : Prop :=
  ∀ d a b s ca cb, d ≠ a → d ≠ b → s.slot a = some ca → s.slot b = some cb →
    ca.buf ≠ [] → cb.buf ≠ [] →
    ∃ c : Container, exec (.mix d a b) s = .next (s.setSlot d (some c)) ∧
      (cb.buf.length ≤ ca.buf.length →
        c.hdr = ca.hdr ∧ c.der = ca.der ∧ IsMix ca.buf cb.buf c.buf) ∧
      (ca.buf.length < cb.buf.length →
        c.hdr = cb.hdr ∧ c.der = cb.der ∧ IsMix cb.buf ca.buf c.buf) ∧
      c.buf.length = max ca.buf.length cb.buf.length

/-- 44_mixer R240, R244: the mix of two finite tracks is finite and within the signed 16-bit range;
sums above 32767 give exactly 32767 and sums below -32768 exactly -32768. -/
def Obligations.MixStaysInRange : Prop :=
  (∀ d a b s t ca cb, s.slot a = some ca → s.slot b = some cb → AllFinite ca.buf →
    AllFinite cb.buf → exec (.mix d a b) s = .next t → t.faulted = false → s.faulted = false →
    ∃ c, t.slot d = some c ∧ AllFinite c.buf ∧
      ∀ v ∈ c.buf, v.gt (F64.ofInt 32767) = false ∧ v.lt (F64.ofInt (-32768)) = false) ∧
  (∀ t : F64, (t.gt (F64.ofInt 32767) = true → clip16 t = F64.ofInt 32767) ∧
    (t.lt (F64.ofInt (-32768)) = true → clip16 t = F64.ofInt (-32768)) ∧
    (t.gt (F64.ofInt 32767) = false → t.lt (F64.ofInt (-32768)) = false → clip16 t = t))

/-! ### Frames -/

/-- 42_filters R197, 41_spectral R147 (frame): a transform or RECON that does not fault changes the
buffer of its slot and nothing else: not the slot's header or derived quantities, not another slot,
not `SPEC`, `TIME`, a parameter register, the status group, or a byte of `SRC` or `SNK`. -/
def Obligations.TransformsChangeOnlyTheirBuffer : Prop :=
  ∀ d s t, ∀ i ∈ Instr.recon d :: slotTransforms d, s.faulted = false → exec i s = .next t →
    t.faulted = false →
    SameButSlots s t ∧ (∀ k, k ≠ d → t.slot k = s.slot k) ∧
    ∃ c y, s.slot d = some c ∧ t.slot d = some { c with buf := y }

/-- 40_container R110, R120 (frame): a DECODE that does not fault takes exactly `44 + 2*sampleCount`
bytes off the head of `SRC` and fills its slot; an ENCODE that does not fault adds exactly `44 + 2*N`
bytes to the tail of `SNK` and empties its slot; every other byte of both streams, slot, buffer and
register stays. -/
def Obligations.ContainerCommandsChangeOnlySlotAndStream : Prop :=
  ∀ d s t, s.faulted = false → t.faulted = false →
    (exec (.decode d) s = .next t →
      44 + 2 * announced s ≤ s.src.length ∧ t.src = s.src.drop (44 + 2 * announced s) ∧
      t.snk = s.snk ∧
      t.spec = s.spec ∧ t.time = s.time ∧ t.p = s.p ∧ t.fault = s.fault ∧ t.fcmd = s.fcmd ∧
      t.finfo = s.finfo ∧ t.cfg = s.cfg ∧ t.host = s.host ∧ t.reply = s.reply ∧
      (∀ k, k ≠ d → t.slot k = s.slot k) ∧ t.slot d ≠ none) ∧
    (exec (.encode d) s = .next t →
      (∃ c, s.slot d = some c ∧ ∃ b : List Byte, b.length = 44 + 2 * c.buf.length ∧
        t.snk = s.snk ++ b) ∧
      t.src = s.src ∧
      t.spec = s.spec ∧ t.time = s.time ∧ t.p = s.p ∧ t.fault = s.fault ∧ t.fcmd = s.fcmd ∧
      t.finfo = s.finfo ∧ t.cfg = s.cfg ∧ t.host = s.host ∧ t.reply = s.reply ∧
      (∀ k, k ≠ d → t.slot k = s.slot k) ∧ t.slot d = none)

/-- 44_mixer R241, 41_spectral R145, R146 (frame): MIX changes its destination slot alone, FFT `SPEC`
alone, IFFT `TIME` alone. -/
def Obligations.MixFftIfftChangeOnlyTheirDestination : Prop :=
  ∀ s t, s.faulted = false → t.faulted = false →
    (∀ d a b, exec (.mix d a b) s = .next t →
      SameButSlots s t ∧ (∀ k, k ≠ d → t.slot k = s.slot k) ∧ t.slot d ≠ none) ∧
    (∀ d, exec (.fft d) s = .next t → t = { s with spec := t.spec } ∧ t.spec ≠ none) ∧
    (exec .ifft s = .next t → t = { s with time := t.time } ∧ t.time ≠ none)

/-! ### Rules of the whole machine -/

/-- 10_state R30, R47, 20_memory R66: no command writes a parameter register or the configuration, or
touches the host's list or the value it was returned. -/
def Obligations.NoCommandWritesParametersOrConfiguration : Prop :=
  ∀ i s t, exec i s = .next t →
    t.p = s.p ∧ t.cfg = s.cfg ∧ t.host = s.host ∧ t.reply = s.reply

/-- 10_state R30, 30_encoding R88: a command reads only the parameter registers its rule names: writing
any other one before it or after it is the same. -/
def Obligations.CommandsReadOnlyTheirParameters : Prop :=
  ∀ i s t, ∀ r : Fin 8, r ∉ paramsRead i → ∀ v : Word64,
    exec i s = .next t → exec i { s with p := s.p.set r v } = .next { t with p := t.p.set r v }

/-- 10_state R46: a transform keeps nothing from one command to the next: what it makes of a slot is
decided by that slot, the parameter registers and the configuration, whatever ran before. -/
def Obligations.TransformsAreStateless : Prop :=
  ∀ d s s' t t', ∀ i ∈ slotTransforms d, s.faulted = false → s'.faulted = false →
    s.slot d = s'.slot d → s.p = s'.p → s.cfg = s'.cfg →
    exec i s = .next t → exec i s' = .next t' →
    t.faulted = t'.faulted ∧ t.slot d = t'.slot d ∧
    (t.faulted = true → t.fault = t'.fault ∧ t.fcmd = t'.fcmd ∧ t.finfo = t'.finfo)

/-- 10_state R22, R23: in any step, a slot that is valid before and after and whose header or derived
quantities differ was the destination of a DECODE or a MIX that the step issued. -/
def Obligations.HeadersChangeOnlyByDecodeAndMix : Prop :=
  ∀ s t k c c', step s = .next t → s.slot k = some c → t.slot k = some c' →
    (c'.hdr ≠ c.hdr ∨ c'.der ≠ c.der) →
    ∃ cw rest, (s.host = .act (.issue cw) :: rest ∨
        ∃ v : Word64, s.host = .write 0x00 v :: rest ∧ v.setWidth 32 = cw) ∧
      (decode cw = .ok (.decode k) ∨ ∃ a b, decode cw = .ok (.mix k a b))

/-- 20_memory R66, 60_exceptions R271, 93 Part 1 (no stuck behaviour): every step of every state
answers a next state: that a fault of the block is a next state is the model's choice
(notes/assumptions/1.md), as is the step with no move to come (2.md). -/
def Obligations.EveryStepAnswersANextState : Prop := ∀ s, ∃ t, step s = .next t

/-- 10_state R22 to R25, R28, R29, R33 to R35: the invariant of the block (buffers finite and no longer
than NMAX, headers DECODE accepts with their derived quantities, complex buffers of 1 to NMAX entries,
the status group zero before a fault and a code of the table after one) is kept by every step. -/
def Obligations.EveryStepKeepsTheInvariant : Prop := ∀ s t, s.Inv → step s = .next t → t.Inv

/-- The reset state has the invariant (10_state R48). -/
def Obligations.ResetStateHasTheInvariant : Prop := State.reset.Inv

/-! ### The host's side -/

/-- 20_memory R66, R65: the host's actions that are no command. A popped byte leaves the head of `SNK`;
an empty `SNK` answers 0 and stays. The list, the reply and the step of an idle host are the model's
own (notes/assumptions/2.md, 3.md). -/
def Obligations.HostActionsDoWhatTheTableSays : Prop :=
  ∀ s rest,
    (∀ b, s.host = .act (.pushSrc b) :: rest →
      step s = .next { s with host := rest, reply := none, src := s.src ++ [b] }) ∧
    (∀ i v, s.host = .act (.setP i v) :: rest →
      step s = .next { s with host := rest, reply := none, p := s.p.set i v }) ∧
    (∀ i : Fin 8, s.host = .act (.getP i) :: rest →
      step s = .next { s with host := rest, reply := some s.p[i] }) ∧
    (∀ r, s.host = .act (.readStatus r) :: rest →
      step s = .next { s with host := rest, reply := some (s.statusReg r) }) ∧
    (∀ b tail, s.snk = b :: tail → s.host = .act .popSnk :: rest →
      step s = .next { s with host := rest, snk := tail, reply := some (b.setWidth 64) }) ∧
    (s.snk = [] → s.host = .act .popSnk :: rest →
      step s = .next { s with host := rest, reply := some 0 }) ∧
    (s.host = [] → step s = .next s)

/-- 20_memory R65: the port map. A write at `0x00` issues, at `0x18` pushes, at `0x80 + 8*i` sets `P[i]`,
and anywhere else is ignored; a read at a read-only port or at `0x80 + 8*i` answers its value, at
`0x1C` pops, and anywhere else answers 0. That an offset inside a port is no port and that a wide
value loses its high bits are the model's choice (notes/assumptions/12.md). -/
def Obligations.PortsReachTheNamedActions : Prop :=
  ∀ s : State,
    (∀ v, hostMove (.write 0x00 v) s = issue (v.setWidth 32) s) ∧
    (∀ v, hostMove (.write 0x18 v) s = hostAct (.pushSrc (v.setWidth 8)) s) ∧
    (∀ i : Fin 8, ∀ v, hostMove (.write (0x80 + 8 * i.val) v) s = hostAct (.setP i v) s) ∧
    (∀ offset v, offset ≠ 0x00 → offset ≠ 0x18 → (∀ i : Fin 8, offset ≠ 0x80 + 8 * i.val) →
      hostMove (.write offset v) s = .next s) ∧
    (∀ e ∈ [(0x04, StatusReg.status), (0x08, .fault), (0x0C, .fcmd), (0x10, .finfo),
        (0x20, .srcCnt), (0x28, .snkCnt), (0x30, .len .k0), (0x38, .len .k1), (0x40, .len .k2),
        (0x48, .specLen), (0x50, .timeLen)],
      hostMove (.read e.1) s = hostAct (.readStatus e.2) s) ∧
    hostMove (.read 0x1C) s = hostAct .popSnk s ∧
    (∀ i : Fin 8, hostMove (.read (0x80 + 8 * i.val)) s = hostAct (.getP i) s) ∧
    (∀ offset, offset ∉ [0x04, 0x08, 0x0C, 0x10, 0x1C, 0x20, 0x28, 0x30, 0x38, 0x40, 0x48, 0x50] →
      (∀ i : Fin 8, offset ≠ 0x80 + 8 * i.val) →
      hostMove (.read offset) s = .next { s with reply := some 0 })

/-- 10_state R32 to R36, 20_memory R66: the bits of STATUS, the reserved ones 0, the fault registers
as the host reads them, and the length views, 0 where the thing is not valid. That a length of 2^64 or
more reads modulo 2^64 is the model's choice (notes/assumptions/23.md). -/
def Obligations.StatusAndLengthsAreViews : Prop :=
  ∀ s : State,
    s.status.getLsbD 0 = s.faulted ∧ s.status.getLsbD 1 = s.k0.isSome ∧
    s.status.getLsbD 2 = s.k1.isSome ∧ s.status.getLsbD 3 = s.k2.isSome ∧
    s.status.getLsbD 4 = s.spec.isSome ∧ s.status.getLsbD 5 = s.time.isSome ∧
    (∀ i, 6 ≤ i → s.status.getLsbD i = false) ∧
    s.statusReg .status = s.status.setWidth 64 ∧ s.statusReg .fault = s.fault.setWidth 64 ∧
    s.statusReg .fcmd = s.fcmd.setWidth 64 ∧ s.statusReg .finfo = s.finfo ∧
    (∀ k c, s.slot k = some c → s.statusReg (.len k) = BitVec.ofNat 64 c.buf.length) ∧
    (∀ k, s.slot k = none → s.statusReg (.len k) = 0) ∧
    (∀ x, s.spec = some x → s.statusReg .specLen = BitVec.ofNat 64 x.length) ∧
    (s.spec = none → s.statusReg .specLen = 0) ∧
    (∀ x, s.time = some x → s.statusReg .timeLen = BitVec.ofNat 64 x.length) ∧
    (s.time = none → s.statusReg .timeLen = 0) ∧
    s.statusReg .srcCnt = BitVec.ofNat 64 s.src.length ∧
    s.statusReg .snkCnt = BitVec.ofNat 64 s.snk.length

/-! ### Binary64 -/

/-- 00_scope R11: rounding is to nearest, ties to even. Below half a spacing above the greatest finite
value the result is finite, with the sign it is given, and no finite value is nearer to the exact
quotient of units; a value of another magnitude that is as near means the result's significand is even.
From there on the result is an infinity of that sign, which comes from the standard the rule names
(PRESUMED, notes/assumptions/11.md). -/
def Obligations.RoundingIsToNearestEven : Prop :=
  ∀ neg num den, 0 < den →
    (num < (2 ^ 54 - 1) * 2 ^ 2044 * den →
      ∃ ex frac, F64.roundUnits neg num den = .fin neg ex frac ∧
      ∀ v : F64, v.isFinite = true →
        |(magnitude (.fin neg ex frac) * den : Int) - num| ≤ |(magnitude v * den : Int) - num| ∧
        (|(magnitude (.fin neg ex frac) * den : Int) - num| = |(magnitude v * den : Int) - num| →
          magnitude v ≠ magnitude (.fin neg ex frac) → frac.toNat % 2 = 0)) ∧
    ((2 ^ 54 - 1) * 2 ^ 2044 * den ≤ num → F64.roundUnits neg num den = .inf neg)

/-- 00_scope R11: a sum, a difference, a product and a quotient of finite values is its exact value
rounded once (a quotient by a value that is not a zero), in units of `2^-1074`, of which
`F64.unitsPerOne` make 1. -/
def Obligations.ArithmeticRoundsTheExactResult : Prop :=
  ∀ a b : F64, a.isFinite = true → b.isFinite = true →
    (a.units + b.units ≠ 0 →
      a.add b = F64.roundUnits (decide (a.units + b.units < 0)) (a.units + b.units).natAbs 1) ∧
    (a.units - b.units ≠ 0 →
      a.sub b = F64.roundUnits (decide (a.units - b.units < 0)) (a.units - b.units).natAbs 1) ∧
    (a.units * b.units ≠ 0 →
      a.mul b = F64.roundUnits (decide (a.units * b.units < 0)) (a.units * b.units).natAbs
        F64.unitsPerOne) ∧
    (a.units * b.units ≠ 0 →
      a.div b = F64.roundUnits (decide (a.units * b.units < 0)) (a.units.natAbs * F64.unitsPerOne)
        b.units.natAbs)

/-- 00_scope R11: `float(n)` is exact for magnitudes up to `2^53`. -/
def Obligations.SmallIntegersAreExact : Prop :=
  ∀ n : Int, |n| ≤ 2 ^ 53 →
    (F64.ofInt n).isFinite = true ∧ (F64.ofInt n).units = n * F64.unitsPerOne ∧
    (F64.ofInt n).trunc = some n ∧ (F64.ofInt n).roundHalfAway = some n

/-- 40_container R122, 43_dynamics R213: `trunc` of a finite value is its integer part toward zero, and
`round_half_away` the nearest integer with ties away from zero. -/
def Obligations.TruncAndRoundOfFiniteValues : Prop :=
  ∀ v : F64, v.isFinite = true →
    (∃ q, v.trunc = some q ∧ |q| * F64.unitsPerOne ≤ |v.units| ∧
      |v.units| < (|q| + 1) * F64.unitsPerOne ∧ 0 ≤ q * v.units) ∧
    (∃ q, v.roundHalfAway = some q ∧ 2 * |q| * F64.unitsPerOne ≤ 2 * |v.units| + F64.unitsPerOne ∧
      2 * |v.units| + F64.unitsPerOne < 2 * (|q| + 1) * F64.unitsPerOne ∧ 0 ≤ q * v.units)

/-- 00_scope R11, 10_state R31: a 64-bit pattern read as binary64: bit 63 the sign, bits 62:52 the
exponent and bits 51:0 the fraction; exponent 2047 is an infinity or a NaN; a subnormal counts its
fraction in units of `2^-1074`, and a normal value has a leading 1. The comparisons are those of the
values, an infinity beyond every finite value, and each is false with a NaN. -/
def Obligations.BitPatternsReadAndCompareAsBinary64 : Prop :=
  (∀ neg : Bool, ∀ ex frac : Nat, ∀ w : Word64, frac < 2 ^ 52 →
    w.toNat = neg.toNat * 2 ^ 63 + ex * 2 ^ 52 + frac →
    (∀ h : ex < 2047, F64.ofBits w = .fin neg ⟨ex, h⟩ (BitVec.ofNat 52 frac) ∧
      (F64.ofBits w).units = (if neg then -1 else 1) *
        (if ex = 0 then (frac : Int) else (2 ^ 52 + frac) * 2 ^ (ex - 1))) ∧
    (ex = 2047 → frac = 0 → F64.ofBits w = .inf neg) ∧
    (ex = 2047 → frac ≠ 0 → F64.ofBits w = .nan)) ∧
  F64.unitsPerOne = 2 ^ 1074 ∧
  (∀ a b : F64, a.isFinite = true → b.isFinite = true →
    (a.lt b = true ↔ a.units < b.units) ∧ (a.feq b = true ↔ a.units = b.units) ∧
    (a.le b = true ↔ a.units ≤ b.units) ∧ (a.gt b = true ↔ b.units < a.units)) ∧
  (∀ a : F64, a.isNaN = false →
    (F64.lt (.inf true) a = true ↔ a ≠ .inf true) ∧ F64.le (.inf true) a = true ∧
    (a.lt (.inf false) = true ↔ a ≠ .inf false) ∧ a.le (.inf false) = true ∧
    a.lt (.inf true) = false ∧ F64.lt (.inf false) a = false ∧
    (∀ neg, (F64.feq (.inf neg) a = true ↔ a = .inf neg) ∧
      (a.feq (.inf neg) = true ↔ a = .inf neg))) ∧
  (∀ a b : F64, a.gt b = b.lt a ∧ a.le b = (a.lt b || a.feq b)) ∧
  (∀ a b : F64, a.isNaN = true ∨ b.isNaN = true →
    a.lt b = false ∧ a.feq b = false ∧ a.le b = false ∧ a.gt b = false)
end

