-- ==== Sys2Proof/Laws/Float.lean ====
section
/-! SUPPORT. What rounding does: it is exact on representable values, never a NaN, and never further
than half the spacing from the exact value; and what follows for integers and for sums. -/

namespace Sys2Proof

/-! ### The integer rounding -/

/-- A whole quotient rounds to itself. -/
theorem nearestEven_mul {n den : Nat} (h : 0 < den) : nearestEven (n * den) den = n := by
  simp [nearestEven, Nat.mul_div_cancel _ h, h]

/-- The rounded quotient is within half of the divisor of the exact one. -/
theorem nearestEven_near {num den : Nat} (h : 0 < den) :
    2 * num ≤ 2 * (nearestEven num den * den) + den ∧
      2 * (nearestEven num den * den) ≤ 2 * num + den := by
  have hq := Nat.div_add_mod num den
  have hr := Nat.mod_lt num h
  rw [Nat.mul_comm] at hq
  simp only [nearestEven]
  set q := num / den
  set r := num % den
  have h1 : (q + 1) * den = q * den + den := by ring
  have h2 : (q + q % 2) * den = q * den + q % 2 * den := by ring
  have h3 : q % 2 * den = 0 ∨ q % 2 * den = den := by
    rcases Nat.mod_two_eq_zero_or_one q with h0 | h0 <;> simp [h0]
  split_ifs
  · omega
  · rw [h1]; omega
  · rw [h2]; omega

/-- A tie goes to the even neighbour. -/
theorem nearestEven_tie {num den : Nat} (h : 0 < den)
    (ht : 2 * num = 2 * (nearestEven num den * den) + den ∨
      2 * (nearestEven num den * den) = 2 * num + den) :
    nearestEven num den % 2 = 0 := by
  have hq := Nat.div_add_mod num den
  have hr := Nat.mod_lt num h
  rw [Nat.mul_comm] at hq
  simp only [nearestEven] at ht ⊢
  set q := num / den
  set r := num % den
  have h1 : (q + 1) * den = q * den + den := by ring
  have h2 : (q + q % 2) * den = q * den + q % 2 * den := by ring
  split_ifs at ht ⊢
  · omega
  · rw [h1] at ht; omega
  · omega

/-- Rounding lies between the floor and the next integer. -/
theorem nearestEven_bounds (num den : Nat) :
    num / den ≤ nearestEven num den ∧ nearestEven num den ≤ num / den + 1 := by
  simp only [nearestEven]
  split_ifs <;> omega

/-! ### Packing -/

/-- Packing makes a finite value or an infinity of the sign it is given. -/
theorem F64.pack_cases (neg : Bool) (n e : Nat) :
    F64.pack neg n e = .inf neg ∨ ∃ ex frac, F64.pack neg n e = .fin neg ex frac := by
  simp only [F64.pack]
  split_ifs <;> simp

/-- A packed finite value has the magnitude it was packed from. -/
theorem F64.magUnits_pack {neg s : Bool} {n e : Nat} {ex : Fin 2047} {frac : BitVec 52}
    (hn : n ≤ 2 ^ 53) (he : 2 ^ 52 ≤ n ∨ e = 0) (h : F64.pack neg n e = .fin s ex frac) :
    s = neg ∧ F64.magUnits ex frac = n * 2 ^ e := by
  simp only [F64.pack] at h
  split_ifs at h with h1 h2 h3 h3
  · cases h
    have he0 : e = 0 := by omega
    subst he0
    refine ⟨rfl, ?_⟩
    simp only [F64.magUnits, F64.significand, BitVec.toNat_ofNat, Nat.mod_eq_of_lt h1]
    rfl
  · cases h
    refine ⟨rfl, ?_⟩
    have hlt : n - 2 ^ 52 < 2 ^ 52 := by omega
    have h0 : ¬ e + 1 = 0 := by omega
    simp only [F64.magUnits, F64.significand, BitVec.toNat_ofNat, Nat.mod_eq_of_lt hlt]
    rw [if_neg h0, show e + 1 - 1 = e by omega, show 2 ^ 52 + (n - 2 ^ 52) = n by omega]
  · cases h
    refine ⟨rfl, ?_⟩
    have hn' : n = 2 ^ 53 := by omega
    subst hn'
    simp only [F64.magUnits, F64.significand]
    rw [if_neg (by omega), show (2 : Nat) ^ 53 / 2 - 2 ^ 52 = 0 by norm_num,
      show e + 2 - 1 = e + 1 by omega, pow_succ]
    simp only [BitVec.toNat_ofNat, Nat.zero_mod]
    ring

/-! ### Rounding -/

/-- Rounding makes a finite value or an infinity of the sign it is given. -/
theorem F64.roundUnits_cases (neg : Bool) (num den : Nat) :
    F64.roundUnits neg num den = .inf neg ∨
      ∃ ex frac, F64.roundUnits neg num den = .fin neg ex frac :=
  F64.pack_cases _ _ _

/-- The result of rounding is never a NaN. -/
@[simp] theorem F64.isNaN_roundUnits (neg : Bool) (num den : Nat) :
    (F64.roundUnits neg num den).isNaN = false := by
  rcases F64.roundUnits_cases neg num den with h | ⟨ex, frac, h⟩ <;> rw [h] <;> rfl

/-- The spacing of the format at a quotient of units: the floor of the quotient has at most 53 bits
above it, and exactly 53 when the spacing is not the least. -/
theorem F64.spacing_bounds {q e : Nat} (he : e = q.log2 - 52) :
    q < 2 ^ 53 * 2 ^ e ∧ (2 ^ 52 * 2 ^ e ≤ q ∨ e = 0) := by
  rcases Nat.eq_zero_or_pos q with rfl | hq
  · simp [he]
  · have hlo := Nat.log2_self_le (Nat.pos_iff_ne_zero.mp hq)
    have hhi : q < 2 ^ (q.log2 + 1) := Nat.lt_log2_self
    rw [← pow_add, ← pow_add]
    constructor
    · exact lt_of_lt_of_le hhi (Nat.pow_le_pow_right (by norm_num) (by omega))
    · rcases Nat.eq_zero_or_pos e with h0 | h0
      · exact .inr h0
      · left
        have : 52 + e = q.log2 := by omega
        rw [this]
        exact hlo

/-- The significand rounding gives has at most 53 bits, and at least 53 when the spacing is not the
least. -/
theorem F64.rounded_bounds {num den e : Nat} (he : e = (num / den).log2 - 52) :
    nearestEven num (den * 2 ^ e) ≤ 2 ^ 53 ∧
      (2 ^ 52 ≤ nearestEven num (den * 2 ^ e) ∨ e = 0) := by
  obtain ⟨h1, h2⟩ := F64.spacing_bounds he
  have hb := nearestEven_bounds num (den * 2 ^ e)
  have hdiv : num / (den * 2 ^ e) = num / den / 2 ^ e := (Nat.div_div_eq_div_mul _ _ _).symm
  have hpos : 0 < 2 ^ e := by positivity
  have hlt : num / den / 2 ^ e < 2 ^ 53 := Nat.div_lt_of_lt_mul (by rw [Nat.mul_comm]; exact h1)
  refine ⟨by omega, ?_⟩
  rcases h2 with h2 | h2
  · left
    have : 2 ^ 52 ≤ num / den / 2 ^ e := (Nat.le_div_iff_mul_le hpos).mpr h2
    omega
  · exact .inr h2

/-- A finite rounded value is the nearest multiple of the spacing. -/
theorem F64.magUnits_roundUnits {neg s : Bool} {num den : Nat} {ex : Fin 2047} {frac : BitVec 52}
    (h : F64.roundUnits neg num den = .fin s ex frac) :
    s = neg ∧ F64.magUnits ex frac =
      nearestEven num (den * 2 ^ ((num / den).log2 - 52)) * 2 ^ ((num / den).log2 - 52) := by
  obtain ⟨h1, h2⟩ := F64.rounded_bounds (num := num) (den := den) rfl
  exact F64.magUnits_pack h1 h2 h

/-! ### Integers -/

theorem F64.unitsPerOne_eq : F64.unitsPerOne = 2 ^ 1074 := by unfold F64.unitsPerOne; rfl

theorem F64.unitsPerOne_pos : 0 < F64.unitsPerOne := by rw [F64.unitsPerOne_eq]; positivity

/-- Magnitudes below `2^53` are exact. -/
theorem F64.roundUnits_exact (neg : Bool) {v : Nat} (hv : v < 2 ^ 53) :
    ∃ ex frac, F64.roundUnits neg (v * F64.unitsPerOne) 1 = .fin neg ex frac ∧
      F64.magUnits ex frac = v * F64.unitsPerOne := by
  rcases Nat.eq_zero_or_pos v with rfl | hpos
  · refine ⟨0, 0, ?_, ?_⟩ <;> simp [F64.roundUnits, nearestEven, F64.pack, F64.magUnits, F64.significand]
  set l := v.log2 with hl
  have hlo : 2 ^ l ≤ v := Nat.log2_self_le (Nat.pos_iff_ne_zero.mp hpos)
  have hhi : v < 2 ^ (l + 1) := Nat.lt_log2_self
  have hl53 : l < 53 := (Nat.log2_lt (Nat.pos_iff_ne_zero.mp hpos)).mpr hv
  have hlog : (v * F64.unitsPerOne).log2 = l + 1074 := by
    apply (Nat.log2_eq_iff (by
      have := Nat.mul_pos hpos F64.unitsPerOne_pos
      omega)).mpr
    rw [F64.unitsPerOne_eq]
    constructor
    · rw [pow_add]
      exact Nat.mul_le_mul_right _ hlo
    · rw [show l + 1074 + 1 = (l + 1) + 1074 by omega, pow_add]
      exact Nat.mul_lt_mul_of_pos_right hhi (by positivity)
  have he : (v * F64.unitsPerOne / 1).log2 - 52 = l + 1022 := by rw [Nat.div_one, hlog]; omega
  have hsplit : v * F64.unitsPerOne = v * 2 ^ (52 - l) * (1 * 2 ^ (l + 1022)) := by
    rw [Nat.one_mul, Nat.mul_assoc, ← pow_add, show 52 - l + (l + 1022) = 1074 by omega,
      F64.unitsPerOne_eq]
  have hn : nearestEven (v * F64.unitsPerOne) (1 * 2 ^ (l + 1022)) = v * 2 ^ (52 - l) := by
    rw [hsplit]
    exact nearestEven_mul (by positivity)
  have hn52 : 2 ^ 52 ≤ v * 2 ^ (52 - l) := by
    calc 2 ^ 52 = 2 ^ l * 2 ^ (52 - l) := by rw [← pow_add, show l + (52 - l) = 52 by omega]
      _ ≤ _ := Nat.mul_le_mul_right _ hlo
  have hn53 : v * 2 ^ (52 - l) < 2 ^ 53 := by
    calc v * 2 ^ (52 - l) < 2 ^ (l + 1) * 2 ^ (52 - l) :=
          Nat.mul_lt_mul_of_pos_right hhi (by positivity)
      _ = 2 ^ 53 := by rw [← pow_add, show l + 1 + (52 - l) = 53 by omega]
  have hround : F64.roundUnits neg (v * F64.unitsPerOne) 1 =
      F64.pack neg (v * 2 ^ (52 - l)) (l + 1022) := by
    unfold F64.roundUnits
    simp only [he, hn]
  have hb : l + 1022 + 1 < 2047 := by omega
  have hfin : F64.pack neg (v * 2 ^ (52 - l)) (l + 1022) =
      .fin neg ⟨l + 1022 + 1, hb⟩ (BitVec.ofNat 52 (v * 2 ^ (52 - l) - 2 ^ 52)) := by
    simp only [F64.pack, hn53, if_true, hb, dif_pos]
    rw [if_neg (by omega)]
  refine ⟨_, _, hround.trans hfin, ?_⟩
  rw [(F64.magUnits_pack (by omega) (.inl hn52) hfin).2, hsplit, Nat.one_mul]

/-- `float(n)` of an integer of magnitude below `2^53`: finite, of the sign of `n`, and exactly `n`. -/
theorem F64.ofInt_exact {n : Int} (h : n.natAbs < 2 ^ 53) :
    ∃ ex frac, F64.ofInt n = .fin (decide (n < 0)) ex frac ∧
      F64.magUnits ex frac = n.natAbs * F64.unitsPerOne :=
  F64.roundUnits_exact _ h

theorem F64.isFinite_ofInt {n : Int} (h : n.natAbs < 2 ^ 53) : (F64.ofInt n).isFinite = true := by
  obtain ⟨ex, frac, he, -⟩ := F64.ofInt_exact h
  rw [he]
  rfl

/-- The units of an exact integer. -/
theorem F64.units_ofInt {n : Int} (h : n.natAbs < 2 ^ 53) :
    (F64.ofInt n).units = n * F64.unitsPerOne := by
  obtain ⟨ex, frac, he, hm⟩ := F64.ofInt_exact h
  rw [he]
  simp only [F64.units, hm]
  by_cases hn : n < 0
  · simp only [hn, decide_true, if_true, Nat.cast_mul]
    rw [show ((n.natAbs : Nat) : Int) = -n by omega]
    ring
  · simp only [hn, decide_false, Bool.false_eq_true, if_false, Nat.cast_mul]
    rw [show ((n.natAbs : Nat) : Int) = n by omega]

/-- `trunc` gives back an exact integer. -/
theorem F64.trunc_ofInt {n : Int} (h : n.natAbs < 2 ^ 53) : (F64.ofInt n).trunc = some n := by
  obtain ⟨ex, frac, he, hm⟩ := F64.ofInt_exact h
  rw [he]
  simp only [F64.trunc, hm, Nat.mul_div_cancel _ F64.unitsPerOne_pos]
  rcases lt_or_ge n 0 with hn | hn
  · simp only [hn, decide_true, if_true, Option.some.injEq]
    omega
  · simp only [not_lt.mpr hn, decide_false, Bool.false_eq_true, if_false, Option.some.injEq]
    omega

/-! ### Sums of finite values -/

/-- The sum of two finite values is never a NaN. -/
theorem F64.isNaN_add {a b : F64} (ha : a.isFinite = true) (hb : b.isFinite = true) :
    (a.add b).isNaN = false := by
  cases a <;> simp [F64.isFinite] at ha
  cases b <;> simp [F64.isFinite] at hb
  simp only [F64.add]
  split_ifs
  · rfl
  · exact F64.isNaN_roundUnits _ _ _

@[simp] theorem F64.isFinite_zero : F64.zero.isFinite = true := rfl

/-- A value that is neither a NaN nor an infinity is finite. -/
theorem F64.isFinite_iff {a : F64} : a.isFinite = true ↔ ∃ s ex frac, a = .fin s ex frac := by
  cases a <;> simp [F64.isFinite]

end Sys2Proof
end

