-- ==== Sys2Proof/Laws/State.lean ====
section
/-! SUPPORT. What each update of the state does to each field: one lemma per field per update, so that
no later proof unfolds a record update. -/

namespace Sys2Proof.Machine

/-! ### `srcDrop` -/

@[simp] theorem State.srcDrop_k0 (s : State) (n : Nat) : (s.srcDrop n).k0 = s.k0 := rfl
@[simp] theorem State.srcDrop_k1 (s : State) (n : Nat) : (s.srcDrop n).k1 = s.k1 := rfl
@[simp] theorem State.srcDrop_k2 (s : State) (n : Nat) : (s.srcDrop n).k2 = s.k2 := rfl
@[simp] theorem State.srcDrop_spec (s : State) (n : Nat) : (s.srcDrop n).spec = s.spec := rfl
@[simp] theorem State.srcDrop_time (s : State) (n : Nat) : (s.srcDrop n).time = s.time := rfl
@[simp] theorem State.srcDrop_p (s : State) (n : Nat) : (s.srcDrop n).p = s.p := rfl
@[simp] theorem State.srcDrop_faulted (s : State) (n : Nat) :
    (s.srcDrop n).faulted = s.faulted := rfl
@[simp] theorem State.srcDrop_fault (s : State) (n : Nat) : (s.srcDrop n).fault = s.fault := rfl
@[simp] theorem State.srcDrop_fcmd (s : State) (n : Nat) : (s.srcDrop n).fcmd = s.fcmd := rfl
@[simp] theorem State.srcDrop_finfo (s : State) (n : Nat) : (s.srcDrop n).finfo = s.finfo := rfl
@[simp] theorem State.srcDrop_src (s : State) (n : Nat) : (s.srcDrop n).src = s.src.drop n := rfl
@[simp] theorem State.srcDrop_snk (s : State) (n : Nat) : (s.srcDrop n).snk = s.snk := rfl
@[simp] theorem State.srcDrop_cfg (s : State) (n : Nat) : (s.srcDrop n).cfg = s.cfg := rfl
@[simp] theorem State.srcDrop_host (s : State) (n : Nat) : (s.srcDrop n).host = s.host := rfl
@[simp] theorem State.srcDrop_reply (s : State) (n : Nat) : (s.srcDrop n).reply = s.reply := rfl

/-! ### `snkWrite` -/

@[simp] theorem State.snkWrite_k0 (s : State) (b : List Byte) : (s.snkWrite b).k0 = s.k0 := rfl
@[simp] theorem State.snkWrite_k1 (s : State) (b : List Byte) : (s.snkWrite b).k1 = s.k1 := rfl
@[simp] theorem State.snkWrite_k2 (s : State) (b : List Byte) : (s.snkWrite b).k2 = s.k2 := rfl
@[simp] theorem State.snkWrite_spec (s : State) (b : List Byte) :
    (s.snkWrite b).spec = s.spec := rfl
@[simp] theorem State.snkWrite_time (s : State) (b : List Byte) :
    (s.snkWrite b).time = s.time := rfl
@[simp] theorem State.snkWrite_p (s : State) (b : List Byte) : (s.snkWrite b).p = s.p := rfl
@[simp] theorem State.snkWrite_faulted (s : State) (b : List Byte) :
    (s.snkWrite b).faulted = s.faulted := rfl
@[simp] theorem State.snkWrite_fault (s : State) (b : List Byte) :
    (s.snkWrite b).fault = s.fault := rfl
@[simp] theorem State.snkWrite_fcmd (s : State) (b : List Byte) :
    (s.snkWrite b).fcmd = s.fcmd := rfl
@[simp] theorem State.snkWrite_finfo (s : State) (b : List Byte) :
    (s.snkWrite b).finfo = s.finfo := rfl
@[simp] theorem State.snkWrite_src (s : State) (b : List Byte) : (s.snkWrite b).src = s.src := rfl
@[simp] theorem State.snkWrite_snk (s : State) (b : List Byte) :
    (s.snkWrite b).snk = s.snk ++ b := rfl
@[simp] theorem State.snkWrite_cfg (s : State) (b : List Byte) : (s.snkWrite b).cfg = s.cfg := rfl
@[simp] theorem State.snkWrite_host (s : State) (b : List Byte) :
    (s.snkWrite b).host = s.host := rfl
@[simp] theorem State.snkWrite_reply (s : State) (b : List Byte) :
    (s.snkWrite b).reply = s.reply := rfl

/-! ### `raise` -/

@[simp] theorem State.raise_k0 (s : State) (cw : Word32) (f : Raise) :
    (s.raise cw f).k0 = s.k0 := rfl
@[simp] theorem State.raise_k1 (s : State) (cw : Word32) (f : Raise) :
    (s.raise cw f).k1 = s.k1 := rfl
@[simp] theorem State.raise_k2 (s : State) (cw : Word32) (f : Raise) :
    (s.raise cw f).k2 = s.k2 := rfl
@[simp] theorem State.raise_spec (s : State) (cw : Word32) (f : Raise) :
    (s.raise cw f).spec = s.spec := rfl
@[simp] theorem State.raise_time (s : State) (cw : Word32) (f : Raise) :
    (s.raise cw f).time = s.time := rfl
@[simp] theorem State.raise_p (s : State) (cw : Word32) (f : Raise) : (s.raise cw f).p = s.p := rfl
@[simp] theorem State.raise_faulted (s : State) (cw : Word32) (f : Raise) :
    (s.raise cw f).faulted = true := rfl
@[simp] theorem State.raise_fault (s : State) (cw : Word32) (f : Raise) :
    (s.raise cw f).fault = BitVec.ofNat 32 f.kind.code := rfl
@[simp] theorem State.raise_fcmd (s : State) (cw : Word32) (f : Raise) :
    (s.raise cw f).fcmd = cw := rfl
@[simp] theorem State.raise_finfo (s : State) (cw : Word32) (f : Raise) :
    (s.raise cw f).finfo = BitVec.ofNat 64 f.info := rfl
@[simp] theorem State.raise_src (s : State) (cw : Word32) (f : Raise) :
    (s.raise cw f).src = s.src := rfl
@[simp] theorem State.raise_snk (s : State) (cw : Word32) (f : Raise) :
    (s.raise cw f).snk = s.snk := rfl
@[simp] theorem State.raise_cfg (s : State) (cw : Word32) (f : Raise) :
    (s.raise cw f).cfg = s.cfg := rfl
@[simp] theorem State.raise_host (s : State) (cw : Word32) (f : Raise) :
    (s.raise cw f).host = s.host := rfl
@[simp] theorem State.raise_reply (s : State) (cw : Word32) (f : Raise) :
    (s.raise cw f).reply = s.reply := rfl

/-! ### `hardReset` -/

@[simp] theorem State.hardReset_k0 (s : State) : (s.hardReset).k0 = none := rfl
@[simp] theorem State.hardReset_k1 (s : State) : (s.hardReset).k1 = none := rfl
@[simp] theorem State.hardReset_k2 (s : State) : (s.hardReset).k2 = none := rfl
@[simp] theorem State.hardReset_spec (s : State) : (s.hardReset).spec = none := rfl
@[simp] theorem State.hardReset_time (s : State) : (s.hardReset).time = none := rfl
@[simp] theorem State.hardReset_p (s : State) : (s.hardReset).p = Vector.replicate 8 0 := rfl
@[simp] theorem State.hardReset_faulted (s : State) : (s.hardReset).faulted = false := rfl
@[simp] theorem State.hardReset_fault (s : State) : (s.hardReset).fault = 0 := rfl
@[simp] theorem State.hardReset_fcmd (s : State) : (s.hardReset).fcmd = 0 := rfl
@[simp] theorem State.hardReset_finfo (s : State) : (s.hardReset).finfo = 0 := rfl
@[simp] theorem State.hardReset_src (s : State) : (s.hardReset).src = [] := rfl
@[simp] theorem State.hardReset_snk (s : State) : (s.hardReset).snk = [] := rfl
@[simp] theorem State.hardReset_cfg (s : State) : (s.hardReset).cfg = s.cfg := rfl
@[simp] theorem State.hardReset_host (s : State) : (s.hardReset).host = s.host := rfl
@[simp] theorem State.hardReset_reply (s : State) : (s.hardReset).reply = none := rfl

/-! ### `begin` -/

@[simp] theorem State.begin_k0 (s : State) (rest : List HostMove) : (s.begin rest).k0 = s.k0 := rfl
@[simp] theorem State.begin_k1 (s : State) (rest : List HostMove) : (s.begin rest).k1 = s.k1 := rfl
@[simp] theorem State.begin_k2 (s : State) (rest : List HostMove) : (s.begin rest).k2 = s.k2 := rfl
@[simp] theorem State.begin_spec (s : State) (rest : List HostMove) :
    (s.begin rest).spec = s.spec := rfl
@[simp] theorem State.begin_time (s : State) (rest : List HostMove) :
    (s.begin rest).time = s.time := rfl
@[simp] theorem State.begin_p (s : State) (rest : List HostMove) : (s.begin rest).p = s.p := rfl
@[simp] theorem State.begin_faulted (s : State) (rest : List HostMove) :
    (s.begin rest).faulted = s.faulted := rfl
@[simp] theorem State.begin_fault (s : State) (rest : List HostMove) :
    (s.begin rest).fault = s.fault := rfl
@[simp] theorem State.begin_fcmd (s : State) (rest : List HostMove) :
    (s.begin rest).fcmd = s.fcmd := rfl
@[simp] theorem State.begin_finfo (s : State) (rest : List HostMove) :
    (s.begin rest).finfo = s.finfo := rfl
@[simp] theorem State.begin_src (s : State) (rest : List HostMove) :
    (s.begin rest).src = s.src := rfl
@[simp] theorem State.begin_snk (s : State) (rest : List HostMove) :
    (s.begin rest).snk = s.snk := rfl
@[simp] theorem State.begin_cfg (s : State) (rest : List HostMove) :
    (s.begin rest).cfg = s.cfg := rfl
@[simp] theorem State.begin_host (s : State) (rest : List HostMove) :
    (s.begin rest).host = rest := rfl
@[simp] theorem State.begin_reply (s : State) (rest : List HostMove) :
    (s.begin rest).reply = none := rfl

/-! ### `withIssue` -/

@[simp] theorem State.withIssue_k0 (s : State) (cw : Word32) : (s.withIssue cw).k0 = s.k0 := rfl
@[simp] theorem State.withIssue_k1 (s : State) (cw : Word32) : (s.withIssue cw).k1 = s.k1 := rfl
@[simp] theorem State.withIssue_k2 (s : State) (cw : Word32) : (s.withIssue cw).k2 = s.k2 := rfl
@[simp] theorem State.withIssue_spec (s : State) (cw : Word32) :
    (s.withIssue cw).spec = s.spec := rfl
@[simp] theorem State.withIssue_time (s : State) (cw : Word32) :
    (s.withIssue cw).time = s.time := rfl
@[simp] theorem State.withIssue_p (s : State) (cw : Word32) : (s.withIssue cw).p = s.p := rfl
@[simp] theorem State.withIssue_faulted (s : State) (cw : Word32) :
    (s.withIssue cw).faulted = s.faulted := rfl
@[simp] theorem State.withIssue_fault (s : State) (cw : Word32) :
    (s.withIssue cw).fault = s.fault := rfl
@[simp] theorem State.withIssue_fcmd (s : State) (cw : Word32) :
    (s.withIssue cw).fcmd = s.fcmd := rfl
@[simp] theorem State.withIssue_finfo (s : State) (cw : Word32) :
    (s.withIssue cw).finfo = s.finfo := rfl
@[simp] theorem State.withIssue_src (s : State) (cw : Word32) : (s.withIssue cw).src = s.src := rfl
@[simp] theorem State.withIssue_snk (s : State) (cw : Word32) : (s.withIssue cw).snk = s.snk := rfl
@[simp] theorem State.withIssue_cfg (s : State) (cw : Word32) : (s.withIssue cw).cfg = s.cfg := rfl
@[simp] theorem State.withIssue_host (s : State) (cw : Word32) :
    (s.withIssue cw).host = .act (.issue cw) :: s.host := rfl
@[simp] theorem State.withIssue_reply (s : State) (cw : Word32) :
    (s.withIssue cw).reply = s.reply := rfl

/-! ### `pushSrc` -/

@[simp] theorem pushSrc_k0 (b : Byte) (s : State) : (pushSrc b s).k0 = s.k0 := rfl
@[simp] theorem pushSrc_k1 (b : Byte) (s : State) : (pushSrc b s).k1 = s.k1 := rfl
@[simp] theorem pushSrc_k2 (b : Byte) (s : State) : (pushSrc b s).k2 = s.k2 := rfl
@[simp] theorem pushSrc_spec (b : Byte) (s : State) : (pushSrc b s).spec = s.spec := rfl
@[simp] theorem pushSrc_time (b : Byte) (s : State) : (pushSrc b s).time = s.time := rfl
@[simp] theorem pushSrc_p (b : Byte) (s : State) : (pushSrc b s).p = s.p := rfl
@[simp] theorem pushSrc_faulted (b : Byte) (s : State) : (pushSrc b s).faulted = s.faulted := rfl
@[simp] theorem pushSrc_fault (b : Byte) (s : State) : (pushSrc b s).fault = s.fault := rfl
@[simp] theorem pushSrc_fcmd (b : Byte) (s : State) : (pushSrc b s).fcmd = s.fcmd := rfl
@[simp] theorem pushSrc_finfo (b : Byte) (s : State) : (pushSrc b s).finfo = s.finfo := rfl
@[simp] theorem pushSrc_src (b : Byte) (s : State) : (pushSrc b s).src = s.src ++ [b] := rfl
@[simp] theorem pushSrc_snk (b : Byte) (s : State) : (pushSrc b s).snk = s.snk := rfl
@[simp] theorem pushSrc_cfg (b : Byte) (s : State) : (pushSrc b s).cfg = s.cfg := rfl
@[simp] theorem pushSrc_host (b : Byte) (s : State) : (pushSrc b s).host = s.host := rfl
@[simp] theorem pushSrc_reply (b : Byte) (s : State) : (pushSrc b s).reply = s.reply := rfl

/-! ### `setP` -/

@[simp] theorem setP_k0 (i : Fin 8) (v : Word64) (s : State) : (setP i v s).k0 = s.k0 := rfl
@[simp] theorem setP_k1 (i : Fin 8) (v : Word64) (s : State) : (setP i v s).k1 = s.k1 := rfl
@[simp] theorem setP_k2 (i : Fin 8) (v : Word64) (s : State) : (setP i v s).k2 = s.k2 := rfl
@[simp] theorem setP_spec (i : Fin 8) (v : Word64) (s : State) : (setP i v s).spec = s.spec := rfl
@[simp] theorem setP_time (i : Fin 8) (v : Word64) (s : State) : (setP i v s).time = s.time := rfl
@[simp] theorem setP_p (i : Fin 8) (v : Word64) (s : State) : (setP i v s).p = s.p.set i v := rfl
@[simp] theorem setP_faulted (i : Fin 8) (v : Word64) (s : State) :
    (setP i v s).faulted = s.faulted := rfl
@[simp] theorem setP_fault (i : Fin 8) (v : Word64) (s : State) :
    (setP i v s).fault = s.fault := rfl
@[simp] theorem setP_fcmd (i : Fin 8) (v : Word64) (s : State) : (setP i v s).fcmd = s.fcmd := rfl
@[simp] theorem setP_finfo (i : Fin 8) (v : Word64) (s : State) :
    (setP i v s).finfo = s.finfo := rfl
@[simp] theorem setP_src (i : Fin 8) (v : Word64) (s : State) : (setP i v s).src = s.src := rfl
@[simp] theorem setP_snk (i : Fin 8) (v : Word64) (s : State) : (setP i v s).snk = s.snk := rfl
@[simp] theorem setP_cfg (i : Fin 8) (v : Word64) (s : State) : (setP i v s).cfg = s.cfg := rfl
@[simp] theorem setP_host (i : Fin 8) (v : Word64) (s : State) : (setP i v s).host = s.host := rfl
@[simp] theorem setP_reply (i : Fin 8) (v : Word64) (s : State) :
    (setP i v s).reply = s.reply := rfl

/-! ### `answer` -/

@[simp] theorem answer_k0 (v : Word64) (s : State) : (answer v s).k0 = s.k0 := rfl
@[simp] theorem answer_k1 (v : Word64) (s : State) : (answer v s).k1 = s.k1 := rfl
@[simp] theorem answer_k2 (v : Word64) (s : State) : (answer v s).k2 = s.k2 := rfl
@[simp] theorem answer_spec (v : Word64) (s : State) : (answer v s).spec = s.spec := rfl
@[simp] theorem answer_time (v : Word64) (s : State) : (answer v s).time = s.time := rfl
@[simp] theorem answer_p (v : Word64) (s : State) : (answer v s).p = s.p := rfl
@[simp] theorem answer_faulted (v : Word64) (s : State) : (answer v s).faulted = s.faulted := rfl
@[simp] theorem answer_fault (v : Word64) (s : State) : (answer v s).fault = s.fault := rfl
@[simp] theorem answer_fcmd (v : Word64) (s : State) : (answer v s).fcmd = s.fcmd := rfl
@[simp] theorem answer_finfo (v : Word64) (s : State) : (answer v s).finfo = s.finfo := rfl
@[simp] theorem answer_src (v : Word64) (s : State) : (answer v s).src = s.src := rfl
@[simp] theorem answer_snk (v : Word64) (s : State) : (answer v s).snk = s.snk := rfl
@[simp] theorem answer_cfg (v : Word64) (s : State) : (answer v s).cfg = s.cfg := rfl
@[simp] theorem answer_host (v : Word64) (s : State) : (answer v s).host = s.host := rfl
@[simp] theorem answer_reply (v : Word64) (s : State) : (answer v s).reply = some v := rfl

/-! ### `setSlot` and `setBuf`: every field but the slots -/

@[simp] theorem State.setSlot_spec (s : State) (k : SlotId) (c : Option Container) :
    (s.setSlot k c).spec = s.spec := by cases k <;> rfl
@[simp] theorem State.setSlot_time (s : State) (k : SlotId) (c : Option Container) :
    (s.setSlot k c).time = s.time := by cases k <;> rfl
@[simp] theorem State.setSlot_p (s : State) (k : SlotId) (c : Option Container) :
    (s.setSlot k c).p = s.p := by cases k <;> rfl
@[simp] theorem State.setSlot_faulted (s : State) (k : SlotId) (c : Option Container) :
    (s.setSlot k c).faulted = s.faulted := by cases k <;> rfl
@[simp] theorem State.setSlot_fault (s : State) (k : SlotId) (c : Option Container) :
    (s.setSlot k c).fault = s.fault := by cases k <;> rfl
@[simp] theorem State.setSlot_fcmd (s : State) (k : SlotId) (c : Option Container) :
    (s.setSlot k c).fcmd = s.fcmd := by cases k <;> rfl
@[simp] theorem State.setSlot_finfo (s : State) (k : SlotId) (c : Option Container) :
    (s.setSlot k c).finfo = s.finfo := by cases k <;> rfl
@[simp] theorem State.setSlot_src (s : State) (k : SlotId) (c : Option Container) :
    (s.setSlot k c).src = s.src := by cases k <;> rfl
@[simp] theorem State.setSlot_snk (s : State) (k : SlotId) (c : Option Container) :
    (s.setSlot k c).snk = s.snk := by cases k <;> rfl
@[simp] theorem State.setSlot_cfg (s : State) (k : SlotId) (c : Option Container) :
    (s.setSlot k c).cfg = s.cfg := by cases k <;> rfl
@[simp] theorem State.setSlot_host (s : State) (k : SlotId) (c : Option Container) :
    (s.setSlot k c).host = s.host := by cases k <;> rfl
@[simp] theorem State.setSlot_reply (s : State) (k : SlotId) (c : Option Container) :
    (s.setSlot k c).reply = s.reply := by cases k <;> rfl
@[simp] theorem State.setBuf_spec (s : State) (k : SlotId) (c : Container) (y : List F64) :
    (s.setBuf k c y).spec = s.spec := by cases k <;> rfl
@[simp] theorem State.setBuf_time (s : State) (k : SlotId) (c : Container) (y : List F64) :
    (s.setBuf k c y).time = s.time := by cases k <;> rfl
@[simp] theorem State.setBuf_p (s : State) (k : SlotId) (c : Container) (y : List F64) :
    (s.setBuf k c y).p = s.p := by cases k <;> rfl
@[simp] theorem State.setBuf_faulted (s : State) (k : SlotId) (c : Container) (y : List F64) :
    (s.setBuf k c y).faulted = s.faulted := by cases k <;> rfl
@[simp] theorem State.setBuf_fault (s : State) (k : SlotId) (c : Container) (y : List F64) :
    (s.setBuf k c y).fault = s.fault := by cases k <;> rfl
@[simp] theorem State.setBuf_fcmd (s : State) (k : SlotId) (c : Container) (y : List F64) :
    (s.setBuf k c y).fcmd = s.fcmd := by cases k <;> rfl
@[simp] theorem State.setBuf_finfo (s : State) (k : SlotId) (c : Container) (y : List F64) :
    (s.setBuf k c y).finfo = s.finfo := by cases k <;> rfl
@[simp] theorem State.setBuf_src (s : State) (k : SlotId) (c : Container) (y : List F64) :
    (s.setBuf k c y).src = s.src := by cases k <;> rfl
@[simp] theorem State.setBuf_snk (s : State) (k : SlotId) (c : Container) (y : List F64) :
    (s.setBuf k c y).snk = s.snk := by cases k <;> rfl
@[simp] theorem State.setBuf_cfg (s : State) (k : SlotId) (c : Container) (y : List F64) :
    (s.setBuf k c y).cfg = s.cfg := by cases k <;> rfl
@[simp] theorem State.setBuf_host (s : State) (k : SlotId) (c : Container) (y : List F64) :
    (s.setBuf k c y).host = s.host := by cases k <;> rfl
@[simp] theorem State.setBuf_reply (s : State) (k : SlotId) (c : Container) (y : List F64) :
    (s.setBuf k c y).reply = s.reply := by cases k <;> rfl

/-! ### The slot view -/

/-- Reading the slot just written gives what was written. -/
@[simp] theorem State.slot_setSlot_same (s : State) (k : SlotId) (c : Option Container) :
    (s.setSlot k c).slot k = c := by cases k <;> rfl

/-- Writing a slot leaves every other slot alone (10_state R27). -/
theorem State.slot_setSlot_ne (s : State) {j k : SlotId} (c : Option Container) (h : j ≠ k) :
    (s.setSlot k c).slot j = s.slot j := by cases j <;> cases k <;> first | rfl | exact absurd rfl h

/-- A slot after a write to a slot. -/
theorem State.slot_setSlot (s : State) (j k : SlotId) (c : Option Container) :
    (s.setSlot k c).slot j = if j = k then c else s.slot j := by
  cases j <;> cases k <;> rfl

@[simp] theorem State.slot_setBuf_same (s : State) (k : SlotId) (c : Container) (y : List F64) :
    (s.setBuf k c y).slot k = some { c with buf := y } := by cases k <;> rfl

theorem State.slot_setBuf_ne (s : State) {j k : SlotId} (c : Container) (y : List F64) (h : j ≠ k) :
    (s.setBuf k c y).slot j = s.slot j := s.slot_setSlot_ne _ h

@[simp] theorem State.srcDrop_slot (s : State) (n : Nat) (k : SlotId) :
    (s.srcDrop n).slot k = s.slot k := by cases k <;> rfl
@[simp] theorem State.snkWrite_slot (s : State) (b : List Byte) (k : SlotId) :
    (s.snkWrite b).slot k = s.slot k := by cases k <;> rfl
@[simp] theorem State.raise_slot (s : State) (cw : Word32) (f : Raise) (k : SlotId) :
    (s.raise cw f).slot k = s.slot k := by cases k <;> rfl
@[simp] theorem State.hardReset_slot (s : State) (k : SlotId) :
    (s.hardReset).slot k = none := by cases k <;> rfl
@[simp] theorem State.begin_slot (s : State) (rest : List HostMove) (k : SlotId) :
    (s.begin rest).slot k = s.slot k := by cases k <;> rfl
@[simp] theorem State.withIssue_slot (s : State) (cw : Word32) (k : SlotId) :
    (s.withIssue cw).slot k = s.slot k := by cases k <;> rfl
@[simp] theorem pushSrc_slot (b : Byte) (s : State) (k : SlotId) :
    (pushSrc b s).slot k = s.slot k := by cases k <;> rfl
@[simp] theorem setP_slot (i : Fin 8) (v : Word64) (s : State) (k : SlotId) :
    (setP i v s).slot k = s.slot k := by cases k <;> rfl
@[simp] theorem answer_slot (v : Word64) (s : State) (k : SlotId) :
    (answer v s).slot k = s.slot k := by cases k <;> rfl

/-- A write of `SPEC` leaves every slot alone. -/
@[simp] theorem State.slot_set_spec (s : State) (v : Option (List Cplx)) (k : SlotId) :
    State.slot { s with spec := v } k = s.slot k := by cases k <;> rfl

/-- A write of `TIME` leaves every slot alone. -/
@[simp] theorem State.slot_set_time (s : State) (v : Option (List Cplx)) (k : SlotId) :
    State.slot { s with time := v } k = s.slot k := by cases k <;> rfl


end Sys2Proof.Machine
end

