-- ==== Sys2Proof/Laws/Ops.lean ====
section
/-! SUPPORT. One specification per shared operation: what each answers, in both outcomes, so that a
later proof cites it and never unfolds the operation. -/

namespace Sys2Proof.Machine

/-! ### Sequencing -/

@[simp] theorem ok_bind {ε α β : Type} (a : α) (f : α → Except ε β) :
    (Except.ok a >>= f) = f a := rfl

@[simp] theorem error_bind {ε α β : Type} (e : ε) (f : α → Except ε β) :
    (Except.error e >>= f) = Except.error e := rfl

/-- A sequence that succeeds: its first part did, and the rest did with what that gave. -/
theorem bind_eq_ok {ε α β : Type} {x : Except ε α} {f : α → Except ε β} {b : β} :
    (x >>= f) = .ok b ↔ ∃ a, x = .ok a ∧ f a = .ok b := by
  cases x <;> simp

/-- A sequence that fails: its first part did, or the rest did with what that gave. -/
theorem bind_eq_error {ε α β : Type} {x : Except ε α} {f : α → Except ε β} {e : ε} :
    (x >>= f) = .error e ↔ x = .error e ∨ ∃ a, x = .ok a ∧ f a = .error e := by
  cases x <;> simp

@[simp] theorem pure_eq_ok {ε α : Type} (a : α) : (pure a : Except ε α) = .ok a := rfl

/-! ### `failIf` -/

@[simp] theorem failIf_true (kind : FaultKind) (info : Nat) :
    failIf true kind info = .error ⟨kind, info⟩ := rfl

@[simp] theorem failIf_false (kind : FaultKind) (info : Nat) : failIf false kind info = .ok () := rfl

theorem failIf_eq_ok {cond : Bool} {kind : FaultKind} {info : Nat} {u : Unit} :
    failIf cond kind info = .ok u ↔ cond = false := by cases cond <;> simp

theorem failIf_eq_error {cond : Bool} {kind : FaultKind} {info : Nat} {f : Raise} :
    failIf cond kind info = .error f ↔ cond = true ∧ f = ⟨kind, info⟩ := by
  cases cond <;> simp [eq_comm]

/-- A sequence that starts with a check. -/
theorem failIf_bind {α : Type} (cond : Bool) (kind : FaultKind) (info : Nat)
    (f : Unit → Except Raise α) :
    (failIf cond kind info >>= f) = if cond then .error ⟨kind, info⟩ else f () := by
  cases cond <;> rfl

/-! ### Running a command -/

@[simp] theorem runCommand_ok (i : Instr) (s t : State) : runCommand i s (.ok t) = .next t := rfl

@[simp] theorem runCommand_error (i : Instr) (s : State) (f : Raise) :
    runCommand i s (.error f) = .next (s.raise (encode i) f) := rfl

/-- Everything a command can do: answer the state it commits, or the state before it with a fault
taken. -/
theorem runCommand_cases {i : Instr} {s t : State} {body : Except Raise State}
    (h : runCommand i s body = .next t) :
    body = .ok t ∨ ∃ f, body = .error f ∧ t = s.raise (encode i) f := by
  cases body with
  | ok u => simp at h; exact .inl (by rw [h])
  | error f => simp at h; exact .inr ⟨f, rfl, h.symm⟩

/-- The pseudocode of each command. -/
def bodyOf (i : Instr) (s : State) : Except Raise State :=
  match i with
  | .decode d => decodeBody d s
  | .encode d => encodeBody d s
  | .bqlp d => biquadBody .low d s
  | .bqhp d => biquadBody .high d s
  | .firlp d => firlpBody d s
  | .ravg d => ravgBody d s
  | .hpf2 d => hpf2Body d s
  | .norm d => normBody d s
  | .comp d makeup => compBody d makeup s
  | .mix d a b => mixBody d a b s
  | .fft d => fftBody d s
  | .ifft => ifftBody s
  | .recon d => reconBody d s

/-- Every command is its pseudocode, run to its commit or its raise. -/
theorem exec_eq_runCommand (i : Instr) (s : State) : exec i s = runCommand i s (bodyOf i s) := by
  cases i <;> rfl

/-- A command whose pseudocode commits answers what it commits. -/
theorem exec_of_ok {i : Instr} {s t : State} (h : bodyOf i s = .ok t) : exec i s = .next t := by
  rw [exec_eq_runCommand, h, runCommand_ok]

/-- A command whose pseudocode raises takes that fault. -/
theorem exec_of_error {i : Instr} {s : State} {f : Raise} (h : bodyOf i s = .error f) :
    exec i s = .next (s.raise (encode i) f) := by
  rw [exec_eq_runCommand, h, runCommand_error]

/-- A command that ends without a fault ran its pseudocode to the commit. -/
theorem bodyOf_ok_of_exec {i : Instr} {s t : State} (h : exec i s = .next t)
    (hf : t.faulted = false) : bodyOf i s = .ok t := by
  rw [exec_eq_runCommand] at h
  rcases runCommand_cases h with h | ⟨f, -, rfl⟩
  · exact h
  · cases hf

/-! ### Operands -/

@[simp] theorem readSlot_eq_ok {d : SlotId} {s : State} {c : Container} :
    readSlot d s = .ok c ↔ s.slot d = some c := by
  unfold readSlot; split <;> simp_all

theorem readSlot_eq_error {d : SlotId} {s : State} {f : Raise} :
    readSlot d s = .error f ↔ s.slot d = none ∧ f = ⟨.emptySlot, d.index⟩ := by
  unfold readSlot; cases s.slot d <;> simp [eq_comm]

@[simp] theorem readCplx_eq_ok {v : Option (List Cplx)} {detail : Nat} {x : List Cplx} :
    readCplx v detail = .ok x ↔ v = some x := by
  unfold readCplx; split <;> simp_all

theorem readCplx_eq_error {v : Option (List Cplx)} {detail : Nat} {f : Raise} :
    readCplx v detail = .error f ↔ v = none ∧ f = ⟨.emptySlot, detail⟩ := by
  unfold readCplx; cases v <;> simp [eq_comm]

/-- The prologue answers the slot's container, when there is one with a buffer that is not empty. -/
theorem prologue_eq_ok {d : SlotId} {s : State} {c : Container} :
    prologue d s = .ok c ↔ s.slot d = some c ∧ c.buf ≠ [] := by
  unfold prologue
  simp only [bind_eq_ok, readSlot_eq_ok, failIf_eq_ok, pure_eq_ok]
  constructor
  · rintro ⟨c', hc, -, hb, h⟩
    cases h
    exact ⟨hc, by simpa using hb⟩
  · rintro ⟨hc, hb⟩
    exact ⟨c, hc, (), by simpa using hb, rfl⟩

/-- The prologue of a slot that holds a buffer. -/
theorem prologue_of {d : SlotId} {s : State} {c : Container} (hc : s.slot d = some c)
    (hne : c.buf ≠ []) : prologue d s = .ok c := prologue_eq_ok.mpr ⟨hc, hne⟩

/-- The prologue fails on an empty slot, then on an empty buffer. -/
theorem prologue_eq_error {d : SlotId} {s : State} {f : Raise} :
    prologue d s = .error f ↔
      (s.slot d = none ∧ f = ⟨.emptySlot, d.index⟩) ∨
      (∃ c, s.slot d = some c ∧ c.buf = [] ∧ f = ⟨.degenerateInput, 0⟩) := by
  unfold prologue
  simp only [bind_eq_error, readSlot_eq_ok, readSlot_eq_error, failIf_eq_ok, failIf_eq_error,
    List.isEmpty_iff, pure_eq_ok]
  simp

/-! ### The finiteness check and the commit -/

theorem firstNonFinite_eq_none {y : List F64} : firstNonFinite y = none ↔ AllFinite y := by
  simp [firstNonFinite, List.findIdx?_eq_none_iff, AllFinite]

theorem checkFinite_eq_ok {y : List F64} {u : Unit} : checkFinite y = .ok u ↔ AllFinite y := by
  rw [← firstNonFinite_eq_none]
  unfold checkFinite
  split <;> simp_all

theorem checkFinite_eq_error {y : List F64} {f : Raise} :
    checkFinite y = .error f ↔ ∃ i, firstNonFinite y = some i ∧ f = ⟨.nonFinite, i⟩ := by
  unfold checkFinite
  cases firstNonFinite y <;> simp [eq_comm]

/-- The epilogue commits exactly the lists of finite entries. -/
theorem epilogue_eq_ok {d : SlotId} {c : Container} {y : List F64} {s t : State} :
    epilogue d c y s = .ok t ↔ AllFinite y ∧ t = s.setBuf d c y := by
  unfold epilogue
  simp only [bind_eq_ok, checkFinite_eq_ok, pure_eq_ok]
  constructor
  · rintro ⟨-, hf, h⟩
    cases h
    exact ⟨hf, rfl⟩
  · rintro ⟨hf, rfl⟩
    exact ⟨(), hf, rfl⟩

theorem epilogue_eq_error {d : SlotId} {c : Container} {y : List F64} {s : State} {f : Raise} :
    epilogue d c y s = .error f ↔ ∃ i, firstNonFinite y = some i ∧ f = ⟨.nonFinite, i⟩ := by
  unfold epilogue
  simp only [bind_eq_error, checkFinite_eq_error, pure_eq_ok]
  simp

/-- The lowest index of a non-finite entry: that entry is not finite and all before it are. -/
theorem firstNonFinite_eq_some {y : List F64} {i : Nat} :
    firstNonFinite y = some i ↔
      ∃ h : i < y.length, y[i].isFinite = false ∧ ∀ j (hj : j < i), y[j].isFinite = true := by
  simp [firstNonFinite, List.findIdx?_eq_some_iff_getElem]

/-! ### Issuing and stepping -/

theorem issue_faulted {cw : Word32} {s : State} (h : s.faulted = true) : issue cw s = .next s := by
  simp [issue, h]

theorem issue_error {cw : Word32} {s : State} {e : DecodeError} (h : s.faulted = false)
    (hd : decode cw = .error e) :
    issue cw s = .next (s.raise cw ⟨.illegalCommand, e.detail⟩) := by
  simp [issue, h, hd]

theorem issue_ok {cw : Word32} {s : State} {i : Instr} (h : s.faulted = false)
    (hd : decode cw = .ok i) : issue cw s = exec i s := by
  simp [issue, h, hd]

/-- Everything issuing a word can do. -/
theorem issue_cases (cw : Word32) (s : State) :
    (s.faulted = true ∧ issue cw s = .next s) ∨
    (s.faulted = false ∧ ∃ e, decode cw = .error e ∧
      issue cw s = .next (s.raise cw ⟨.illegalCommand, e.detail⟩)) ∨
    (s.faulted = false ∧ ∃ i, decode cw = .ok i ∧ issue cw s = exec i s) := by
  rcases hf : s.faulted with _ | _
  · rcases hd : decode cw with e | i
    · exact .inr (.inl ⟨rfl, e, rfl, issue_error hf hd⟩)
    · exact .inr (.inr ⟨rfl, i, rfl, issue_ok hf hd⟩)
  · exact .inl ⟨rfl, issue_faulted hf⟩

theorem step_idle {s : State} (h : s.host = []) : step s = .next s := by
  simp [step, stepBody, h]

theorem step_move {s : State} {m : HostMove} {rest : List HostMove} (h : s.host = m :: rest) :
    step s = hostMove m (s.begin rest) := by
  simp [step, stepBody, h]

end Sys2Proof.Machine
end

