-- ==== Sys2Proof/Laws/Commands.lean ====
section
/-! SUPPORT. What each command's pseudocode commits, in full, with the lengths and the finiteness of
what it builds: one inversion lemma per command. -/

namespace Sys2Proof.Machine

/-! ### Lengths of what the transforms build -/

@[simp] theorem length_bqLoop (t : Taps) (x1 x2 y1 y2 : F64) (x : List F64) :
    (bqLoop t x1 x2 y1 y2 x).length = x.length := by
  induction x generalizing x1 x2 y1 y2 with
  | nil => rfl
  | cons a rest ih => simp [bqLoop, ih]

@[simp] theorem length_bqRun (t : Taps) (x : List F64) : (bqRun t x).length = x.length := by
  match x with
  | [] => rfl
  | [_] => rfl
  | _ :: _ :: rest => simp [bqRun]

@[simp] theorem length_sincKernel (tap : Nat → F64) (m : Nat) :
    (sincKernel tap m).length = m := by simp [sincKernel]

@[simp] theorem length_firRun (h x : List F64) : (firRun h x).length = x.length - h.length := by
  simp [firRun]

@[simp] theorem length_ravgRun (x : List F64) (w : Nat) : (ravgRun x w).length = x.length := by
  simp [ravgRun]

@[simp] theorem length_hpfLoop (x1 x2 : F64) (x : List F64) :
    (hpfLoop x1 x2 x).length = x.length := by
  induction x generalizing x1 x2 with
  | nil => rfl
  | cons a rest ih => simp [hpfLoop, ih]

@[simp] theorem length_hpfRun (x : List F64) : (hpfRun x).length = x.length := by
  match x with
  | [] => rfl
  | [_] => rfl
  | _ :: _ :: rest => simp [hpfRun]

@[simp] theorem length_compLoop (k : CompSetup) (env : F64) (x : List F64) :
    (compLoop k env x).length = x.length := by
  induction x generalizing env with
  | nil => rfl
  | cons a rest ih => simp [compLoop, ih]

@[simp] theorem length_mixRun (x w : List F64) : (mixRun x w).length = x.length := by
  induction x generalizing w with
  | nil => simp [mixRun]
  | cons a rest ih => cases w <;> simp [mixRun, ih]

@[simp] theorem length_reconstruct (x : List F64) (t : List Cplx) :
    (reconstruct x t).length = max x.length t.length := by
  simp [reconstruct]
  omega

@[simp] theorem length_dft (n : NumSel) (x : List Cplx) : (n.record.dft x).length = x.length := by
  cases n <;> simp [NumSel.record, Num.ofRaw, dftField]

@[simp] theorem length_idft (n : NumSel) (x : List Cplx) : (n.record.idft x).length = x.length := by
  cases n <;> simp [NumSel.record, Num.ofRaw, dftField]

theorem length_decodeFrames (b : List Byte) : (decodeFrames b).length = b.length / 2 := by
  match b with
  | [] => rfl
  | [_] => simp [decodeFrames]
  | _ :: _ :: rest => simp [decodeFrames, length_decodeFrames rest]; omega

/-! ### Frames -/

/-- The signed value of a 16-bit pattern is in the 16-bit range. -/
theorem sext16_bounds (v : Word16) : -32768 ≤ sext16 v ∧ sext16 v ≤ 32767 := by
  have := v.isLt
  unfold sext16
  split <;> omega

@[simp] theorem allFinite_nil : AllFinite [] := by simp [AllFinite]

theorem allFinite_cons {a : F64} {x : List F64} :
    AllFinite (a :: x) ↔ a.isFinite = true ∧ AllFinite x := by simp [AllFinite]

/-- Every decoded entry is finite (10_state R25). -/
theorem allFinite_decodeFrames (b : List Byte) : AllFinite (decodeFrames b) := by
  match b with
  | [] => simp [decodeFrames]
  | [_] => simp [decodeFrames]
  | b0 :: b1 :: rest =>
    have := sext16_bounds (le16 b0 b1)
    rw [decodeFrames, allFinite_cons]
    exact ⟨F64.isFinite_ofInt (by omega), allFinite_decodeFrames rest⟩

/-! ### The mixer -/

/-- A clipped sum that is not a NaN is finite (44_mixer R240, R244). -/
theorem isFinite_clip16 {t : F64} (h : t.isNaN = false) : (clip16 t).isFinite = true := by
  obtain ⟨e1, f1, h1, -⟩ := F64.ofInt_exact (n := 32767) (by norm_num)
  obtain ⟨e2, f2, h2, -⟩ := F64.ofInt_exact (n := -32768) (by norm_num)
  unfold clip16
  rw [h1, h2]
  cases t with
  | nan => cases h
  | inf neg => cases neg <;> rfl
  | fin s ex frac => split_ifs <;> rfl

/-- The mix of two finite tracks is finite. -/
theorem allFinite_mixRun {x w : List F64} (hx : AllFinite x) (hw : AllFinite w) :
    AllFinite (mixRun x w) := by
  induction x generalizing w with
  | nil => simp [mixRun]
  | cons a rest ih =>
    rw [allFinite_cons] at hx
    cases w with
    | nil =>
      rw [mixRun, allFinite_cons]
      exact ⟨isFinite_clip16 (F64.isNaN_add hx.1 F64.isFinite_zero), ih hx.2 allFinite_nil⟩
    | cons b ws =>
      rw [allFinite_cons] at hw
      rw [mixRun, allFinite_cons]
      exact ⟨isFinite_clip16 (F64.isNaN_add hx.1 hw.1), ih hx.2 hw.2⟩

/-! ### Normalise -/

theorem normalize_eq_ok {num : Num} {x y : List F64} {db : F64} :
    normalize num x db = .ok y ↔
      (peakOf x).feq F64.zero = false ∧ y = x.map (fun v => v.mul ((num.lin db).div (peakOf x))) := by
  unfold normalize
  simp only [bind_eq_ok, failIf_eq_ok, pure_eq_ok]
  constructor
  · rintro ⟨-, hp, h⟩
    cases h
    exact ⟨hp, rfl⟩
  · rintro ⟨hp, rfl⟩
    exact ⟨(), hp, rfl⟩

theorem normalize_eq_error {num : Num} {x : List F64} {db : F64} {f : Raise} :
    normalize num x db = .error f ↔
      (peakOf x).feq F64.zero = true ∧ f = ⟨.degenerateInput, 1⟩ := by
  unfold normalize
  simp only [bind_eq_error, failIf_eq_error, pure_eq_ok]
  simp

/-! ### What the transforms commit -/

/-- A transform that commits: the slot held a container with a buffer that was not empty, and a list
of finite entries, of a given length, replaces that buffer (42_filters R197). -/
def Transforms (d : SlotId) (s t : State) (len : Nat → Nat) : Prop :=
  ∃ c y, s.slot d = some c ∧ c.buf ≠ [] ∧ AllFinite y ∧ y.length = len c.buf.length ∧
    t = s.setBuf d c y

theorem biquadBody_ok {mode : BqMode} {d : SlotId} {s t : State}
    (h : biquadBody mode d s = .ok t) : Transforms d s t id := by
  unfold biquadBody at h
  simp only [bind_eq_ok, prologue_eq_ok, epilogue_eq_ok] at h
  obtain ⟨c, ⟨hc, hne⟩, hf, rfl⟩ := h
  exact ⟨c, _, hc, hne, hf, by simp, rfl⟩

theorem firlpBody_ok {d : SlotId} {s t : State} (h : firlpBody d s = .ok t) :
    0 < s.pn 1 ∧ Transforms d s t (fun n => n - s.pn 1) := by
  unfold firlpBody at h
  simp only [bind_eq_ok, prologue_eq_ok, epilogue_eq_ok, failIf_eq_ok] at h
  obtain ⟨c, ⟨hc, hne⟩, -, -, -, hm, hf, rfl⟩ := h
  refine ⟨?_, c, _, hc, hne, hf, by simp, rfl⟩
  simp only [Bool.or_eq_false_iff, beq_eq_false_iff_ne] at hm
  omega

theorem ravgBody_ok {d : SlotId} {s t : State} (h : ravgBody d s = .ok t) :
    Transforms d s t id := by
  unfold ravgBody at h
  simp only [bind_eq_ok, prologue_eq_ok, epilogue_eq_ok, failIf_eq_ok] at h
  obtain ⟨c, ⟨hc, hne⟩, -, -, hf, rfl⟩ := h
  exact ⟨c, _, hc, hne, hf, by simp, rfl⟩

theorem hpf2Body_ok {d : SlotId} {s t : State} (h : hpf2Body d s = .ok t) :
    Transforms d s t id := by
  unfold hpf2Body at h
  simp only [bind_eq_ok, prologue_eq_ok, epilogue_eq_ok] at h
  obtain ⟨c, ⟨hc, hne⟩, hf, rfl⟩ := h
  exact ⟨c, _, hc, hne, hf, by simp, rfl⟩

theorem normBody_ok {d : SlotId} {s t : State} (h : normBody d s = .ok t) :
    Transforms d s t id := by
  unfold normBody at h
  simp only [bind_eq_ok, prologue_eq_ok, epilogue_eq_ok, normalize_eq_ok] at h
  obtain ⟨c, ⟨hc, hne⟩, y, ⟨-, rfl⟩, hf, rfl⟩ := h
  exact ⟨c, _, hc, hne, hf, by simp, rfl⟩

theorem compBody_ok {d : SlotId} {makeup : Bool} {s t : State}
    (h : compBody d makeup s = .ok t) : Transforms d s t id := by
  unfold compBody at h
  cases makeup <;>
    simp only [bind_eq_ok, prologue_eq_ok, epilogue_eq_ok, normalize_eq_ok, checkFinite_eq_ok,
      if_true, Bool.false_eq_true, if_false] at h
  · obtain ⟨c, ⟨hc, hne⟩, l, -, -, -, hf, rfl⟩ := h
    exact ⟨c, _, hc, hne, hf, by simp, rfl⟩
  · obtain ⟨c, ⟨hc, hne⟩, l, -, -, -, z, ⟨-, rfl⟩, hf, rfl⟩ := h
    exact ⟨c, _, hc, hne, hf, by simp, rfl⟩

theorem reconBody_ok {d : SlotId} {s t : State} (h : reconBody d s = .ok t) :
    ∃ v, s.time = some v ∧ Transforms d s t (fun n => max n v.length) := by
  unfold reconBody at h
  simp only [bind_eq_ok, readSlot_eq_ok, readCplx_eq_ok, epilogue_eq_ok, failIf_eq_ok] at h
  obtain ⟨c, hc, v, hv, -, hne, hf, rfl⟩ := h
  exact ⟨v, hv, c, _, hc, by simpa using hne, hf, by simp, rfl⟩

theorem fftBody_ok {d : SlotId} {s t : State} (h : fftBody d s = .ok t) :
    ∃ c, s.slot d = some c ∧ c.buf ≠ [] ∧
      t = { s with spec := some (s.num.dft (c.buf.map realCplx)) } := by
  unfold fftBody at h
  simp only [bind_eq_ok, prologue_eq_ok, pure_eq_ok] at h
  obtain ⟨c, ⟨hc, hne⟩, h⟩ := h
  cases h
  exact ⟨c, hc, hne, rfl⟩

theorem ifftBody_ok {s t : State} (h : ifftBody s = .ok t) :
    ∃ x, s.spec = some x ∧ t = { s with time := some (s.num.idft x) } := by
  unfold ifftBody at h
  simp only [bind_eq_ok, readCplx_eq_ok, pure_eq_ok] at h
  obtain ⟨x, hx, h⟩ := h
  cases h
  exact ⟨x, hx, rfl⟩

/-! ### The tap functions -/

theorem State.bqCoeff_low {s : State} (h : s.cfg.bq = .default) (fc sr : F64) :
    s.bqCoeff .low fc sr = bqCoeffLow s.num fc sr := by
  unfold State.bqCoeff; rw [h]

theorem State.bqCoeff_high {s : State} (h : s.cfg.bq = .default) (fc sr : F64) :
    s.bqCoeff .high fc sr = bqCoeffHigh s.num fc sr := by
  unfold State.bqCoeff; rw [h]

theorem State.bqCoeff_free {s : State} {n : Nat} (h : s.cfg.bq = .free n) (mode : BqMode)
    (fc sr : F64) : s.bqCoeff mode fc sr = Config.freeBqCoeff n mode fc sr := by
  unfold State.bqCoeff; rw [h]

theorem State.firTap_default {s : State} (h : s.cfg.fir = .default) (cutoff : F64) (m i : Nat) :
    s.firTap cutoff m i = sincTap s.num cutoff m i := by
  unfold State.firTap; rw [h]

theorem State.firTap_free {s : State} {n : Nat} (h : s.cfg.fir = .free n) (cutoff : F64)
    (m i : Nat) : s.firTap cutoff m i = Config.freeFirTap n cutoff m i := by
  unfold State.firTap; rw [h]

/-- Both tap functions depend on the configuration alone. -/
theorem State.taps_congr {s t : State} (h : t.cfg = s.cfg) :
    t.bqCoeff = s.bqCoeff ∧ t.firTap = s.firTap := by
  unfold State.bqCoeff State.firTap State.num
  rw [h]
  exact ⟨rfl, rfl⟩

/-! ### Each pseudocode after its operands are read -/

theorem biquadBody_read (mode : BqMode) {d : SlotId} {s : State} {c : Container}
    (hc : s.slot d = some c) (hne : c.buf ≠ []) :
    biquadBody mode d s = epilogue d c (bqRun (s.bqCoeff mode (s.pf 0) c.rate) c.buf) s := by
  unfold biquadBody
  rw [prologue_of hc hne, ok_bind]

theorem firlpBody_read {d : SlotId} {s : State} {c : Container} (hc : s.slot d = some c)
    (hne : c.buf ≠ []) :
    firlpBody d s =
      if (s.pf 0).gt (c.rate.div F64.two) then .error ⟨.paramDomain, 0⟩
      else if s.pn 1 == 0 || decide (c.buf.length ≤ s.pn 1) then .error ⟨.paramDomain, 1⟩
      else
        epilogue d c
          (firRun (sincKernel (s.firTap ((s.pf 0).div c.rate) (s.pn 1)) (s.pn 1)) c.buf) s := by
  unfold firlpBody
  rw [prologue_of hc hne, ok_bind, failIf_bind]
  rw [failIf_bind]

theorem ravgBody_read {d : SlotId} {s : State} {c : Container} (hc : s.slot d = some c)
    (hne : c.buf ≠ []) :
    ravgBody d s =
      if s.pn 0 == 0 then .error ⟨.paramDomain, 0⟩
      else epilogue d c (ravgRun c.buf (s.pn 0)) s := by
  unfold ravgBody
  rw [prologue_of hc hne, ok_bind, failIf_bind]

theorem hpf2Body_read {d : SlotId} {s : State} {c : Container} (hc : s.slot d = some c)
    (hne : c.buf ≠ []) : hpf2Body d s = epilogue d c (hpfRun c.buf) s := by
  unfold hpf2Body
  rw [prologue_of hc hne, ok_bind]

theorem normBody_read {d : SlotId} {s : State} {c : Container} (hc : s.slot d = some c)
    (hne : c.buf ≠ []) :
    normBody d s = (normalize s.num c.buf (s.pf 0) >>= fun y => epilogue d c y s) := by
  unfold normBody
  rw [prologue_of hc hne, ok_bind]

/-- What COMP works with when the lookahead is `l` samples. -/
def setupOf (s : State) (c : Container) (l : Nat) : CompSetup where
  thr := s.num.lin (s.pf 0)
  knee := s.num.lin (s.pf 5)
  ratio := s.pf 1
  ca := smoothing s.num (s.pf 2) c.rate
  cr := smoothing s.num (s.pf 3) c.rate
  look := l

theorem compBody_read {d : SlotId} {makeup : Bool} {s : State} {c : Container} {l : Nat}
    (hc : s.slot d = some c) (hne : c.buf ≠ []) (hl : lookaheadCount (s.pf 4) c.rate = .ok l) :
    compBody d makeup s =
      (checkFinite (compLoop (setupOf s c l) F64.zero c.buf) >>= fun _ =>
        if makeup then
          normalize s.num (compLoop (setupOf s c l) F64.zero c.buf) (s.pf 6) >>= fun z =>
            epilogue d c z s
        else epilogue d c (compLoop (setupOf s c l) F64.zero c.buf) s) := by
  unfold compBody
  rw [prologue_of hc hne, ok_bind, hl, ok_bind]
  rfl

theorem compBody_short {d : SlotId} {makeup : Bool} {s : State} {c : Container} {f : Raise}
    (hc : s.slot d = some c) (hne : c.buf ≠ [])
    (hl : lookaheadCount (s.pf 4) c.rate = .error f) : compBody d makeup s = .error f := by
  unfold compBody
  rw [prologue_of hc hne, ok_bind, hl, error_bind]

theorem reconBody_read {d : SlotId} {s : State} {c : Container} {v : List Cplx}
    (hc : s.slot d = some c) (hv : s.time = some v) (hne : c.buf ≠ []) :
    reconBody d s = epilogue d c (reconstruct c.buf v) s := by
  unfold reconBody
  rw [readSlot_eq_ok.mpr hc, ok_bind, readCplx_eq_ok.mpr hv, ok_bind, failIf_bind,
    List.isEmpty_eq_false_iff.mpr hne]
  rfl

theorem fftBody_read {d : SlotId} {s : State} {c : Container} (hc : s.slot d = some c)
    (hne : c.buf ≠ []) :
    fftBody d s = .ok { s with spec := some (s.num.dft (c.buf.map realCplx)) } := by
  unfold fftBody
  rw [prologue_of hc hne, ok_bind, pure_eq_ok]

theorem ifftBody_read {s : State} {x : List Cplx} (hx : s.spec = some x) :
    ifftBody s = .ok { s with time := some (s.num.idft x) } := by
  unfold ifftBody
  rw [readCplx_eq_ok.mpr hx, ok_bind, pure_eq_ok]

/-! ### What DECODE, ENCODE and MIX commit -/

/-- What DECODE commits (40_container R110). -/
theorem decodeBody_ok {d : SlotId} {s t : State} (h : decodeBody d s = .ok t) :
    let hdr := parseHeader (s.srcRead headerLen)
    let der := deriveQuantities hdr
    let need := headerLen + 2 * der.sampleCount
    hdr.bitsPerSample = Config.supportedBits ∧ hdr.byteRate ≠ 0 ∧ der.sampleCount ≤ s.cfg.nmax ∧
      need ≤ s.src.length ∧
      t = (s.srcDrop need).setSlot d
        (some ⟨hdr, der, decodeFrames ((s.srcRead need).drop headerLen)⟩) := by
  unfold decodeBody at h
  simp only [bind_eq_ok, failIf_eq_ok, pure_eq_ok] at h
  obtain ⟨-, -, -, hb, -, hr, -, hn, -, hs, h⟩ := h
  cases h
  exact ⟨by simpa using hb, by simpa using hr, by simpa using hn, by simpa using hs, rfl⟩

/-- What ENCODE commits (40_container R120). -/
theorem encodeBody_ok {d : SlotId} {s t : State} (h : encodeBody d s = .ok t) :
    ∃ c, s.slot d = some c ∧ (∀ v ∈ c.buf, (sample16 v).isSome) ∧
      t = (s.snkWrite (headerBytes c.hdr c.buf.length ++ c.buf.flatMap frameBytes)).setSlot d none := by
  unfold encodeBody checkRange at h
  simp only [bind_eq_ok, readSlot_eq_ok, pure_eq_ok] at h
  obtain ⟨c, hc, u, hr, h⟩ := h
  cases h
  refine ⟨c, hc, ?_, rfl⟩
  cases hi : c.buf.findIdx? (fun v => (sample16 v).isNone) with
  | none => simpa [List.findIdx?_eq_none_iff, Option.isSome_iff_ne_none] using hi
  | some i => simp [hi] at hr

/-- What MIX commits (44_mixer R240). -/
theorem mixBody_ok {d a b : SlotId} {s t : State} (h : mixBody d a b s = .ok t) :
    d ≠ a ∧ d ≠ b ∧ ∃ ca cb, s.slot a = some ca ∧ s.slot b = some cb ∧ ca.buf ≠ [] ∧ cb.buf ≠ [] ∧
      t = s.setSlot d (some (if cb.buf.length ≤ ca.buf.length then mixContainer ca cb
        else mixContainer cb ca)) := by
  unfold mixBody at h
  simp only [bind_eq_ok, failIf_eq_ok, readSlot_eq_ok, pure_eq_ok, Bool.or_eq_false_iff,
    beq_eq_false_iff_ne, List.isEmpty_eq_false_iff] at h
  obtain ⟨-, ⟨ha, hb⟩, ca, hca, cb, hcb, -, ⟨hna, hnb⟩, h⟩ := h
  refine ⟨ha, hb, ca, cb, hca, hcb, hna, hnb, ?_⟩
  split at h <;> rename_i hl <;> cases h <;> simp [hl]

end Sys2Proof.Machine
end

