-- ==== Sys2Proof/Laws/PerInstr.lean ====
section
/-! SUPPORT. One lemma per command about the word it is encoded as: the host splits statements over
commands into these. -/

/-- What the word of a command holds (30_encoding R82, R84): an opcode that is not reserved, no bit
outside that opcode and its used fields, and fields the decoder builds the command from. -/
def Sys2Proof.Laws.EncodedFields.Statement (i : Sys2Proof.Instr) : Prop :=
  ∃ op, Sys2Proof.opcodeOf (Sys2Proof.fieldOP (Sys2Proof.encode i)) = some op ∧
    Sys2Proof.encode i &&& ~~~op.usedBits = 0 ∧
    Sys2Proof.buildInstr op (Sys2Proof.encode i) = some i

theorem Sys2Proof.Laws.EncodedFields.decode (d : Sys2Proof.SlotId) :
    Sys2Proof.Laws.EncodedFields.Statement (Sys2Proof.Instr.decode d) :=
  ⟨.decode, by cases d <;> decide⟩

theorem Sys2Proof.Laws.EncodedFields.encode (d : Sys2Proof.SlotId) :
    Sys2Proof.Laws.EncodedFields.Statement (Sys2Proof.Instr.encode d) :=
  ⟨.encode, by cases d <;> decide⟩

theorem Sys2Proof.Laws.EncodedFields.bqlp (d : Sys2Proof.SlotId) :
    Sys2Proof.Laws.EncodedFields.Statement (Sys2Proof.Instr.bqlp d) :=
  ⟨.biquad, by cases d <;> decide⟩

theorem Sys2Proof.Laws.EncodedFields.bqhp (d : Sys2Proof.SlotId) :
    Sys2Proof.Laws.EncodedFields.Statement (Sys2Proof.Instr.bqhp d) :=
  ⟨.biquad, by cases d <;> decide⟩

theorem Sys2Proof.Laws.EncodedFields.firlp (d : Sys2Proof.SlotId) :
    Sys2Proof.Laws.EncodedFields.Statement (Sys2Proof.Instr.firlp d) :=
  ⟨.firlp, by cases d <;> decide⟩

theorem Sys2Proof.Laws.EncodedFields.ravg (d : Sys2Proof.SlotId) :
    Sys2Proof.Laws.EncodedFields.Statement (Sys2Proof.Instr.ravg d) :=
  ⟨.ravg, by cases d <;> decide⟩

theorem Sys2Proof.Laws.EncodedFields.hpf2 (d : Sys2Proof.SlotId) :
    Sys2Proof.Laws.EncodedFields.Statement (Sys2Proof.Instr.hpf2 d) :=
  ⟨.hpf2, by cases d <;> decide⟩

theorem Sys2Proof.Laws.EncodedFields.norm (d : Sys2Proof.SlotId) :
    Sys2Proof.Laws.EncodedFields.Statement (Sys2Proof.Instr.norm d) :=
  ⟨.norm, by cases d <;> decide⟩

theorem Sys2Proof.Laws.EncodedFields.comp (d : Sys2Proof.SlotId) (makeup : Bool) :
    Sys2Proof.Laws.EncodedFields.Statement (Sys2Proof.Instr.comp d makeup) :=
  ⟨.comp, by cases d <;> cases makeup <;> decide⟩

theorem Sys2Proof.Laws.EncodedFields.mix (d a b : Sys2Proof.SlotId) :
    Sys2Proof.Laws.EncodedFields.Statement (Sys2Proof.Instr.mix d a b) :=
  ⟨.mix, by cases d <;> cases a <;> cases b <;> decide⟩

theorem Sys2Proof.Laws.EncodedFields.fft (d : Sys2Proof.SlotId) :
    Sys2Proof.Laws.EncodedFields.Statement (Sys2Proof.Instr.fft d) :=
  ⟨.fft, by cases d <;> decide⟩

theorem Sys2Proof.Laws.EncodedFields.ifft :
    Sys2Proof.Laws.EncodedFields.Statement Sys2Proof.Instr.ifft :=
  ⟨.ifft, by decide⟩

theorem Sys2Proof.Laws.EncodedFields.recon (d : Sys2Proof.SlotId) :
    Sys2Proof.Laws.EncodedFields.Statement (Sys2Proof.Instr.recon d) :=
  ⟨.recon, by cases d <;> decide⟩
end

