-- ==== Sys2Proof/Tests/Slice0.lean ====
section
/-! SUPPORT. Tests of one step each, their expected results taken from spec/95_test_vectors.md and from
the rules named, and a witness for the hypotheses of every statement that has some. -/

namespace Sys2Proof.Tests

open Sys2Proof.Machine Sys2Proof.Claims

/-! ### Small states -/

/-- The header of vector V-DEC-1, with a sample rate. -/
def header (rate : Nat) : Header where
  containerTag := ⟨0x52, 0x49, 0x46, 0x46⟩
  containerSize := 44
  formatTag := ⟨0x57, 0x41, 0x56, 0x45⟩
  fmtTag := ⟨0x66, 0x6d, 0x74, 0x20⟩
  fmtSize := 16
  formatCode := 1
  channels := 1
  sampleRate := BitVec.ofNat 32 rate
  byteRate := 16000
  blockAlign := 2
  bitsPerSample := 16
  dataTag := ⟨0x64, 0x61, 0x74, 0x61⟩
  dataSize := 8

/-- A container with integer samples. -/
def holding (rate : Nat) (x : List Int) : Container :=
  ⟨header rate, deriveQuantities (header rate), x.map F64.ofInt⟩

/-- The reset state with a container in slot 0. -/
def withTrack (rate : Nat) (x : List Int) : State :=
  { State.reset with k0 := some (holding rate x) }

/-- A parameter register set. -/
def param (s : State) (i : Fin 8) (v : Word64) : State := setP i v s

/-- A state on a block built with free taps and a free kernel (93 U1, U2). -/
def freeTaps (s : State) : State := { s with cfg := { s.cfg with bq := .free 0, fir := .free 0 } }

/-- The buffer of a slot after a result, none where there is none or where a fault was taken. -/
def bufAfter (r : Result) (k : SlotId) : Option (List F64) :=
  match r with
  | .next t => if t.faulted then none else (t.slot k).map Container.buf
  | .fault _ => none
  | .refused _ => none

/-- What a result shows of a fault: the code and the detail. -/
def faultOf (r : Result) : Option (Word32 × Word64) :=
  match r with
  | .next t => if t.faulted then some (t.fault, t.finfo) else none
  | .fault _ => none
  | .refused _ => none

/-- Every value is within `10^-9` of the one listed in billionths. -/
def near (y : Option (List F64)) (z : List Int) : Bool :=
  match y with
  | some l =>
    l.length == z.length && (l.zip z).all (fun e =>
      e.1.isFinite && decide ((e.1.units * 10 ^ 9 - e.2 * F64.unitsPerOne).natAbs ≤ F64.unitsPerOne))
  | none => false

/-- The 52 bytes of vector V-DEC-1. -/
def bytesDec1 : List Byte :=
  [0x52, 0x49, 0x46, 0x46, 0x2c, 0x00, 0x00, 0x00, 0x57, 0x41, 0x56, 0x45, 0x66, 0x6d, 0x74, 0x20,
    0x10, 0x00, 0x00, 0x00, 0x01, 0x00, 0x01, 0x00, 0x40, 0x1f, 0x00, 0x00, 0x80, 0x3e, 0x00, 0x00,
    0x02, 0x00, 0x10, 0x00, 0x64, 0x61, 0x74, 0x61, 0x08, 0x00, 0x00, 0x00]
  ++ [0x01, 0x00, 0xff, 0xff, 0xff, 0x7f, 0x00, 0x80]

/-- The reset state with bytes in `SRC`. -/
def withSrc (b : List Byte) : State := { State.reset with src := b }

/-- The parameters of vector V-COMP-1. -/
def compState (x : List Int) : State :=
  param (param (param (param (withTrack 1000 x) 0 0xC034000000000000) 1 0x4010000000000000)
    4 0x3FF0000000000000) 5 0xFFF0000000000000

/-! ### Well-formedness: ill-formed terms are refused (30_encoding R86 step 4) -/

theorem test_wf_mix_destination_is_first_source : (Instr.mix .k0 .k0 .k1).wf = false := by decide
theorem test_wf_mix_destination_is_second_source : (Instr.mix .k1 .k0 .k1).wf = false := by decide
theorem test_wf_mix_of_one_track : (Instr.mix .k1 .k0 .k0).wf = true := by decide

/-! ### Words written out from the encoding (30_encoding R80, R84): F, reserved, KB, KA, KD, OP -/

theorem test_word_decode : decode 0b000000000000000_0_00_00_00_01_00000001#32 = .ok (.decode .k1) := by
  decide
theorem test_word_encode : decode 0b000000000000000_0_00_00_00_10_00000010#32 = .ok (.encode .k2) := by
  decide
theorem test_word_bqlp : decode 0b000000000000000_0_00_00_00_00_00010000#32 = .ok (.bqlp .k0) := by
  decide
theorem test_word_bqhp : decode 0b000000000000000_1_00_00_00_01_00010000#32 = .ok (.bqhp .k1) := by
  decide
theorem test_word_firlp : decode 0b000000000000000_0_00_00_00_10_00010001#32 = .ok (.firlp .k2) := by
  decide
theorem test_word_ravg : decode 0b000000000000000_0_00_00_00_00_00010010#32 = .ok (.ravg .k0) := by
  decide
theorem test_word_hpf2 : decode 0b000000000000000_0_00_00_00_01_00010011#32 = .ok (.hpf2 .k1) := by
  decide
theorem test_word_norm : decode 0b000000000000000_0_00_00_00_10_00100000#32 = .ok (.norm .k2) := by
  decide
theorem test_word_comp :
    decode 0b000000000000000_0_00_00_00_00_00100001#32 = .ok (.comp .k0 false) := by decide
theorem test_word_comp_mk :
    decode 0b000000000000000_1_00_00_00_10_00100001#32 = .ok (.comp .k2 true) := by decide
theorem test_word_mix :
    decode 0b000000000000000_0_00_01_00_10_00110000#32 = .ok (.mix .k2 .k0 .k1) := by decide
theorem test_word_fft : decode 0b000000000000000_0_00_00_00_01_01000000#32 = .ok (.fft .k1) := by
  decide
theorem test_word_ifft : decode 0b000000000000000_0_00_00_00_00_01000001#32 = .ok .ifft := by decide
theorem test_word_recon : decode 0b000000000000000_0_00_00_00_10_01000010#32 = .ok (.recon .k2) := by
  decide

/-- V-CW-2, V-CW-4, V-CW-5, V-CW-7, V-CW-8, V-CW-9, V-CW-11: one word for each reason and more. -/
theorem test_words_refused :
    decode 0x00000003 = .error .reservedOpcode ∧ decode 0x00004001 = .error .reservedBit ∧
    decode 0x00020010 = .error .reservedBit ∧ decode 0x00000401 = .error .reservedBit ∧
    decode 0x00000141 = .error .reservedBit ∧ decode 0x00000301 = .error .noSuchSlot ∧
    decode 0x00001030 = .error .mixAlias := by decide

/-- A script's bytes, the least significant first (30_encoding R90). -/
theorem test_script_bytes :
    decodeBytes [0x30, 0x12, 0x00, 0x00, 0x41] = .ok (.mix .k2 .k0 .k1, [0x41]) ∧
    decodeBytes [0x41, 0x00, 0x00] = .error .truncated := by decide

theorem test_table_word : decodeTableWord 32 0x00010110 = some (.bqhp .k1) := by decide

/-! ### One step each -/

/-- V-CW-14: the word placed for the next step runs there. -/
theorem test_fetch_word_runs :
    faultOf (step (State.reset.withFetchWord 32 0x41)) = some (8, 4) := by decide +kernel

/-- V-DEC-1. -/
theorem test_decode :
    bufAfter (exec (.decode .k0) (withSrc bytesDec1)) .k0 =
      some ([1, -1, 32767, -32768].map F64.ofInt) := by decide +kernel

/-- V-DEC-6: six of eight data bytes. -/
theorem test_decode_truncated :
    faultOf (exec (.decode .k0) (withSrc (bytesDec1.take 50))) = some (1, 1) := by decide +kernel

/-- V-ENC-1: the bytes that came in go out. -/
theorem test_encode :
    (match exec (.encode .k0) (withTrack 8000 [1, -1, 32767, -32768]) with
      | .next t => t.snk
      | .fault _ => []
      | .refused _ => []) = bytesDec1 := by decide +kernel

/-- V-ENC-3: the lowest index out of range. -/
theorem test_encode_range :
    faultOf (exec (.encode .k0) (withTrack 8000 [5, 32768, -40000])) = some (6, 1) := by
  decide +kernel

/-- V-BQ-1. -/
theorem test_bqlp :
    near (bufAfter (exec (.bqlp .k0)
      (param (withTrack 8000 [0, 0, 1000, 0]) 0 0x408F400000000000)) .k0)
      [0, 0, 97631072938, 287309604181] = true := by decide +kernel

/-- V-BQ-5: a NaN cutoff reaches the third sample. -/
theorem test_bqlp_nan_cutoff :
    faultOf (exec (.bqlp .k0) (param (withTrack 8000 [7, -3, 2]) 0 0x7FF8000000000000)) =
      some (5, 2) := by decide +kernel

/-- V-BQ-2. -/
theorem test_bqhp :
    near (bufAfter (exec (.bqhp .k0)
      (param (withTrack 8000 [100, 200, 300, 400]) 0 0x408F400000000000)) .k0)
      [100000000000, 200000000000, 155228474983, 79684143058] = true := by decide +kernel

/-- V-FIR-4: three taps. -/
theorem test_firlp :
    near (bufAfter (exec (.firlp .k0)
      (param (param (withTrack 8000 [10, 20, 30, 40, 50]) 0 0x409F400000000000) 1 3)) .k0)
      [26649693678, 36649693678] = true := by decide +kernel

/-- V-FIR-7: both checks fail, the cutoff's is first. -/
theorem test_firlp_order_of_checks :
    faultOf (exec (.firlp .k0)
      (param (param (withTrack 44100 [1, 2, 3]) 0 0x40DD4C0000000000) 1 9)) = some (3, 0) := by
  decide +kernel

/-- V-RAVG-2: the means use raw samples. -/
theorem test_ravg :
    bufAfter (exec (.ravg .k0) (param (withTrack 8000 [2, 4, 6, 8, 10, 12, 14, 16]) 0 2)) .k0 =
      some ([2, 3, 5, 8, 10, 12, 14, 16].map F64.ofInt) := by decide +kernel

/-- V-RAVG-4: an empty window. -/
theorem test_ravg_no_window :
    faultOf (exec (.ravg .k0) (withTrack 8000 [1, 2])) = some (3, 0) := by decide +kernel

/-- V-HPF-1. -/
theorem test_hpf2 :
    bufAfter (exec (.hpf2 .k0) (withTrack 8000 [1, 4, 9, 16, 25, -3])) .k0 =
      some ([0, 0, 2, 2, 2, -37].map F64.ofInt) := by decide +kernel

/-- V-NORM-1. -/
theorem test_norm :
    bufAfter (exec (.norm .k0) (withTrack 8000 [100, -16384, 8192])) .k0 =
      some ([200, -32768, 16384].map F64.ofInt) := by decide +kernel

/-- V-NORM-3: silence. -/
theorem test_norm_silence :
    faultOf (exec (.norm .k0) (withTrack 8000 [0, 0, 0])) = some (4, 1) := by decide +kernel

/-- V-COMP-1: the gains 0.4 and 1. -/
theorem test_comp :
    near (bufAfter (exec (.comp .k0 false) (compState [16384, 0])) .k0) [6553600000000, 0] = true := by
  decide +kernel

/-- V-COMP-1 with makeup. -/
theorem test_comp_makeup :
    near (bufAfter (exec (.comp .k0 true) (compState [16384, 0])) .k0) [32768000000000, 0] = true := by
  decide +kernel

/-- V-MIX-2: the shorter track first, a sum clipped. -/
theorem test_mix :
    bufAfter (exec (.mix .k2 .k0 .k1)
      { withTrack 8000 [1] with k1 := some (holding 44100 [2, 3, -50000]) }) .k2 =
      some ([3, 3, -32768].map F64.ofInt) := by decide +kernel

/-- V-MIX-5: an empty second source. -/
theorem test_mix_empty_slot :
    faultOf (exec (.mix .k2 .k0 .k1) (withTrack 8000 [1])) = some (8, 1) := by decide +kernel

/-- V-FFT-3: one sample, one bin. -/
theorem test_fft :
    (match exec (.fft .k0) (withTrack 8000 [5]) with
      | .next t => t.spec
      | .fault _ => none
      | .refused _ => none) = some [⟨F64.ofInt 5, F64.zero⟩] := by decide +kernel

/-- V-FFT-3, the inverse. -/
theorem test_ifft :
    (match exec .ifft { State.reset with spec := some [⟨F64.ofInt 5, F64.zero⟩] } with
      | .next t => t.time
      | .fault _ => none
      | .refused _ => none) = some [⟨F64.ofInt 5, F64.zero⟩] := by decide +kernel

/-- 41_spectral R147's example: the tail is kept. -/
theorem test_recon :
    bufAfter (exec (.recon .k0) { withTrack 8000 [9, 9, 9, 9] with
      time := some [⟨F64.ofInt 1, F64.zero⟩, ⟨F64.ofInt 2, F64.zero⟩] }) .k0 =
      some ([1, 2, 9, 9].map F64.ofInt) := by decide +kernel

/-- 41_spectral R147's example: the extra real parts are appended. -/
theorem test_recon_appends :
    bufAfter (exec (.recon .k0) { withTrack 8000 [9] with
      time := some [⟨F64.ofInt 1, F64.zero⟩, ⟨F64.ofInt 2, F64.zero⟩] }) .k0 =
      some ([1, 2].map F64.ofInt) := by decide +kernel

/-! ### Witnesses: the hypotheses of each statement are met, clause by clause -/

/-- A state with tracks in all three slots, of lengths 1, 2 and 0. -/
def threeTracks : State :=
  { State.reset with
    k0 := some (holding 8000 [5]), k1 := some (holding 44100 [1, 1]), k2 := some (holding 8000 []) }

/-- A state a fault has reached. -/
def faultedState : State :=
  { threeTracks with faulted := true, fault := 7, fcmd := 3, snk := [0x01] }

/-- A faulted state with moves of the host to come. -/
def facing (moves : List HostMove) (s : State) : State := { s with host := moves }

/-- The same buffers, a header of 8 bits a sample. -/
def badWidth : List Byte := bytesDec1.set 34 0x08

/-- The same buffers, a byte rate of zero. -/
def badRate : List Byte := (bytesDec1.set 28 0).set 29 0

theorem witness_ResetActionRestoresTheResetState :
    (facing [.act .reset] faultedState).host = .act .reset :: [] := by decide

theorem witness_StepRunsTheDecodedCommand :
    State.reset.faulted = false ∧ decode 0x00000041 = .ok .ifft ∧
    (facing [.act (.issue 0x41)] State.reset).host = .act (.issue 0x41) :: [] ∧
    (0xFFFFFFFF00000041 : Word64).setWidth 32 = (0x00000041 : Word32) ∧
    (facing [.write 0 0xFFFFFFFF00000041] State.reset).host =
      .write 0x00 0xFFFFFFFF00000041 :: [] := by decide

theorem witness_IllegalWordTakesIllegalCommand :
    State.reset.faulted = false ∧ decode 0x00001030 = .error .mixAlias ∧
    (facing [.act (.issue 0x1030)] State.reset).host = .act (.issue 0x1030) :: [] := by decide

/-- One word for each check, and one that fails none (V-CW-3, 4, 10, 11, 12b). -/
theorem witness_DecodeChecksRunInOrder :
    FailsStep1 0x000000FF ∧
    (¬ FailsStep1 0x00004001 ∧ FailsStep2 0x00004001) ∧
    (¬ FailsStep1 0x00003C30 ∧ ¬ FailsStep2 0x00003C30 ∧ FailsStep3 0x00003C30) ∧
    (¬ FailsStep1 0x00001030 ∧ ¬ FailsStep2 0x00001030 ∧ ¬ FailsStep3 0x00001030 ∧
      FailsStep4 0x00001030) ∧
    (¬ FailsStep1 0x00000130 ∧ ¬ FailsStep2 0x00000130 ∧ ¬ FailsStep3 0x00000130 ∧
      ¬ FailsStep4 0x00000130) := by
  unfold FailsStep1 FailsStep2 FailsStep3 FailsStep4
  decide

theorem witness_DecodedWordsMatchTheirTableRow :
    decode 0x00010221 = .ok (.comp .k2 true) ∧
    (0x00000321 : Word32) &&& (tableRow (.comp .k0 false)).2 = (tableRow (.comp .k0 false)).1 ∧
    (0x00010221 : Word32) &&& (tableRow (.comp .k0 false)).2 = (tableRow (.comp .k1 true)).1 := by
  decide

theorem witness_DecodeAndEncodeAgree :
    decode 0x00001230 = .ok (.mix .k2 .k0 .k1) ∧ (Instr.mix .k2 .k0 .k1).wf = true ∧
    encode (.mix .k2 .k0 .k1) = 0x00001230 := by decide

theorem witness_ScriptBytesReadBack : (Instr.mix .k2 .k0 .k1).wf = true := by decide

/-- A command that faults, one that does not, and a word that is none. -/
theorem witness_FaultEntryWritesOnlyTheStatusGroup :
    threeTracks.faulted = false ∧
    faultOf (issue 0x00000113 State.reset) = some (8, 1) ∧
    faultOf (issue 0x00000003 threeTracks) = some (7, 0) ∧
    (bufAfter (issue 0x00000013 threeTracks) .k0).isSome = true := by decide +kernel

theorem witness_FaultedStateIgnoresCommands :
    faultedState.faulted = true ∧ faultedState.snk = 0x01 :: [] ∧
    HostAction.popSnk ≠ .reset ∧
    hostAct .popSnk faultedState = .next (popSnk faultedState) :=
  ⟨rfl, rfl, by decide, rfl⟩

theorem witness_OnlyResetLeavesTheFaultedState :
    faultedState.faulted = true ∧
    step (facing [.act .reset] faultedState) = .next State.reset ∧
    State.reset.faulted = false := ⟨rfl, rfl, rfl⟩

theorem witness_EmptyOperandsRaiseEmptySlot :
    State.reset.slot .k2 = none ∧ SlotId.k0 ≠ .k1 ∧ SlotId.k0 ≠ .k2 ∧
    (withTrack 8000 [1]).slot .k0 ≠ none ∧ (withTrack 8000 [1]).slot .k1 = none ∧
    (withTrack 8000 [1]).time = none ∧ State.reset.spec = none := by decide +kernel

/-- Each destination holds something before, and the command commits. -/
theorem witness_DestinationsAreNeverChecked :
    bufAfter (exec (.decode .k0) { threeTracks with src := bytesDec1 }) .k0 =
      some ([1, -1, 32767, -32768].map F64.ofInt) ∧
    bufAfter (exec (.mix .k2 .k0 .k1) threeTracks) .k2 = some ([6, 1].map F64.ofInt) ∧
    faultOf (exec (.fft .k0) threeTracks) = none ∧
    faultOf (exec .ifft { threeTracks with spec := some [⟨F64.zero, F64.zero⟩] }) = none := by
  decide +kernel

theorem witness_EmptyBuffersRaiseDegenerateInput :
    threeTracks.slot .k2 = some (holding 8000 []) ∧ (holding 8000 []).buf = [] ∧
    { threeTracks with time := some [] }.time ≠ none ∧ SlotId.k0 ≠ .k1 ∧ SlotId.k0 ≠ .k2 ∧
    threeTracks.slot .k1 = some (holding 44100 [1, 1]) := by decide +kernel

/-- NMAX = 4: the four samples of V-DEC-1 just fit. -/
theorem witness_DecodeFillsTheSlot :
    let s := { withSrc bytesDec1 with cfg := ⟨⟨3, by decide⟩, .default, .default, .default⟩ }
    HeaderAccepted s ∧ announced s ≤ s.cfg.nmax ∧ s.cfg.nmax = 4 ∧
    44 + 2 * announced s ≤ s.src.length ∧ s.src.length = 52 := by
  unfold HeaderAccepted
  decide

/-- V-DEC-5, V-DEC-3, V-DEC-4, V-DEC-10, V-DEC-6. -/
theorem witness_DecodeFaultsInOrder :
    (withSrc (bytesDec1.take 43)).src.length < 44 ∧
    (44 ≤ (withSrc badWidth).src.length ∧ num16 (withSrc badWidth).src 34 ≠ 16) ∧
    (44 ≤ (withSrc badRate).src.length ∧ num16 (withSrc badRate).src 34 = 16 ∧
      num32 (withSrc badRate).src 28 = 0) ∧
    (HeaderAccepted (withSrc bytesDec1) ∧
      (⟨⟨2, by decide⟩, .default, .default, .default⟩ : Cfg).nmax < announced (withSrc bytesDec1)) ∧
    (HeaderAccepted (withSrc (bytesDec1.take 51)) ∧
      announced (withSrc (bytesDec1.take 51)) ≤ State.reset.cfg.nmax ∧
      (withSrc (bytesDec1.take 51)).src.length < 44 + 2 * announced (withSrc (bytesDec1.take 51))) := by
  unfold HeaderAccepted
  decide

/-- Both bounds of the range. -/
theorem witness_EncodeWritesTheContainer :
    (withTrack 8000 [-32768, 32767]).slot .k0 = some (holding 8000 [-32768, 32767]) ∧
    List.Forall₂ (fun (v : F64) (n : Int) => v.trunc = some n ∧ -32768 ≤ n ∧ n ≤ 32767)
      (holding 8000 [-32768, 32767]).buf [-32768, 32767] := by
  refine ⟨by decide +kernel, .cons (by decide +kernel) (.cons (by decide +kernel) .nil)⟩

/-- The first value above the range, after one that is in it. -/
theorem witness_EncodeRangeNamesTheLowestIndex :
    let c := holding 8000 [32767, 32768]
    (withTrack 8000 [32767, 32768]).slot .k0 = some c ∧ c.buf[1]? = some (F64.ofInt 32768) ∧
    (F64.ofInt 32768).trunc = some 32768 ∧ (32768 : Int) > 32767 ∧
    (∀ m < 1, ∀ u, c.buf[m]? = some u → ∃ r, u.trunc = some r ∧ -32768 ≤ r ∧ r ≤ 32767) := by
  refine ⟨by decide +kernel, by decide +kernel, by decide +kernel, by decide, ?_⟩
  intro m hm u hu
  obtain rfl : m = 0 := by omega
  cases hu
  exact ⟨32767, by decide +kernel⟩

theorem witness_DecodeThenEncodeIsTheIdentity :
    let s := withSrc bytesDec1
    HeaderAccepted s ∧ announced s ≤ s.cfg.nmax ∧ 44 + 2 * announced s ≤ s.src.length ∧
    num32 s.src 40 = 2 * announced s ∧ num32 s.src 4 = 36 + 2 * announced s := by
  unfold HeaderAccepted
  decide

theorem witness_FftWritesTheSpectrum :
    threeTracks.slot .k0 = some (holding 8000 [5]) ∧ (holding 8000 [5]).buf ≠ [] := by
  decide +kernel

theorem witness_IfftWritesTheTimeBuffer :
    { State.reset with spec := some [⟨F64.zero, F64.zero⟩] }.spec =
      some [⟨F64.zero, F64.zero⟩] := by decide

/-- A time buffer as long as the track, whose real parts are finite and so make a finite result. -/
theorem witness_ReconOverwritesWithRealParts :
    let s := { threeTracks with time := some [⟨F64.zero, .nan⟩] }
    s.slot .k0 = some (holding 8000 [5]) ∧ s.time = some [⟨F64.zero, .nan⟩] ∧
    (holding 8000 [5]).buf ≠ [] ∧ bufAfter (exec (.recon .k0) s) .k0 = some [F64.zero] ∧
    faultOf (exec (.recon .k1) { s with time := some [⟨F64.zero, F64.zero⟩, ⟨.nan, F64.zero⟩] }) =
      some (5, 1) := by decide +kernel

/-- The default transform pair gives back a list of one sample (V-FFT-3). -/
theorem witness_SpectralRoundTripKeepsTheBuffer :
    threeTracks.slot .k0 = some (holding 8000 [5]) ∧ (holding 8000 [5]).buf ≠ [] ∧
    threeTracks.cfg.num.record.RoundTrips (holding 8000 [5]).buf := by
  refine ⟨by decide +kernel, by decide +kernel, ?_⟩
  have h : threeTracks.cfg.num.record.idft
      (threeTracks.cfg.num.record.dft ((holding 8000 [5]).buf.map realCplx)) =
      [⟨F64.ofInt 5, F64.zero⟩] := by decide +kernel
  have hb : (holding 8000 [5]).buf = [F64.ofInt 5] := rfl
  unfold Num.RoundTrips
  rw [h, hb]
  refine .cons ⟨by decide +kernel, .inl ?_⟩ .nil
  rw [sub_self]
  norm_num

theorem witness_NumericsRecordsHaveTheirProperties :
    (F64.ofInt (-1)).le F64.zero = true ∧ (F64.zeroOf true).le F64.zero = true := by decide +kernel

/-- A finite result with and without coefficients, and one that is not finite (V-BQ-5, V-BQ-1). -/
theorem witness_BiquadsRunTheRecurrence :
    (withTrack 8000 [0, 0, 1000]).slot .k0 = some (holding 8000 [0, 0, 1000]) ∧
    (holding 8000 [0, 0, 1000]).buf ≠ [] ∧
    faultOf (exec (.bqlp .k0) (param (withTrack 8000 [0, 0, 1000]) 0 0x408F400000000000)) = none ∧
    faultOf (exec (.bqhp .k0) (param (withTrack 8000 [0, 0, 1000]) 0 0x7FF8000000000000)) =
      some (5, 2) ∧
    (withTrack 8000 []).cfg.bq = .default ∧ (freeTaps (withTrack 8000 [])).cfg.bq = .free 0 ∧
    (freeTaps (withTrack 8000 [0, 0, 1000])).slot .k0 = some (holding 8000 [0, 0, 1000]) := by
  decide +kernel

theorem witness_ShortBuffersPassThrough :
    threeTracks.slot .k1 = some (holding 44100 [1, 1]) ∧ (holding 44100 [1, 1]).buf ≠ [] ∧
    AllFinite (holding 44100 [1, 1]).buf ∧ (holding 44100 [1, 1]).buf.length ≤ 2 ∧
    (holding 8000 [1, 2, 3, 4, 5]).buf.length ≤ 5 ∧ AllFinite (holding 8000 [1, 2, 3, 4, 5]).buf ∧
    0 < (param threeTracks 0 1).p[0].toNat := by
  unfold AllFinite
  decide +kernel

/-- One tap, and one fewer than the samples (V-FIR-3, V-FIR-5). -/
theorem witness_FirlpConvolvesTheKernel :
    let s := param (withTrack 8000 [1, 2, 3]) 0 0x4059000000000000
    s.slot .k0 = some (holding 8000 [1, 2, 3]) ∧
    (F64.ofBits s.p[0]).gt ((rateOf (holding 8000 [1, 2, 3])).div (F64.ofNat 2)) = false ∧
    0 < (param s 1 1).p[1].toNat ∧ (param s 1 2).p[1].toNat < (holding 8000 [1, 2, 3]).buf.length ∧
    bufAfter (exec (.firlp .k0) (param s 1 1)) .k0 = some ([2, 3].map F64.ofInt) ∧
    s.cfg.fir = .default ∧ (freeTaps s).cfg.fir = .free 0 ∧
    (freeTaps s).slot .k0 = some (holding 8000 [1, 2, 3]) := by
  decide +kernel

/-- V-FIR-6: the first value above Nyquist, and Nyquist itself, with `M` 0 and `N`. -/
theorem witness_FirlpChecksCutoffThenLength :
    let c := holding 44100 [1, 2, 3]
    (withTrack 44100 [1, 2, 3]).slot .k0 = some c ∧ c.buf ≠ [] ∧
    (F64.ofBits 0x40D5888000000001).gt ((rateOf c).div (F64.ofNat 2)) = true ∧
    (F64.ofBits 0x40D5888000000000).gt ((rateOf c).div (F64.ofNat 2)) = false ∧
    (State.reset.p[1].toNat = 0 ∨ c.buf.length ≤ State.reset.p[1].toNat) ∧
    (c.buf.length ≤ (param State.reset 1 3).p[1].toNat) := by decide +kernel

/-- V-FIR-3. -/
theorem witness_FirlpWithOneTapDropsASample :
    let s := param (param (withTrack 8000 [1, 2, 3]) 0 0x4059000000000000) 1 1
    let c := holding 8000 [1, 2, 3]
    s.slot .k0 = some c ∧ 1 < c.buf.length ∧ AllFinite c.buf ∧
    (F64.ofBits s.p[0]).gt ((rateOf c).div (F64.ofNat 2)) = false ∧ s.p[1] = 1 ∧
    IsFirKernel s ((F64.ofBits s.p[0]).div (rateOf c)) 1
      (firTap s.cfg.num.record ((F64.ofBits s.p[0]).div (rateOf c)) 1) ∧
    (firTap s.cfg.num.record ((F64.ofBits s.p[0]).div (rateOf c)) 1 0).isFinite = true ∧
    (firTap s.cfg.num.record ((F64.ofBits s.p[0]).div (rateOf c)) 1 0).feq F64.zero = false := by
  unfold AllFinite
  refine ⟨by decide +kernel, by decide +kernel, by decide +kernel, by decide +kernel,
    by decide +kernel, ⟨fun _ _ _ => rfl, fun n h => ?_⟩, by decide +kernel, by decide +kernel⟩
  cases h

/-- A window of 0 and one of 1, on six samples, where one index is averaged. -/
theorem witness_RavgAveragesRawSamples :
    let s := withTrack 8000 [1, 2, 3, 4, 5, 6]
    s.slot .k0 = some (holding 8000 [1, 2, 3, 4, 5, 6]) ∧
    (holding 8000 [1, 2, 3, 4, 5, 6]).buf ≠ [] ∧ s.p[0].toNat = 0 ∧
    0 < (param s 0 1).p[0].toNat ∧
    bufAfter (exec (.ravg .k0) (param s 0 1)) .k0 = some ([1, 2, 3, 4, 5, 6].map F64.ofInt) := by
  decide +kernel

/-- V-HPF-2: a finite result on one, two and three samples. -/
theorem witness_Hpf2TakesSecondDifferences :
    (withTrack 8000 [5]).slot .k0 = some (holding 8000 [5]) ∧ (holding 8000 [5]).buf ≠ [] ∧
    bufAfter (exec (.hpf2 .k0) (withTrack 8000 [5])) .k0 = some ([0].map F64.ofInt) ∧
    bufAfter (exec (.hpf2 .k0) (withTrack 8000 [5, 7])) .k0 = some ([0, 0].map F64.ofInt) ∧
    bufAfter (exec (.hpf2 .k0) (withTrack 8000 [5, 5, 5])) .k0 = some ([0, 0, 0].map F64.ofInt) := by
  decide +kernel

/-- Both ends of the magnitude. -/
theorem witness_Hpf2IsExactOnIntegers :
    let q : List Int := [1125899906842623, -1125899906842623, 1125899906842623]
    (withTrack 8000 q).slot .k0 = some (holding 8000 q) ∧ q ≠ [] ∧ (∀ n ∈ q, |n| < 2 ^ 50) ∧
    (holding 8000 q).buf = q.map F64.ofInt := by decide +kernel

/-- A silent buffer and one whose only sound is negative. -/
theorem witness_NormScalesToTheTarget :
    (withTrack 8000 [0, -3]).slot .k0 = some (holding 8000 [0, -3]) ∧
    (holding 8000 [0, -3]).buf ≠ [] ∧ AllFinite (holding 8000 [0, -3]).buf ∧
    ¬ Silent (holding 8000 [0, -3]).buf ∧ Silent (holding 8000 [0, 0]).buf ∧
    AllFinite (holding 8000 [0, 0]).buf := by
  unfold AllFinite Silent
  decide +kernel

/-- V-NORM-4. -/
theorem witness_NormToMinusInfinitySilences :
    (withTrack 8000 [1, 2]).slot .k0 = some (holding 8000 [1, 2]) ∧
    AllFinite (holding 8000 [1, 2]).buf ∧ ¬ Silent (holding 8000 [1, 2]).buf ∧
    F64.ofBits (param State.reset 0 0xFFF0000000000000).p[0] = .inf true := by
  unfold AllFinite Silent
  decide +kernel

/-- V-COMP-1, V-COMP-4: the least lookahead, 1. -/
theorem witness_CompFollowsTheEnvelope :
    let s := compState [16384, 0]
    let c := holding 1000 [16384, 0]
    s.slot .k0 = some c ∧ c.buf ≠ [] ∧
    ((rateOf c).mul ((F64.ofBits s.p[4]).div (F64.ofNat 1000))).roundHalfAway = some 1 := by
  decide +kernel

/-- V-COMP-6. -/
theorem witness_CompPassesSilence :
    let s := compState [0, 0]
    let c := holding 1000 [0, 0]
    s.slot .k0 = some c ∧ c.buf ≠ [] ∧ Silent c.buf ∧
    ((rateOf c).mul ((F64.ofBits s.p[4]).div (F64.ofNat 1000))).roundHalfAway = some 1 ∧
    (linear s.cfg.num.record (F64.ofBits s.p[0])).gt
      ((linear s.cfg.num.record (F64.ofBits s.p[5])).div (F64.ofNat 2)) = true ∧
    (coeffOf s.cfg.num.record (F64.ofBits s.p[2]) (rateOf c)).isFinite = true ∧
    (coeffOf s.cfg.num.record (F64.ofBits s.p[3]) (rateOf c)).isFinite = true := by
  unfold Silent
  decide +kernel

/-- V-COMP-4: a lookahead of 0, one that rounds to 0 and one that is a NaN. -/
theorem witness_CompRefusesShortLookahead :
    let c := holding 1000 [1]
    (withTrack 1000 [1]).slot .k0 = some c ∧ c.buf ≠ [] ∧
    ((rateOf c).mul ((F64.ofBits 0).div (F64.ofNat 1000))).roundHalfAway = some 0 ∧
    ((rateOf c).mul ((F64.ofBits 0x3FD999999999999A).div (F64.ofNat 1000))).roundHalfAway = some 0 ∧
    ((rateOf c).mul ((F64.ofBits 0x7FF8000000000000).div (F64.ofNat 1000))).isFinite = false := by
  decide +kernel

/-- An envelope in each region for a threshold of 10 and a knee of 4, both edges of the middle one, and
a NaN. -/
theorem witness_KneeGainHasThreeRegions :
    let d := fun n : Int => (F64.ofInt n).sub (F64.ofInt 10)
    let hk := (F64.ofInt 4).div (F64.ofNat 2)
    (d 7).lt (F64.zero.sub hk) = true ∧ (d 8).lt (F64.zero.sub hk) = false ∧
    (d 8).abs.le hk = true ∧ (d 12).abs.le hk = true ∧ (d 13).abs.le hk = false ∧
    (d 13).gt hk = true ∧ (F64.nan.sub (F64.ofInt 10)).isNaN = true ∧ (d 8).isNaN = false ∧
    F64.zero.le hk = true := by decide +kernel

/-- Tracks of equal length and of unequal lengths. -/
theorem witness_MixSumsAndClips :
    SlotId.k2 ≠ .k0 ∧ SlotId.k2 ≠ .k1 ∧ threeTracks.slot .k0 = some (holding 8000 [5]) ∧
    threeTracks.slot .k1 = some (holding 44100 [1, 1]) ∧ (holding 8000 [5]).buf ≠ [] ∧
    (holding 44100 [1, 1]).buf ≠ [] ∧
    (holding 8000 [5]).buf.length < (holding 44100 [1, 1]).buf.length ∧
    (holding 8000 [5]).buf.length ≤ (holding 8000 [7]).buf.length := by decide +kernel

/-- A mix that commits, and the sums next to both bounds. -/
theorem witness_MixStaysInRange :
    AllFinite (holding 8000 [5]).buf ∧ AllFinite (holding 44100 [1, 1]).buf ∧
    bufAfter (exec (.mix .k2 .k0 .k1) threeTracks) .k2 = some ([6, 1].map F64.ofInt) ∧
    (F64.ofInt 32768).gt (F64.ofInt 32767) = true ∧ (F64.ofInt 32767).gt (F64.ofInt 32767) = false ∧
    (F64.ofInt (-32769)).lt (F64.ofInt (-32768)) = true ∧
    (F64.ofInt (-32768)).lt (F64.ofInt (-32768)) = false := by
  unfold AllFinite
  decide +kernel

/-- Every transform of a slot, and RECON, commits on a state: the default parameters of V-COMP-1, with
a window, or with a cutoff and one tap. -/
theorem witness_TransformsChangeOnlyTheirBuffer :
    let s := { compState [7, 7] with time := some [⟨F64.zero, F64.zero⟩] }
    s.faulted = false ∧
    (∀ i ∈ [Instr.recon .k0, .hpf2 .k0, .norm .k0, .comp .k0 false, .comp .k0 true, .ravg .k0,
        .bqlp .k0, .bqhp .k0], (bufAfter (exec i s) .k0).isSome = true) ∧
    (bufAfter (exec (.firlp .k0) (param (param s 1 1) 0 0x4059000000000000)) .k0).isSome = true := by
  decide +kernel

theorem witness_ContainerCommandsChangeOnlySlotAndStream :
    bufAfter (exec (.decode .k0) (withSrc bytesDec1)) .k0 =
      some ([1, -1, 32767, -32768].map F64.ofInt) ∧
    faultOf (exec (.encode .k2) threeTracks) = none ∧ threeTracks.faulted = false := by
  decide +kernel

theorem witness_MixFftIfftChangeOnlyTheirDestination :
    (bufAfter (exec (.mix .k2 .k0 .k1) threeTracks) .k2).isSome = true ∧
    faultOf (exec (.fft .k0) threeTracks) = none ∧
    faultOf (exec .ifft { threeTracks with spec := some [⟨F64.zero, F64.zero⟩] }) = none ∧
    threeTracks.faulted = false := by decide +kernel

theorem witness_NoCommandWritesParametersOrConfiguration :
    exec (.encode .k0) State.reset = .next (State.reset.raise 2 ⟨.emptySlot, 0⟩) := rfl

/-- COMP without makeup does not read `P[6]`. -/
theorem witness_CommandsReadOnlyTheirParameters :
    (6 : Fin 8) ∉ paramsRead (.comp .k0 false) ∧
    (bufAfter (exec (.comp .k0 false) (compState [16384])) .k0).isSome = true := by decide +kernel

/-- Two states that differ in another slot. -/
theorem witness_TransformsAreStateless :
    let s := withTrack 8000 [1, 4, 9]
    let s' := { s with k1 := some (holding 44100 [1]) }
    s.faulted = false ∧ s'.faulted = false ∧ s.slot .k0 = s'.slot .k0 ∧ s.p = s'.p ∧
    s.cfg = s'.cfg ∧ Instr.hpf2 .k0 ∈ slotTransforms .k0 ∧
    (bufAfter (exec (.hpf2 .k0) s) .k0).isSome = true ∧
    (bufAfter (exec (.hpf2 .k0) s') .k0).isSome = true := by decide +kernel

/-- V-MIX-2's kind: the destination held another header. -/
theorem witness_HeadersChangeOnlyByDecodeAndMix :
    let s := facing [.act (.issue 0x1230)] threeTracks
    (bufAfter (step s) .k2).isSome = true ∧ s.slot .k2 = some (holding 8000 []) ∧
    (match step s with
      | .next t => t.slot .k2
      | .fault _ => none
      | .refused _ => none) = some { holding 44100 [] with buf := [6, 1].map F64.ofInt } ∧
    header 44100 ≠ header 8000 := by decide +kernel

theorem witness_EveryStepKeepsTheInvariant :
    State.reset.Inv ∧ step State.reset = .next State.reset := by
  refine ⟨⟨?_, ?_, ?_, ?_, ?_⟩, rfl⟩
  · intro k c h
    cases k <;> cases h
  · intro v h
    cases h
  · intro v h
    cases h
  · exact fun _ => ⟨rfl, rfl, rfl⟩
  · intro h
    cases h

theorem witness_HostActionsDoWhatTheTableSays :
    (facing [.act (.setP 7 1)] State.reset).host = .act (.setP 7 1) :: [] ∧
    (facing [.act .popSnk] faultedState).snk = 0x01 :: [] ∧
    (facing [.act .popSnk] faultedState).host = .act .popSnk :: [] ∧
    State.reset.snk = [] ∧ State.reset.host = [] := by decide

/-- Offsets next to ports, and the last of the map. -/
theorem witness_PortsReachTheNamedActions :
    (0x01 ≠ 0x00 ∧ 0x01 ≠ 0x18 ∧ (∀ i : Fin 8, 0x01 ≠ 0x80 + 8 * i.val)) ∧
    (0xC0 ∉ [0x04, 0x08, 0x0C, 0x10, 0x1C, 0x20, 0x28, 0x30, 0x38, 0x40, 0x48, 0x50] ∧
      (∀ i : Fin 8, 0xC0 ≠ 0x80 + 8 * i.val)) ∧
    0xB8 = 0x80 + 8 * (7 : Fin 8).val := by decide

theorem witness_StatusAndLengthsAreViews :
    threeTracks.slot .k1 = some (holding 44100 [1, 1]) ∧ State.reset.slot .k1 = none ∧
    { State.reset with spec := some [] }.spec = some [] ∧ State.reset.spec = none ∧
    { State.reset with time := some [] }.time = some [] ∧ State.reset.time = none ∧ 6 ≤ 31 := by
  decide +kernel

/-- Ties, which go to the even neighbour, a value that is exact, and both sides of the overflow bound. -/
theorem witness_RoundingIsToNearestEven :
    F64.roundUnits false 1 2 = .fin false 0 0 ∧ F64.roundUnits true 3 2 = .fin true 0 2 ∧
    F64.roundUnits false 5 1 = .fin false 0 5 ∧
    (2 ^ 54 - 1) * 2 ^ 2044 - 1 < (2 ^ 54 - 1) * 2 ^ 2044 * 1 ∧
    F64.roundUnits false ((2 ^ 54 - 1) * 2 ^ 2044 - 1) 1 =
      .fin false ⟨2046, by decide⟩ (BitVec.allOnes 52) ∧
    F64.roundUnits true ((2 ^ 54 - 1) * 2 ^ 2044) 1 = .inf true := by decide +kernel

theorem witness_ArithmeticRoundsTheExactResult :
    let a := F64.ofInt 3
    let b := F64.ofInt (-2)
    a.isFinite = true ∧ b.isFinite = true ∧ a.units + b.units ≠ 0 ∧ a.units - b.units ≠ 0 ∧
    a.units * b.units ≠ 0 := by decide +kernel

theorem witness_SmallIntegersAreExact : |(-(2 ^ 53) : Int)| ≤ 2 ^ 53 := by decide

/-- The values of R122 and R213: a tie at a half. -/
theorem witness_TruncAndRoundOfFiniteValues :
    (F64.ofRat (-1) 2).isFinite = true ∧ (F64.ofRat (-1) 2).trunc = some 0 ∧
    (F64.ofRat (-1) 2).roundHalfAway = some (-1) ∧
    (F64.ofRat (-19) 10).trunc = some (-1) := by decide +kernel

/-- The least subnormal, -1, the greatest exponent, the
infinities, and NaN patterns; values, an infinity and a NaN to compare. -/
theorem witness_BitPatternsReadAndCompareAsBinary64 :
    (0x0000000000000001 : Word64).toNat = false.toNat * 2 ^ 63 + 0 * 2 ^ 52 + 1 ∧
    (0xBFF0000000000000 : Word64).toNat = true.toNat * 2 ^ 63 + 1023 * 2 ^ 52 + 0 ∧
    F64.ofBits 0xBFF0000000000000 = F64.ofInt (-1) ∧
    (0x7FEFFFFFFFFFFFFF : Word64).toNat = false.toNat * 2 ^ 63 + 2046 * 2 ^ 52 + (2 ^ 52 - 1) ∧
    (0xFFF0000000000000 : Word64).toNat = true.toNat * 2 ^ 63 + 2047 * 2 ^ 52 + 0 ∧
    (0x7FF0000000000001 : Word64).toNat = false.toNat * 2 ^ 63 + 2047 * 2 ^ 52 + 1 ∧
    (F64.ofInt 1).isFinite = true ∧ (F64.inf true).isNaN = false ∧ F64.nan.isNaN = true := by
  decide +kernel

end Sys2Proof.Tests
end

section
/-! PROOFS. Binary64 values and comparisons (00_scope R11, 10_state R31): the units of a finite value,
the comparisons as comparisons of units, and the fields of a 64-bit pattern. -/

namespace Sys2Proof

/-! ### Units of a finite value -/

theorem F64.units_fin (neg : Bool) (ex : Fin 2047) (frac : BitVec 52) :
    (F64.fin neg ex frac).units = (if neg then -1 else 1) * (F64.magUnits ex frac : Int) := by
  cases neg <;> simp [F64.units]

@[simp] theorem F64.natAbs_units_fin (neg : Bool) (ex : Fin 2047) (frac : BitVec 52) :
    (F64.fin neg ex frac).units.natAbs = F64.magUnits ex frac := by
  cases neg <;> simp [F64.units]

@[simp] theorem F64.isFinite_neg (a : F64) : a.neg.isFinite = a.isFinite := by cases a <;> rfl

@[simp] theorem F64.units_neg (a : F64) : a.neg.units = -a.units := by
  rcases a with _ | _ | ⟨s, ex, frac⟩
  · rfl
  · rfl
  · cases s <;> simp [F64.neg, F64.units]

/-! ### Comparisons -/

theorem F64.lt_iff_units {a b : F64} (ha : a.isFinite = true) (hb : b.isFinite = true) :
    a.lt b = true ↔ a.units < b.units := by
  obtain ⟨_, _, _, rfl⟩ := F64.isFinite_iff.mp ha
  obtain ⟨_, _, _, rfl⟩ := F64.isFinite_iff.mp hb
  exact decide_eq_true_iff

theorem F64.feq_iff_units {a b : F64} (ha : a.isFinite = true) (hb : b.isFinite = true) :
    a.feq b = true ↔ a.units = b.units := by
  obtain ⟨_, _, _, rfl⟩ := F64.isFinite_iff.mp ha
  obtain ⟨_, _, _, rfl⟩ := F64.isFinite_iff.mp hb
  exact decide_eq_true_iff

theorem F64.le_iff_lt_or_feq {a b : F64} : a.le b = true ↔ a.lt b = true ∨ a.feq b = true :=
  Bool.or_eq_true_iff

theorem F64.le_iff_units {a b : F64} (ha : a.isFinite = true) (hb : b.isFinite = true) :
    a.le b = true ↔ a.units ≤ b.units := by
  rw [F64.le_iff_lt_or_feq, F64.lt_iff_units ha hb, F64.feq_iff_units ha hb, le_iff_lt_or_eq]

/-- An infinity equals itself alone. -/
theorem F64.inf_feq_iff (neg : Bool) (a : F64) : F64.feq (.inf neg) a = true ↔ a = .inf neg := by
  cases a with
  | nan => simp [F64.feq]
  | inf s => simp [F64.feq, eq_comm (a := neg)]
  | fin s ex frac => simp [F64.feq]

theorem F64.feq_inf_iff (neg : Bool) (a : F64) : a.feq (.inf neg) = true ↔ a = .inf neg := by
  cases a <;> simp [F64.feq]

/-- `-Inf` is below every other number. -/
theorem F64.negInf_lt_iff {a : F64} (h : a.isNaN = false) :
    F64.lt (.inf true) a = true ↔ a ≠ .inf true := by
  cases a with
  | nan => cases h
  | inf s => cases s <;> simp [F64.lt]
  | fin s ex frac => simp [F64.lt]

/-- `+Inf` is above every other number. -/
theorem F64.lt_posInf_iff {a : F64} (h : a.isNaN = false) :
    a.lt (.inf false) = true ↔ a ≠ .inf false := by
  cases a with
  | nan => cases h
  | inf s => cases s <;> simp [F64.lt]
  | fin s ex frac => simp [F64.lt]

theorem F64.negInf_le {a : F64} (h : a.isNaN = false) : F64.le (.inf true) a = true := by
  rw [F64.le_iff_lt_or_feq, F64.negInf_lt_iff h, F64.inf_feq_iff]
  exact ne_or_eq a _

theorem F64.le_posInf {a : F64} (h : a.isNaN = false) : a.le (.inf false) = true := by
  rw [F64.le_iff_lt_or_feq, F64.lt_posInf_iff h, F64.feq_inf_iff]
  exact ne_or_eq a _

theorem F64.not_lt_negInf (a : F64) : a.lt (.inf true) = false := by
  cases a <;> simp [F64.lt]

theorem F64.not_posInf_lt (a : F64) : F64.lt (.inf false) a = false := by
  cases a <;> simp [F64.lt]

theorem F64.isNaN_iff {a : F64} : a.isNaN = true ↔ a = .nan := by
  cases a <;> simp [F64.isNaN]

/-- A comparison with a NaN is false. -/
theorem F64.compare_nan {a b : F64} (h : a.isNaN = true ∨ b.isNaN = true) :
    a.lt b = false ∧ a.feq b = false := by
  rcases h with h | h
  · rw [F64.isNaN_iff.mp h]
    exact ⟨rfl, rfl⟩
  · rw [F64.isNaN_iff.mp h]
    cases a <;> exact ⟨rfl, rfl⟩

/-! ### Bit patterns -/

section Fields
variable {neg : Bool} {ex frac : Nat} {w : Word64} (hfrac : frac < 2 ^ 52)
  (hw : w.toNat = neg.toNat * 2 ^ 63 + ex * 2 ^ 52 + frac)
include hw

theorem bitPattern_fraction : w.extractLsb' 0 52 = BitVec.ofNat 52 frac := by
  apply BitVec.eq_of_toNat_eq
  rw [BitVec.extractLsb'_toNat, BitVec.toNat_ofNat, hw, Nat.shiftRight_zero]
  omega

include hfrac

theorem bitPattern_exponent (hex : ex ≤ 2047) : (w.extractLsb' 52 11).toNat = ex := by
  rw [BitVec.extractLsb'_toNat, hw, Nat.shiftRight_eq_div_pow]
  omega

theorem bitPattern_sign (hex : ex ≤ 2047) : w.getLsbD 63 = neg := by
  rw [BitVec.getLsbD, Nat.testBit_eq_decide_div_mod_eq, hw]
  cases neg with
  | false => exact decide_eq_false (by rw [Bool.toNat_false]; omega)
  | true => exact decide_eq_true (by rw [Bool.toNat_true]; omega)

theorem F64.ofBits_finite (h : ex < 2047) :
    F64.ofBits w = .fin neg ⟨ex, h⟩ (BitVec.ofNat 52 frac) := by
  have hex : ex ≤ 2047 := by omega
  simp only [F64.ofBits, bitPattern_exponent hfrac hw hex, bitPattern_sign hfrac hw hex,
    bitPattern_fraction hw, h, dif_pos]

theorem F64.ofBits_special (h : ex = 2047) :
    F64.ofBits w = if frac = 0 then .inf neg else .nan := by
  have hex : ex ≤ 2047 := by omega
  have h0 : BitVec.ofNat 52 frac = 0 ↔ frac = 0 := by
    rw [← BitVec.toNat_inj, BitVec.toNat_ofNat, Nat.mod_eq_of_lt hfrac]
    rfl
  simp only [F64.ofBits, bitPattern_exponent hfrac hw hex, bitPattern_sign hfrac hw hex,
    bitPattern_fraction hw, h, h0, lt_irrefl, dif_neg, not_false_iff]

end Fields

/-- A subnormal counts its fraction, and a normal value has a leading 1. -/
theorem F64.magUnits_ofNat {ex frac : Nat} (h : ex < 2047) (hfrac : frac < 2 ^ 52) :
    F64.magUnits ⟨ex, h⟩ (BitVec.ofNat 52 frac) =
      if ex = 0 then frac else (2 ^ 52 + frac) * 2 ^ (ex - 1) := by
  simp only [F64.magUnits, F64.significand, BitVec.toNat_ofNat, Nat.mod_eq_of_lt hfrac]
  split_ifs with h0
  · rw [h0, Nat.zero_sub, pow_zero, mul_one]
  · rfl

/-- Settles O60: the fields of the pattern are read off its number, and each comparison is one of
units, of an infinity, or with a NaN. -/
theorem bitPatternsReadAndCompareAsBinary64 :
    Obligations.BitPatternsReadAndCompareAsBinary64 := by
  refine ⟨fun neg ex frac w hfrac hw => ⟨fun h => ?_, fun h h0 => ?_, fun h h0 => ?_⟩,
    F64.unitsPerOne_eq, fun a b ha hb => ?_, fun a h => ?_, fun _ _ => ⟨rfl, rfl⟩, fun a b h => ?_⟩
  · have hv := F64.ofBits_finite hfrac hw h
    refine ⟨hv, ?_⟩
    rw [hv, F64.units_fin, F64.magUnits_ofNat h hfrac]
    push_cast
    rfl
  · rw [F64.ofBits_special hfrac hw h, if_pos h0]
  · rw [F64.ofBits_special hfrac hw h, if_neg h0]
  · exact ⟨F64.lt_iff_units ha hb, F64.feq_iff_units ha hb, F64.le_iff_units ha hb,
      F64.lt_iff_units hb ha⟩
  · exact ⟨F64.negInf_lt_iff h, F64.negInf_le h, F64.lt_posInf_iff h, F64.le_posInf h,
      F64.not_lt_negInf a, F64.not_posInf_lt a,
      fun neg => ⟨F64.inf_feq_iff neg a, F64.feq_inf_iff neg a⟩⟩
  · obtain ⟨hlt, hfeq⟩ := F64.compare_nan h
    refine ⟨hlt, hfeq, ?_, (F64.compare_nan h.symm).1⟩
    rw [F64.le, hlt, hfeq]
    rfl

end Sys2Proof
end

section
/-! PROOFS. The four operations and `float(n)` (00_scope R11): each is one rounding of the exact
value, and integers up to `2^53` are exact. -/

namespace Sys2Proof

/-! ### One rounding -/

/-- The exact product: the product of the magnitudes, negative when the signs differ. -/
theorem F64.units_mul_units (s t : Bool) (ex ey : Fin 2047) (fx fy : BitVec 52) :
    (F64.fin s ex fx).units * (F64.fin t ey fy).units =
      (if s != t then -1 else 1) * ((F64.magUnits ex fx * F64.magUnits ey fy : Nat) : Int) := by
  rw [F64.units_fin, F64.units_fin, Nat.cast_mul]
  cases s <;> cases t <;> simp

/-- A product that is not zero is negative exactly when the signs differ. -/
theorem F64.decide_units_mul_neg {s t : Bool} {ex ey : Fin 2047} {fx fy : BitVec 52}
    (h : (F64.fin s ex fx).units * (F64.fin t ey fy).units ≠ 0) :
    decide ((F64.fin s ex fx).units * (F64.fin t ey fy).units < 0) = (s != t) := by
  rw [F64.units_mul_units] at h ⊢
  generalize F64.magUnits ex fx * F64.magUnits ey fy = m at h ⊢
  generalize (s != t) = c at h ⊢
  cases c with
  | false => exact decide_eq_false (by simp only [Bool.false_eq_true, if_false]; omega)
  | true => exact decide_eq_true (by simp only [if_true] at h ⊢; omega)

theorem F64.add_eq_roundUnits {a b : F64} (ha : a.isFinite = true) (hb : b.isFinite = true)
    (h : a.units + b.units ≠ 0) :
    a.add b = F64.roundUnits (decide (a.units + b.units < 0)) (a.units + b.units).natAbs 1 := by
  obtain ⟨_, _, _, rfl⟩ := F64.isFinite_iff.mp ha
  obtain ⟨_, _, _, rfl⟩ := F64.isFinite_iff.mp hb
  exact if_neg h

theorem F64.sub_eq_roundUnits {a b : F64} (ha : a.isFinite = true) (hb : b.isFinite = true)
    (h : a.units - b.units ≠ 0) :
    a.sub b = F64.roundUnits (decide (a.units - b.units < 0)) (a.units - b.units).natAbs 1 := by
  have hu : a.units - b.units = a.units + b.neg.units := by rw [F64.units_neg, sub_eq_add_neg]
  rw [hu] at h ⊢
  exact F64.add_eq_roundUnits ha ((F64.isFinite_neg b).trans hb) h

theorem F64.mul_eq_roundUnits {a b : F64} (ha : a.isFinite = true) (hb : b.isFinite = true)
    (h : a.units * b.units ≠ 0) :
    a.mul b = F64.roundUnits (decide (a.units * b.units < 0)) (a.units * b.units).natAbs
      F64.unitsPerOne := by
  obtain ⟨_, _, _, rfl⟩ := F64.isFinite_iff.mp ha
  obtain ⟨_, _, _, rfl⟩ := F64.isFinite_iff.mp hb
  rw [F64.decide_units_mul_neg h, Int.natAbs_mul, F64.natAbs_units_fin, F64.natAbs_units_fin]
  rfl

theorem F64.div_eq_roundUnits {a b : F64} (ha : a.isFinite = true) (hb : b.isFinite = true)
    (h : a.units * b.units ≠ 0) :
    a.div b = F64.roundUnits (decide (a.units * b.units < 0)) (a.units.natAbs * F64.unitsPerOne)
      b.units.natAbs := by
  obtain ⟨_, _, _, rfl⟩ := F64.isFinite_iff.mp ha
  obtain ⟨_, ey, fy, rfl⟩ := F64.isFinite_iff.mp hb
  have hb0 : F64.magUnits ey fy ≠ 0 := by
    rw [← F64.natAbs_units_fin]
    exact Int.natAbs_ne_zero.mpr (mul_ne_zero_iff.mp h).2
  rw [F64.decide_units_mul_neg h, F64.natAbs_units_fin, F64.natAbs_units_fin]
  exact if_neg hb0

/-- Settles O57: one lemma per operation; the sign of a product or quotient is that of the product of
the units. -/
theorem arithmeticRoundsTheExactResult : Obligations.ArithmeticRoundsTheExactResult :=
  fun _ _ ha hb => ⟨F64.add_eq_roundUnits ha hb, F64.sub_eq_roundUnits ha hb,
    F64.mul_eq_roundUnits ha hb, F64.div_eq_roundUnits ha hb⟩

/-! ### Integers up to `2^53` -/

/-- `F64.ofInt_exact` with the bound `2^53` itself, the power of two with biased exponent
1076. -/
theorem F64.ofInt_exact_le {n : Int} (h : |n| ≤ 2 ^ 53) :
    ∃ ex frac, F64.ofInt n = .fin (decide (n < 0)) ex frac ∧
      F64.magUnits ex frac = n.natAbs * F64.unitsPerOne := by
  have habs : n.natAbs < 2 ^ 53 ∨ n = 2 ^ 53 ∨ n = -2 ^ 53 := by
    have := abs_le.mp h
    omega
  rcases habs with hlt | rfl | rfl
  · exact F64.ofInt_exact hlt
  · exact ⟨1076, 0, by decide +kernel⟩
  · exact ⟨1076, 0, by decide +kernel⟩

/-- A magnitude with the sign of `n` put back is `n`. -/
theorem ite_neg_natAbs (n : Int) :
    (if decide (n < 0) = true then -(n.natAbs : Int) else (n.natAbs : Int)) = n := by
  simp only [decide_eq_true_iff]
  split_ifs <;> omega

section Whole
variable {n : Int} {ex : Fin 2047} {frac : BitVec 52}
  (h : F64.magUnits ex frac = n.natAbs * F64.unitsPerOne)
include h

theorem F64.units_of_whole : (F64.fin (decide (n < 0)) ex frac).units = n * F64.unitsPerOne := by
  conv_rhs => rw [← ite_neg_natAbs n]
  simp only [F64.units, h, Nat.cast_mul]
  split_ifs
  · exact (neg_mul _ _).symm
  · rfl

theorem F64.trunc_of_whole : (F64.fin (decide (n < 0)) ex frac).trunc = some n := by
  simp only [F64.trunc, h, Nat.mul_div_cancel _ F64.unitsPerOne_pos, ite_neg_natAbs]

theorem F64.roundHalfAway_of_whole : (F64.fin (decide (n < 0)) ex frac).roundHalfAway = some n := by
  have hpos := F64.unitsPerOne_pos
  have hdiv : (2 * (n.natAbs * F64.unitsPerOne) + F64.unitsPerOne) / (2 * F64.unitsPerOne) =
      n.natAbs := by
    rw [show 2 * (n.natAbs * F64.unitsPerOne) + F64.unitsPerOne =
        F64.unitsPerOne + 2 * F64.unitsPerOne * n.natAbs by ring,
      Nat.add_mul_div_left _ _ (by omega), Nat.div_eq_of_lt (by omega), Nat.zero_add]
  simp only [F64.roundHalfAway, h, hdiv, ite_neg_natAbs]

end Whole

/-- Settles O58: `float(n)` has the magnitude and the sign of `n`, from which each view is read. -/
theorem smallIntegersAreExact : Obligations.SmallIntegersAreExact := by
  intro n h
  obtain ⟨ex, frac, hv, hm⟩ := F64.ofInt_exact_le h
  rw [hv]
  exact ⟨rfl, F64.units_of_whole hm, F64.trunc_of_whole hm, F64.roundHalfAway_of_whole hm⟩

end Sys2Proof
end

section
/-! PROOFS. The properties of 00_scope R13 that are imposed on every numerics record. -/

namespace Sys2Proof

theorem F64.zero_le_one : F64.zero.le F64.one = true := by decide +kernel

/-- Every record a block can be built with is a raw one with the properties imposed. -/
theorem NumSel.record_eq_ofRaw (sel : NumSel) : ∃ r, sel.record = Num.ofRaw r := by
  cases sel
  · exact ⟨_, rfl⟩
  · exact ⟨_, rfl⟩

@[simp] theorem trigField_nan (f : F64 → F64) : trigField f .nan = .nan := rfl
@[simp] theorem trigField_inf (f : F64 → F64) (neg : Bool) : trigField f (.inf neg) = .nan := rfl
@[simp] theorem expField_nan (f : F64 → F64) : expField f .nan = .nan := rfl
@[simp] theorem expField_negInf (f : F64 → F64) : expField f (.inf true) = F64.zero := rfl
@[simp] theorem expField_posInf (f : F64 → F64) : expField f (.inf false) = .inf false := rfl
@[simp] theorem pow10Field_nan (f : F64 → F64) : pow10Field f .nan = .nan := rfl
@[simp] theorem pow10Field_negInf (f : F64 → F64) : pow10Field f (.inf true) = F64.zero := rfl
@[simp] theorem pow10Field_posInf (f : F64 → F64) : pow10Field f (.inf false) = .inf false := rfl

/-- NUM-POW10-ZERO: at either zero. -/
@[simp] theorem pow10Field_zeroOf (f : F64 → F64) (neg : Bool) :
    pow10Field f (F64.zeroOf neg) = F64.one := by
  have h : F64.magUnits 0 0 = 0 := by decide
  simp only [F64.zeroOf, pow10Field, h, if_true]

/-- NUM-EXP-RANGE: a raw result out of the range has been replaced by 1. -/
theorem expField_range (f : F64 → F64) {v : F64} (hv : v.le F64.zero = true) :
    F64.zero.le (expField f v) = true ∧ (expField f v).le F64.one = true := by
  cases v with
  | nan => cases hv
  | inf neg =>
    cases neg
    · cases hv
    · exact ⟨(by decide : F64.zero.le F64.zero = true), F64.zero_le_one⟩
  | fin s ex frac =>
    simp only [expField, hv, Bool.true_and]
    split_ifs with hr
    · exact ⟨F64.zero_le_one, by decide +kernel⟩
    · simpa using hr

/-- Settles O26: every record is a raw one with the properties imposed field by field. -/
theorem numericsRecordsHaveTheirProperties : Obligations.NumericsRecordsHaveTheirProperties := by
  intro sel
  obtain ⟨r, hr⟩ := sel.record_eq_ofRaw
  simp only [hr]
  refine ⟨?_, ?_, ?_, ?_, ?_, ?_, ?_, ?_, ?_, ?_, ?_, fun x => ?_, fun x => ?_⟩
  · rfl
  · rfl
  · exact pow10Field_zeroOf r.pow10 false
  · exact pow10Field_zeroOf r.pow10 true
  · exact pow10Field_negInf r.pow10
  · exact expField_negInf r.exp
  · exact fun v hv => expField_range r.exp hv
  · simp [Num.ofRaw]
  · simp [Num.ofRaw]
  · exact expField_posInf r.exp
  · exact pow10Field_posInf r.pow10
  · rw [← hr, Machine.length_dft]
  · rw [← hr, Machine.length_idft]

end Sys2Proof
end

section
/-! PROOFS. Rounding is to nearest, ties to even (00_scope R11). A result is a significand `n` times
the spacing `2^e` of the format at the quotient of units; every finite value is a multiple of that
spacing, or lies below `2^52` spacings while the quotient does not. -/

namespace Sys2Proof

open Sys2Proof.Claims

/-! ### The integer rounding is nearest -/

/-- No integer is nearer to the quotient than the rounded one, and another that is as near makes a
tie, which goes to the even one. -/
theorem nearestEven_nearest {num den : Nat} (h : 0 < den) (k : Nat) :
    |((nearestEven num den * den : Nat) - num : Int)| ≤ |((k * den : Nat) - num : Int)| ∧
      (|((nearestEven num den * den : Nat) - num : Int)| = |((k * den : Nat) - num : Int)| →
        k ≠ nearestEven num den → nearestEven num den % 2 = 0) := by
  have hnear := nearestEven_near (num := num) h
  have htie := nearestEven_tie (num := num) h
  generalize nearestEven num den = n at *
  have hgap : k = n ∨ k * den + den ≤ n * den ∨ n * den + den ≤ k * den := by
    rw [← Nat.succ_mul, ← Nat.succ_mul]
    rcases Nat.lt_trichotomy k n with hk | hk | hk
    · exact .inr (.inl (Nat.mul_le_mul_right _ hk))
    · exact .inl hk
    · exact .inr (.inr (Nat.mul_le_mul_right _ hk))
  simp only [Int.abs_eq_natAbs]
  rcases hgap with rfl | hgap
  · exact ⟨le_rfl, fun _ hne => absurd rfl hne⟩
  · omega

/-! ### Where the format ends -/

theorem pow_le_pow_mul_pow_iff (c a b : Nat) : 2 ^ c ≤ 2 ^ a * 2 ^ b ↔ c ≤ a + b := by
  rw [← pow_add, Nat.pow_le_pow_iff_right (by norm_num)]

theorem pow_mul_pow_le_pow_iff (a b c : Nat) : 2 ^ a * 2 ^ b ≤ 2 ^ c ↔ a + b ≤ c := by
  rw [← pow_add, Nat.pow_le_pow_iff_right (by norm_num)]

/-- Packing overflows from `2^2098` units on. -/
theorem F64.pack_eq_inf_iff {neg : Bool} {n e : Nat} (hn : n ≤ 2 ^ 53) (he : 2 ^ 52 ≤ n ∨ e = 0) :
    F64.pack neg n e = .inf neg ↔ 2 ^ 2098 ≤ n * 2 ^ e := by
  simp only [F64.pack]
  split_ifs with h1 h2 h3 h3
  · have hlt : n * 2 ^ e < 2 ^ 52 * 2 ^ e := Nat.mul_lt_mul_of_pos_right h1 (by positivity)
    have hle := (pow_mul_pow_le_pow_iff 52 e 2098).mpr (by omega)
    exact iff_of_false (by simp) (hlt.trans_le hle).not_ge
  · have hlt : n * 2 ^ e < 2 ^ 53 * 2 ^ e := Nat.mul_lt_mul_of_pos_right h2 (by positivity)
    have hle := (pow_mul_pow_le_pow_iff 53 e 2098).mpr (by omega)
    exact iff_of_false (by simp) (hlt.trans_le hle).not_ge
  · have hle : 2 ^ 52 * 2 ^ e ≤ n * 2 ^ e := Nat.mul_le_mul_right _ (by omega)
    exact iff_of_true rfl (((pow_le_pow_mul_pow_iff 2098 52 e).mpr (by omega)).trans hle)
  · rw [show n = 2 ^ 53 by omega, pow_le_pow_mul_pow_iff]
    exact iff_of_false (by simp) (by omega)
  · rw [show n = 2 ^ 53 by omega, pow_le_pow_mul_pow_iff]
    exact iff_of_true rfl (by omega)

/-- Rounding reaches an even integer from half below it on. -/
theorem le_nearestEven_iff {num den m : Nat} (h : 0 < den) (hm : m % 2 = 0) :
    m ≤ nearestEven num den ↔ 2 * (m * den) ≤ 2 * num + den := by
  obtain ⟨hlo, hhi⟩ := nearestEven_near (num := num) h
  have htie := nearestEven_tie (num := num) h
  generalize nearestEven num den = n at *
  constructor
  · intro hle
    have := Nat.mul_le_mul_right den hle
    omega
  · intro hnum
    by_contra hlt
    have hstep : (n + 1) * den ≤ m * den := Nat.mul_le_mul_right _ (by omega)
    have hle : m ≤ n + 1 := Nat.le_of_mul_le_mul_right (by rw [Nat.succ_mul]; omega) h
    rw [Nat.succ_mul] at hstep
    omega

/-- Half a spacing above the greatest finite value, in the form `le_nearestEven_iff` gives it. -/
theorem overflow_bound_iff (num den : Nat) :
    (2 ^ 54 - 1) * 2 ^ 2044 * den ≤ num ↔
      2 * (2 ^ 53 * (den * 2 ^ 2045)) ≤ 2 * num + den * 2 ^ 2045 := by
  rw [pow_succ 2 2044]
  generalize (2 : Nat) ^ 2044 = u
  rw [show den * (u * 2) = 2 * (u * den) by ring, Nat.mul_assoc]
  omega

/-- Rounding overflows from half a spacing above the greatest finite value on: below the top spacing
`2^2045` no quotient reaches that, above it each one does, and at it the rounded significand
decides. -/
theorem F64.roundUnits_eq_inf_iff (neg : Bool) {num den : Nat} (h : 0 < den) :
    F64.roundUnits neg num den = .inf neg ↔ (2 ^ 54 - 1) * 2 ^ 2044 * den ≤ num := by
  obtain ⟨hn53, hn52⟩ := F64.rounded_bounds (num := num) (den := den) rfl
  obtain ⟨hqhi, hqlo⟩ := F64.spacing_bounds (q := num / den) rfl
  rw [F64.roundUnits, F64.pack_eq_inf_iff hn53 hn52]
  generalize (num / den).log2 - 52 = e at *
  rcases Nat.lt_trichotomy e 2045 with he | rfl | he
  · refine iff_of_false (fun hle => ?_) (fun hle => ?_)
    · have := (pow_le_pow_mul_pow_iff 2098 53 e).mp (hle.trans (Nat.mul_le_mul_right _ hn53))
      omega
    · have hpow : (2 : Nat) ^ e ≤ 2 ^ 2044 := pow_le_pow_right₀ one_le_two (Nat.le_of_lt_succ he)
      rw [← Nat.le_div_iff_mul_le h] at hle
      generalize (2 : Nat) ^ 2044 = u at hle hpow
      omega
  · rw [overflow_bound_iff, ← le_nearestEven_iff (by positivity) (by norm_num),
      show 2098 = 53 + 2045 from rfl, pow_add, Nat.mul_le_mul_right_iff (by positivity)]
  · have htop : 2 ^ 2098 ≤ 2 ^ 52 * 2 ^ e := (pow_le_pow_mul_pow_iff 2098 52 e).mpr (by omega)
    refine iff_of_true (htop.trans (Nat.mul_le_mul_right _ (hn52.resolve_right (by omega)))) ?_
    rw [← Nat.le_div_iff_mul_le h]
    calc (2 ^ 54 - 1) * 2 ^ 2044 ≤ 2 ^ 54 * 2 ^ 2044 := Nat.mul_le_mul_right _ (Nat.sub_le _ _)
      _ ≤ 2 ^ 2098 := (pow_mul_pow_le_pow_iff 54 2044 2098).mpr le_rfl
      _ ≤ 2 ^ 52 * 2 ^ e := htop
      _ ≤ num / den := hqlo.resolve_right (by omega)

/-! ### The nearest finite value -/

theorem F64.significand_lt (ex : Fin 2047) (frac : BitVec 52) :
    F64.significand ex frac < 2 ^ 53 := by
  have := frac.isLt
  unfold F64.significand
  split_ifs <;> omega

/-- A finite value is a multiple of a spacing, or the spacing is not the least and the value is below
`2^52` spacings. -/
theorem F64.magUnits_multiple_or_lt (ex : Fin 2047) (frac : BitVec 52) (e : Nat) :
    (∃ k, F64.magUnits ex frac = k * 2 ^ e) ∨
      0 < e ∧ F64.magUnits ex frac < 2 ^ 52 * 2 ^ e := by
  rcases Nat.lt_or_ge (ex.val - 1) e with he | he
  · refine .inr ⟨by omega, ?_⟩
    calc F64.magUnits ex frac < 2 ^ 53 * 2 ^ (ex.val - 1) :=
          Nat.mul_lt_mul_of_pos_right (F64.significand_lt ex frac) (by positivity)
      _ = 2 ^ 52 * 2 ^ (ex.val - 1 + 1) := by ring
      _ ≤ 2 ^ 52 * 2 ^ e := Nat.mul_le_mul_left _ (Nat.pow_le_pow_right (by norm_num) he)
  · left
    refine ⟨F64.significand ex frac * 2 ^ (ex.val - 1 - e), ?_⟩
    rw [F64.magUnits, Nat.mul_assoc, ← pow_add, Nat.sub_add_cancel he]

/-- An even significand is packed into an even fraction. -/
theorem F64.pack_even {neg s : Bool} {n e : Nat} {ex : Fin 2047} {frac : BitVec 52}
    (hn : n ≤ 2 ^ 53) (heven : n % 2 = 0) (h : F64.pack neg n e = .fin s ex frac) :
    frac.toNat % 2 = 0 := by
  simp only [F64.pack] at h
  split_ifs at h <;> cases h <;> rw [BitVec.toNat_ofNat] <;> omega

/-- No finite value is nearer to the quotient than the rounded one, and another that is as near means
an even significand. -/
theorem F64.roundUnits_nearest {neg s : Bool} {num den : Nat} (hden : 0 < den)
    {ex ey : Fin 2047} {frac fy : BitVec 52} (h : F64.roundUnits neg num den = .fin s ex frac) :
    |((F64.magUnits ex frac * den : Nat) - num : Int)| ≤
        |((F64.magUnits ey fy * den : Nat) - num : Int)| ∧
      (|((F64.magUnits ex frac * den : Nat) - num : Int)| =
          |((F64.magUnits ey fy * den : Nat) - num : Int)| →
        F64.magUnits ey fy ≠ F64.magUnits ex frac → frac.toNat % 2 = 0) := by
  have hmag := (F64.magUnits_roundUnits h).2
  have heven := F64.pack_even (F64.rounded_bounds rfl).1 (h := h)
  obtain ⟨-, hqlo⟩ := F64.spacing_bounds (q := num / den) rfl
  have hnear := nearestEven_nearest (num := num) (den := den * 2 ^ ((num / den).log2 - 52))
    (by positivity)
  have hgap := F64.magUnits_multiple_or_lt ey fy ((num / den).log2 - 52)
  generalize (num / den).log2 - 52 = e at *
  generalize nearestEven num (den * 2 ^ e) = n at *
  have hscale (k : Nat) : k * (den * 2 ^ e) = k * 2 ^ e * den := by ring
  simp only [hscale, ← hmag] at hnear
  rcases hgap with ⟨k, hk⟩ | ⟨he, hlt⟩
  · rw [hk]
    obtain ⟨hle, htie⟩ := hnear k
    refine ⟨hle, fun heq hne => heven (htie heq ?_)⟩
    rintro rfl
    exact hne hmag.symm
  · have hnum : 2 ^ 52 * 2 ^ e * den ≤ num :=
      (Nat.le_div_iff_mul_le hden).mp (hqlo.resolve_right (by omega))
    have hbelow := Nat.mul_lt_mul_of_pos_right hlt hden
    have hle := (hnear (2 ^ 52)).1
    simp only [Int.abs_eq_natAbs] at hle ⊢
    omega

/-- Settles O56: the bound decides which kind the result is, and a finite one is the nearest. -/
theorem roundingIsToNearestEven : Obligations.RoundingIsToNearestEven := by
  intro neg num den hden
  have hinf := F64.roundUnits_eq_inf_iff neg (num := num) hden
  refine ⟨fun hnum => ?_, hinf.mpr⟩
  obtain h | ⟨ex, frac, h⟩ := F64.roundUnits_cases neg num den
  · exact absurd (hinf.mp h) (Nat.not_le.mpr hnum)
  · refine ⟨ex, frac, h, fun v hv => ?_⟩
    obtain ⟨s, ey, fy, rfl⟩ := F64.isFinite_iff.mp hv
    simp only [magnitude, F64.natAbs_units_fin, ← Nat.cast_mul]
    exact F64.roundUnits_nearest hden h

end Sys2Proof
end

section
/-! PROOFS. What one step can do: everything a command commits, everything a host action that is no
command does, and the moves that issue a command. -/

namespace Sys2Proof.Machine

open Sys2Proof.Claims

/-! ### What a command commits -/

/-- Everything a command can commit in state `s`, and what is known of it: DECODE and MIX write a
whole container, ENCODE frees a slot, FFT and IFFT write a complex buffer, and a transform writes the
buffer of a slot that stays valid. -/
inductive Commits (s : State) : Instr → State → Prop
  | decode (d : SlotId) (c : Container) (n : Nat) (hc : c.Ok s.cfg.nmax) :
    Commits s (.decode d) ((s.srcDrop n).setSlot d (some c))
  | encode (d : SlotId) (bytes : List Byte) :
    Commits s (.encode d) ((s.snkWrite bytes).setSlot d none)
  | mix (d a b : SlotId) (k k' : SlotId) (longer shorter : Container)
    (hl : s.slot k = some longer) (hs : s.slot k' = some shorter) :
    Commits s (.mix d a b) (s.setSlot d (some (mixContainer longer shorter)))
  | fft (d : SlotId) (c : Container) (v : List Cplx) (hc : s.slot d = some c) (hne : c.buf ≠ [])
    (hv : v.length = c.buf.length) : Commits s (.fft d) { s with spec := some v }
  | ifft (x v : List Cplx) (hx : s.spec = some x) (hv : v.length = x.length) :
    Commits s .ifft { s with time := some v }
  | transform (i : Instr) (d : SlotId) (c : Container) (y : List F64)
    (hi : i = .recon d ∨ i ∈ slotTransforms d) (hc : s.slot d = some c) (hy : AllFinite y)
    (hlen : y.length ≤ max c.buf.length (cplxLen s.time)) :
    Commits s i (s.setBuf d c y)

theorem Transforms.commits {d : SlotId} {s t : State} {len : Nat → Nat} (h : Transforms d s t len)
    (hlen : ∀ n, len n ≤ max n (cplxLen s.time)) {i : Instr}
    (hi : i = .recon d ∨ i ∈ slotTransforms d := by simp [slotTransforms]) : Commits s i t := by
  obtain ⟨c, y, hc, -, hy, hn, rfl⟩ := h
  exact .transform i d c y hi hc hy (hn.trans_le (hlen _))

/-- The container DECODE makes is one the invariant allows (40_container R113, R114). -/
theorem decodeBody_commits {d : SlotId} {s t : State} (h : decodeBody d s = .ok t) :
    Commits s (.decode d) t := by
  obtain ⟨hbits, hrate, hcount, hneed, rfl⟩ := decodeBody_ok h
  refine .decode d _ _ ⟨?_, allFinite_decodeFrames _, hbits, hrate, rfl⟩
  simp only [length_decodeFrames, State.srcRead, List.length_drop, List.length_take]
    at hcount hneed ⊢
  omega

theorem mixBody_commits {d a b : SlotId} {s t : State} (h : mixBody d a b s = .ok t) :
    Commits s (.mix d a b) t := by
  obtain ⟨-, -, ca, cb, hca, hcb, -, -, rfl⟩ := mixBody_ok h
  split_ifs
  · exact .mix d a b a b ca cb hca hcb
  · exact .mix d a b b a cb ca hcb hca

/-- Every command commits only what `Commits` lists. -/
theorem bodyOf_commits {i : Instr} {s t : State} (h : bodyOf i s = .ok t) : Commits s i t := by
  have hid (n : Nat) : id n ≤ max n (cplxLen s.time) := le_max_left _ _
  cases i with
  | decode d => exact decodeBody_commits h
  | encode d =>
    obtain ⟨c, -, -, rfl⟩ := encodeBody_ok h
    exact .encode d _
  | bqlp d => exact (biquadBody_ok h).commits hid
  | bqhp d => exact (biquadBody_ok h).commits hid
  | firlp d => exact (firlpBody_ok h).2.commits (fun n => le_max_of_le_left (Nat.sub_le n _))
  | ravg d => exact (ravgBody_ok h).commits hid
  | hpf2 d => exact (hpf2Body_ok h).commits hid
  | norm d => exact (normBody_ok h).commits hid
  | comp d makeup => exact (compBody_ok h).commits hid (by cases makeup <;> simp [slotTransforms])
  | mix d a b => exact mixBody_commits h
  | fft d =>
    obtain ⟨c, hc, hne, rfl⟩ := fftBody_ok h
    exact .fft d c _ hc hne (by rw [State.num, length_dft, List.length_map])
  | ifft =>
    obtain ⟨x, hx, rfl⟩ := ifftBody_ok h
    exact .ifft x _ hx (length_idft _ _)
  | recon d =>
    obtain ⟨v, hv, ht⟩ := reconBody_ok h
    exact ht.commits (fun n => by rw [hv, cplxLen])

/-- Everything a command can do: commit, or take a fault that its pseudocode raises. -/
theorem exec_cases {i : Instr} {s t : State} (h : exec i s = .next t) :
    Commits s i t ∨ ∃ f, bodyOf i s = .error f ∧ t = s.raise (encode i) f := by
  rw [exec_eq_runCommand] at h
  exact (runCommand_cases h).imp_left bodyOf_commits

/-- No commit writes the configuration or anything the host owns. -/
theorem Commits.host_frame {i : Instr} {s t : State} (h : Commits s i t) :
    t.p = s.p ∧ t.cfg = s.cfg ∧ t.host = s.host ∧ t.reply = s.reply := by
  cases h <;> simp

/-- No commit writes the status group. -/
theorem Commits.status_frame {i : Instr} {s t : State} (h : Commits s i t) :
    t.faulted = s.faulted ∧ t.fault = s.fault ∧ t.fcmd = s.fcmd ∧ t.finfo = s.finfo := by
  cases h <;> simp

/-- Settles O46: neither a commit nor a fault writes any of the four. -/
theorem noCommandWritesParametersOrConfiguration :
    Obligations.NoCommandWritesParametersOrConfiguration := by
  intro i s t h
  obtain hc | ⟨f, -, rfl⟩ := exec_cases h
  · exact hc.host_frame
  · exact ⟨rfl, rfl, rfl, rfl⟩

/-! ### What a host action that is no command does -/

/-- `t` is `s` but for the state the host writes itself: the parameter registers, the streams, its
list of moves and the reply. -/
def State.SameBlock (s t : State) : Prop :=
  ∃ p src snk host reply,
    t = { s with p := p, src := src, snk := snk, host := host, reply := reply }

theorem State.SameBlock.refl (s : State) : s.SameBlock s := ⟨_, _, _, _, _, rfl⟩

theorem State.SameBlock.trans {s t u : State} (hst : s.SameBlock t) (htu : t.SameBlock u) :
    s.SameBlock u := by
  obtain ⟨_, _, _, _, _, rfl⟩ := hst
  obtain ⟨_, _, _, _, _, rfl⟩ := htu
  exact ⟨_, _, _, _, _, rfl⟩

theorem State.SameBlock.slot {s t : State} (h : s.SameBlock t) (k : SlotId) :
    t.slot k = s.slot k := by
  obtain ⟨_, _, _, _, _, rfl⟩ := h
  cases k <;> rfl

theorem State.sameBlock_begin (s : State) (rest : List HostMove) : s.SameBlock (s.begin rest) :=
  ⟨_, _, _, _, _, rfl⟩

theorem sameBlock_popSnk (s : State) : s.SameBlock (popSnk s) := by
  unfold popSnk
  split <;> exact ⟨_, _, _, _, _, rfl⟩

/-- Everything a named action can do. -/
theorem hostAct_cases {a : HostAction} {s t : State} (h : hostAct a s = .next t) :
    (∃ cw, a = .issue cw ∧ issue cw s = .next t) ∨ (a = .reset ∧ t = s.hardReset) ∨
      s.SameBlock t := by
  cases a with
  | issue cw => exact .inl ⟨cw, rfl, h⟩
  | reset => cases h; exact .inr (.inl ⟨rfl, rfl⟩)
  | popSnk => cases h; exact .inr (.inr (sameBlock_popSnk s))
  | pushSrc b => cases h; exact .inr (.inr ⟨_, _, _, _, _, rfl⟩)
  | setP i v => cases h; exact .inr (.inr ⟨_, _, _, _, _, rfl⟩)
  | getP i => cases h; exact .inr (.inr ⟨_, _, _, _, _, rfl⟩)
  | readStatus r => cases h; exact .inr (.inr ⟨_, _, _, _, _, rfl⟩)

/-- What a write to a port can reach (20_memory R65): no port resets. -/
theorem writeAction_cases {offset : Nat} {v : Word64} {a : HostAction}
    (h : writeAction offset v = some a) :
    (offset = 0x00 ∧ a = .issue (v.setWidth 32)) ∨ (∃ b, a = .pushSrc b) ∨ ∃ i, a = .setP i v := by
  unfold writeAction at h
  split at h
  · cases h; exact .inl ⟨rfl, rfl⟩
  · cases h; exact .inr (.inl ⟨_, rfl⟩)
  · obtain ⟨i, -, rfl⟩ := Option.map_eq_some_iff.mp h
    exact .inr (.inr ⟨i, rfl⟩)

/-- What a read of a port can reach (20_memory R65): no port read issues or resets. -/
theorem readAction_cases {offset : Nat} {a : HostAction} (h : readAction offset = some a) :
    (∃ r, a = .readStatus r) ∨ a = .popSnk ∨ ∃ i, a = .getP i := by
  unfold readAction at h
  split at h
  case h_5 => cases h; exact .inr (.inl rfl)
  case h_13 =>
    obtain ⟨i, -, rfl⟩ := Option.map_eq_some_iff.mp h
    exact .inr (.inr ⟨i, rfl⟩)
  all_goals cases h; exact .inl ⟨_, rfl⟩

/-! ### The step -/

/-- The next move of the host issues the word `cw`, by the named action or through the CMD port. -/
def State.Issues (s : State) (cw : Word32) (rest : List HostMove) : Prop :=
  s.host = .act (.issue cw) :: rest ∨ ∃ v : Word64, s.host = .write 0x00 v :: rest ∧ v.setWidth 32 = cw

/-- Everything a step can do: issue a word, reset, or change only what the host writes itself. -/
theorem step_cases {s t : State} (h : step s = .next t) :
    (∃ cw rest, s.Issues cw rest ∧ issue cw (s.begin rest) = .next t) ∨
      (∃ rest, s.host = .act .reset :: rest ∧ t = (s.begin rest).hardReset) ∨ s.SameBlock t := by
  rcases hs : s.host with _ | ⟨m, rest⟩
  · rw [step_idle hs] at h
    cases h
    exact .inr (.inr (.refl s))
  have hbegin := s.sameBlock_begin rest
  rw [step_move hs] at h
  cases m with
  | act a =>
    obtain ⟨cw, rfl, ht⟩ | ⟨rfl, rfl⟩ | ht := hostAct_cases h
    · exact .inl ⟨cw, rest, .inl hs, ht⟩
    · exact .inr (.inl ⟨rest, rfl, rfl⟩)
    · exact .inr (.inr (hbegin.trans ht))
  | write offset v =>
    simp only [hostMove] at h
    split at h
    case h_1 a ha =>
      have hcases := hostAct_cases h
      obtain ⟨rfl, rfl⟩ | ⟨b, rfl⟩ | ⟨i, rfl⟩ := writeAction_cases ha
      · exact .inl ⟨_, rest, .inr ⟨v, hs, rfl⟩, h⟩
      all_goals exact .inr (.inr (hbegin.trans (by simpa using hcases)))
    case h_2 => cases h; exact .inr (.inr hbegin)
  | read offset =>
    simp only [hostMove] at h
    split at h
    case h_1 a ha =>
      have hcases := hostAct_cases h
      obtain ⟨r, rfl⟩ | rfl | ⟨i, rfl⟩ := readAction_cases ha
      all_goals exact .inr (.inr (hbegin.trans (by simpa using hcases)))
    case h_2 => cases h; exact .inr (.inr (hbegin.trans ⟨_, _, _, _, _, rfl⟩))

/-! ### Who writes a header -/

/-- The commands that can change the header of a slot `k` that stays valid. -/
def WritesHeader (i : Instr) (k : SlotId) : Prop := i = .decode k ∨ ∃ a b, i = .mix k a b

theorem slot_ne_of_header_ne {s t : State} {k : SlotId} {c c' : Container}
    (hc : s.slot k = some c) (hc' : t.slot k = some c') (hne : c'.hdr ≠ c.hdr ∨ c'.der ≠ c.der) :
    t.slot k ≠ s.slot k := by
  rw [hc, hc']
  rintro ⟨⟩
  simp at hne

/-- A commit that changes the header or the derived quantities of a slot that stays valid is one of
DECODE or MIX into it. -/
theorem Commits.writesHeader {i : Instr} {s t : State} {k : SlotId} {c c' : Container}
    (h : Commits s i t) (hc : s.slot k = some c) (hc' : t.slot k = some c')
    (hne : c'.hdr ≠ c.hdr ∨ c'.der ≠ c.der) : WritesHeader i k := by
  have hchanged := slot_ne_of_header_ne hc hc' hne
  cases h with
  | decode d c₁ n hok =>
    have hk : k = d := by_contra fun hk => hchanged (by simp [State.slot_setSlot_ne _ _ hk])
    exact .inl (by rw [hk])
  | mix d a b k₁ k₂ longer shorter hl hs =>
    have hk : k = d := by_contra fun hk => hchanged (State.slot_setSlot_ne _ _ hk)
    exact .inr ⟨a, b, by rw [hk]⟩
  | encode d bytes =>
    have hk : k = d := by_contra fun hk => hchanged (by simp [State.slot_setSlot_ne _ _ hk])
    simp [hk] at hc'
  | fft d c₁ v hd hb hv => exact absurd (s.slot_set_spec _ k) hchanged
  | ifft x v hx hv => exact absurd (s.slot_set_time _ k) hchanged
  | transform i d c₁ y hi hd hy hlen =>
    have hk : k = d := by_contra fun hk => hchanged (State.slot_setBuf_ne _ _ _ hk)
    subst hk
    simp only [State.slot_setBuf_same, Option.some.injEq] at hc'
    cases hd.symm.trans hc
    simp [← hc'] at hne

theorem exec_writesHeader {i : Instr} {s t : State} {k : SlotId} {c c' : Container}
    (h : exec i s = .next t) (hc : s.slot k = some c) (hc' : t.slot k = some c')
    (hne : c'.hdr ≠ c.hdr ∨ c'.der ≠ c.der) : WritesHeader i k := by
  obtain hcommit | ⟨f, -, rfl⟩ := exec_cases h
  · exact hcommit.writesHeader hc hc' hne
  · exact absurd (s.raise_slot _ f k) (slot_ne_of_header_ne hc hc' hne)

/-- Settles O49: a reset empties the slot, and of the commands only DECODE and MIX write a header. -/
theorem headersChangeOnlyByDecodeAndMix : Obligations.HeadersChangeOnlyByDecodeAndMix := by
  intro s t k c c' h hc hc' hne
  have hchanged := slot_ne_of_header_ne hc hc' hne
  obtain ⟨cw, rest, hissues, ht⟩ | ⟨rest, -, rfl⟩ | hsame := step_cases h
  · refine ⟨cw, rest, hissues, ?_⟩
    obtain ⟨-, hi⟩ | ⟨-, e, -, hi⟩ | ⟨-, i, hd, hi⟩ := issue_cases cw (s.begin rest)
    · cases hi.symm.trans ht
      exact absurd (s.begin_slot rest k) hchanged
    · cases hi.symm.trans ht
      exact absurd (s.begin_slot rest k) hchanged
    · obtain rfl | ⟨a, b, rfl⟩ := exec_writesHeader (hi.symm.trans ht) (by simpa using hc) hc' hne
      · exact .inl hd
      · exact .inr ⟨a, b, hd⟩
  · rw [State.hardReset_slot] at hc'
    cases hc'
  · exact absurd (hsame.slot k) hchanged

end Sys2Proof.Machine
end

section
/-! PROOFS. The invariant of the block (10_state R22 to R25, R28, R29, R33 to R35): the reset state has
it, and every step keeps it. -/

namespace Sys2Proof.Machine

/-! ### The recorded word of a command decodes -/

/-- What the word of any command holds. -/
theorem encodedFields (i : Instr) : Laws.EncodedFields.Statement i := by
  cases i with
  | decode d => exact Laws.EncodedFields.decode d
  | encode d => exact Laws.EncodedFields.encode d
  | bqlp d => exact Laws.EncodedFields.bqlp d
  | bqhp d => exact Laws.EncodedFields.bqhp d
  | firlp d => exact Laws.EncodedFields.firlp d
  | ravg d => exact Laws.EncodedFields.ravg d
  | hpf2 d => exact Laws.EncodedFields.hpf2 d
  | norm d => exact Laws.EncodedFields.norm d
  | comp d makeup => exact Laws.EncodedFields.comp d makeup
  | mix d a b => exact Laws.EncodedFields.mix d a b
  | fft d => exact Laws.EncodedFields.fft d
  | ifft => exact Laws.EncodedFields.ifft
  | recon d => exact Laws.EncodedFields.recon d

/-- The word of a well-formed command decodes to it. -/
theorem decode_encode {i : Instr} (h : i.wf = true) : decode (encode i) = .ok i := by
  obtain ⟨op, hop, hbits, hbuild⟩ := encodedFields i
  simp [decode, hop, hbits, hbuild, h]

/-- The decoder answers well-formed commands only. -/
theorem wf_of_decode {cw : Word32} {i : Instr} (h : decode cw = .ok i) : i.wf = true := by
  unfold decode at h
  repeat' split at h
  all_goals cases h
  assumption

/-! ### No well-formed command raises `ILLEGAL_COMMAND` -/

/-- Part of a command's pseudocode never raises `ILLEGAL_COMMAND`. -/
def NeverIllegal {α : Type} (x : Except Raise α) : Prop :=
  ∀ f, x = .error f → f.kind ≠ .illegalCommand

@[simp] theorem neverIllegal_ok {α : Type} (a : α) : NeverIllegal (.ok a : Except Raise α) := by
  intro f h
  cases h

@[simp] theorem neverIllegal_error {α : Type} (f : Raise) :
    NeverIllegal (.error f : Except Raise α) ↔ f.kind ≠ .illegalCommand := by
  simp [NeverIllegal]

@[simp] theorem neverIllegal_bind {α β : Type} (x : Except Raise α) (f : α → Except Raise β) :
    NeverIllegal (x >>= f) ↔ NeverIllegal x ∧ ∀ a, x = .ok a → NeverIllegal (f a) := by
  cases x <;> simp

@[simp] theorem neverIllegal_failIf (cond : Bool) (kind : FaultKind) (info : Nat) :
    NeverIllegal (failIf cond kind info) ↔ (cond = true → kind ≠ .illegalCommand) := by
  cases cond <;> simp

@[simp] theorem neverIllegal_readSlot (d : SlotId) (s : State) : NeverIllegal (readSlot d s) := by
  unfold readSlot
  split <;> simp

@[simp] theorem neverIllegal_readCplx (v : Option (List Cplx)) (detail : Nat) :
    NeverIllegal (readCplx v detail) := by
  unfold readCplx
  split <;> simp

@[simp] theorem neverIllegal_checkFinite (y : List F64) : NeverIllegal (checkFinite y) := by
  unfold checkFinite
  split <;> simp

@[simp] theorem neverIllegal_checkRange (y : List F64) : NeverIllegal (checkRange y) := by
  unfold checkRange
  split <;> simp

@[simp] theorem neverIllegal_lookaheadCount (ms sr : F64) :
    NeverIllegal (lookaheadCount ms sr) := by
  unfold lookaheadCount
  repeat' split
  all_goals simp

@[simp] theorem neverIllegal_prologue (d : SlotId) (s : State) : NeverIllegal (prologue d s) := by
  simp [prologue]

@[simp] theorem neverIllegal_epilogue (d : SlotId) (c : Container) (y : List F64) (s : State) :
    NeverIllegal (epilogue d c y s) := by
  simp [epilogue]

@[simp] theorem neverIllegal_normalize (num : Num) (x : List F64) (db : F64) :
    NeverIllegal (normalize num x db) := by
  simp [normalize]

/-- Only MIX raises `ILLEGAL_COMMAND`, and only for a destination that is a source
(notes/assumptions/14.md). -/
theorem neverIllegal_bodyOf {i : Instr} (h : i.wf = true) (s : State) :
    NeverIllegal (bodyOf i s) := by
  cases i with
  | decode d => simp [bodyOf, decodeBody]
  | encode d => simp [bodyOf, encodeBody]
  | bqlp d => simp [bodyOf, biquadBody]
  | bqhp d => simp [bodyOf, biquadBody]
  | firlp d => simp [bodyOf, firlpBody]
  | ravg d => simp [bodyOf, ravgBody]
  | hpf2 d => simp [bodyOf, hpf2Body]
  | norm d => simp [bodyOf, normBody]
  | comp d makeup => cases makeup <;> simp [bodyOf, compBody]
  | mix d a b =>
    have hne : d ≠ a ∧ d ≠ b := by simpa [Instr.wf] using h
    simp [bodyOf, mixBody, hne, apply_ite NeverIllegal]
  | fft d => simp [bodyOf, fftBody]
  | ifft => simp [bodyOf, ifftBody]
  | recon d => simp [bodyOf, reconBody]

/-! ### What keeps the status group -/

/-- The fault codes are told apart by a 32-bit register. -/
theorem FaultKind.ofNat_code_inj {k k' : FaultKind} :
    BitVec.ofNat 32 k.code = BitVec.ofNat 32 k'.code ↔ k = k' := by
  cases k <;> cases k' <;> decide

/-- Taking a fault of the table keeps the status group, when it is `ILLEGAL_COMMAND` for the words
that are no command. -/
theorem State.faultGroupOk_raise {s : State} {cw : Word32} {f : Raise}
    (h : f.kind = .illegalCommand ↔ ∃ e, decode cw = .error e) :
    (s.raise cw f).FaultGroupOk := by
  refine ⟨fun hf => by simp at hf, fun _ => ⟨⟨f.kind, rfl⟩, ?_⟩⟩
  rw [State.raise_fault, FaultKind.ofNat_code_inj, State.raise_fcmd]
  exact h

theorem Commits.faultGroupOk {i : Instr} {s t : State} (h : Commits s i t)
    (hs : s.FaultGroupOk) : t.FaultGroupOk := by
  obtain ⟨hfaulted, hfault, hfcmd, hfinfo⟩ := h.status_frame
  unfold State.FaultGroupOk
  rw [hfaulted, hfault, hfcmd, hfinfo]
  exact hs

/-! ### What keeps the slots and the complex buffers -/

/-- The slots and the complex buffers of a state are those the invariant allows. -/
def State.BuffersOk (s : State) : Prop :=
  (∀ k c, s.slot k = some c → c.Ok s.cfg.nmax) ∧
  (∀ v, s.spec = some v → CplxOk s.cfg.nmax v) ∧ (∀ v, s.time = some v → CplxOk s.cfg.nmax v)

theorem State.inv_iff {s : State} : s.Inv ↔ s.BuffersOk ∧ s.FaultGroupOk := by
  simp only [State.Inv, State.BuffersOk, and_assoc]

/-- A new buffer that is finite and short enough keeps a container within the invariant. -/
theorem Container.Ok.withBuf {nmax : Nat} {c : Container} {y : List F64} (h : c.Ok nmax)
    (hlen : y.length ≤ nmax) (hy : AllFinite y) : Container.Ok nmax { c with buf := y } := by
  obtain ⟨-, -, hbits, hrate, hder⟩ := h
  exact ⟨hlen, hy, hbits, hrate, hder⟩

theorem Container.Ok.mixContainer {nmax : Nat} {longer shorter : Container} (hl : longer.Ok nmax)
    (hs : shorter.Ok nmax) : (mixContainer longer shorter).Ok nmax :=
  hl.withBuf ((length_mixRun _ _).trans_le hl.1) (allFinite_mixRun hl.2.1 hs.2.1)

/-- A write to a slot of nothing, or of a container the invariant allows. -/
theorem State.BuffersOk.setSlot {s : State} (h : s.BuffersOk) (d : SlotId) {c : Option Container}
    (hc : ∀ c', c = some c' → c'.Ok s.cfg.nmax) : (s.setSlot d c).BuffersOk := by
  obtain ⟨hslots, hspec, htime⟩ := h
  refine ⟨fun k c' hk => ?_, by simpa using hspec, by simpa using htime⟩
  rw [State.slot_setSlot] at hk
  rw [State.setSlot_cfg]
  split_ifs at hk
  · exact hc c' hk
  · exact hslots k c' hk

theorem State.BuffersOk.cplxLen_time {s : State} (h : s.BuffersOk) :
    cplxLen s.time ≤ s.cfg.nmax := by
  obtain ⟨-, -, htime⟩ := h
  unfold cplxLen
  split
  case h_1 v hv => exact (htime v hv).2
  case h_2 => exact Nat.zero_le _

/-- Streams, the host's fields and the status group do not matter to the slots and buffers. -/
theorem State.BuffersOk.congr {s t : State} (h : s.BuffersOk) (hslot : ∀ k, t.slot k = s.slot k)
    (hspec : t.spec = s.spec) (htime : t.time = s.time) (hcfg : t.cfg = s.cfg) : t.BuffersOk := by
  unfold State.BuffersOk at h ⊢
  simpa only [hslot, hspec, htime, hcfg] using h

theorem Commits.buffersOk {i : Instr} {s t : State} (h : Commits s i t) (hs : s.BuffersOk) :
    t.BuffersOk := by
  obtain ⟨hslots, hspec, htime⟩ := id hs
  cases h with
  | decode d c n hc =>
    have hdrop : (s.srcDrop n).BuffersOk := hs.congr (s.srcDrop_slot n) rfl rfl rfl
    exact hdrop.setSlot d (by rintro _ ⟨⟩; exact hc)
  | encode d bytes =>
    have hwrite : (s.snkWrite bytes).BuffersOk := hs.congr (s.snkWrite_slot bytes) rfl rfl rfl
    exact hwrite.setSlot d (by rintro _ ⟨⟩)
  | mix d a b k k' longer shorter hl hsh =>
    exact hs.setSlot d (by rintro _ ⟨⟩; exact (hslots _ _ hl).mixContainer (hslots _ _ hsh))
  | fft d c v hc hne hv =>
    have hok : CplxOk s.cfg.nmax v :=
      ⟨hv ▸ List.length_pos_iff.mpr hne, hv ▸ (hslots d c hc).1⟩
    exact ⟨by simpa using hslots, by rintro _ ⟨⟩; exact hok, htime⟩
  | ifft x v hx hv =>
    have hok : CplxOk s.cfg.nmax v := by
      unfold CplxOk
      rw [hv]
      exact hspec x hx
    exact ⟨by simpa using hslots, hspec, by rintro _ ⟨⟩; exact hok⟩
  | transform i d c y hi hc hy hlen =>
    have hbound : y.length ≤ s.cfg.nmax :=
      hlen.trans (max_le (hslots d c hc).1 hs.cplxLen_time)
    exact hs.setSlot d (by rintro _ ⟨⟩; exact (hslots d c hc).withBuf hbound hy)

/-! ### Every step -/

theorem State.Inv.raise {s : State} {cw : Word32} {f : Raise} (hs : s.Inv)
    (h : f.kind = .illegalCommand ↔ ∃ e, decode cw = .error e) : (s.raise cw f).Inv :=
  State.inv_iff.mpr
    ⟨(State.inv_iff.mp hs).1.congr (s.raise_slot cw f) rfl rfl rfl, State.faultGroupOk_raise h⟩

theorem State.Inv.of_sameBlock {s t : State} (hs : s.Inv) (h : s.SameBlock t) : t.Inv := by
  have hslot := h.slot
  obtain ⟨_, _, _, _, _, rfl⟩ := h
  exact State.inv_iff.mpr ⟨(State.inv_iff.mp hs).1.congr hslot rfl rfl rfl, (State.inv_iff.mp hs).2⟩

/-- A well-formed command keeps the invariant: what it commits keeps the buffers, and the word it
records with a fault decodes, so that its fault is never `ILLEGAL_COMMAND`. -/
theorem exec_keeps_inv {i : Instr} {s t : State} (hwf : i.wf = true) (hs : s.Inv)
    (h : exec i s = .next t) : t.Inv := by
  obtain hcommit | ⟨f, hf, rfl⟩ := exec_cases h
  · obtain ⟨hbuffers, hstatus⟩ := State.inv_iff.mp hs
    exact State.inv_iff.mpr ⟨hcommit.buffersOk hbuffers, hcommit.faultGroupOk hstatus⟩
  · refine hs.raise (iff_of_false (neverIllegal_bodyOf hwf s f hf) ?_)
    simp [decode_encode hwf]

theorem issue_keeps_inv {cw : Word32} {s t : State} (hs : s.Inv) (h : issue cw s = .next t) :
    t.Inv := by
  obtain ⟨-, hi⟩ | ⟨-, e, he, hi⟩ | ⟨-, i, hd, hi⟩ := issue_cases cw s
  · cases hi.symm.trans h
    exact hs
  · cases hi.symm.trans h
    exact hs.raise (iff_of_true rfl ⟨e, he⟩)
  · exact exec_keeps_inv (wf_of_decode hd) hs (hi.symm.trans h)

/-- A state after reset has the invariant, whatever its configuration. -/
theorem inv_hardReset (s : State) : s.hardReset.Inv :=
  ⟨by simp, by simp, by simp, by simp [State.FaultGroupOk]⟩

/-- Settles O52: the reset state is its own reset. -/
theorem resetStateHasTheInvariant : Obligations.ResetStateHasTheInvariant :=
  inv_hardReset State.reset

/-- Settles O51: a step issues a word, resets, or changes nothing the invariant speaks of. -/
theorem everyStepKeepsTheInvariant : Obligations.EveryStepKeepsTheInvariant := by
  intro s t hs h
  obtain ⟨cw, rest, -, ht⟩ | ⟨rest, -, rfl⟩ | hsame := step_cases h
  · exact issue_keeps_inv (hs.of_sameBlock (s.sameBlock_begin rest)) ht
  · exact inv_hardReset _
  · exact hs.of_sameBlock hsame

end Sys2Proof.Machine
end

section
/-! PROOFS. What a command reads. Two states that agree on the operands of a command are told apart by
nothing it does: a transform reads its slot, its parameter registers and the configuration (10_state
R30, R46), and the other commands read no parameter register (30_encoding R88). -/

namespace Sys2Proof.Machine

open Sys2Proof.Claims

/-! ### The outcome carried over to another state -/

@[simp] theorem map_ok {α β : Type} (g : α → β) (a : α) :
    g <$> (Except.ok a : Except Raise α) = .ok (g a) := rfl

@[simp] theorem map_error {α β : Type} (g : α → β) (f : Raise) :
    g <$> (Except.error f : Except Raise α) = .error f := rfl

/-- `s` with slot `d` as it stands in `t`. -/
def State.takeSlot (s : State) (d : SlotId) (t : State) : State := s.setSlot d (t.slot d)

@[simp] theorem State.slot_takeSlot (s : State) (d : SlotId) (t : State) :
    (s.takeSlot d t).slot d = t.slot d := s.slot_setSlot_same d _

@[simp] theorem State.faulted_takeSlot (s : State) (d : SlotId) (t : State) :
    (s.takeSlot d t).faulted = s.faulted := s.setSlot_faulted d _

@[simp] theorem State.takeSlot_setBuf (s s' : State) (d : SlotId) (c : Container) (y : List F64) :
    s'.takeSlot d (s.setBuf d c y) = s'.setBuf d c y := by
  rw [State.takeSlot, State.slot_setBuf_same, State.setBuf]

/-- The epilogue looks at the state it writes into only to write there. -/
theorem epilogue_map {d : SlotId} {c : Container} {y : List F64} {s s' : State} {g : State → State}
    (h : s'.setBuf d c y = g (s.setBuf d c y)) : epilogue d c y s' = g <$> epilogue d c y s := by
  unfold epilogue
  cases checkFinite y <;> simp [h]

theorem prologue_congr {d : SlotId} {s s' : State} (h : s'.slot d = s.slot d) :
    prologue d s' = prologue d s := by
  unfold prologue readSlot
  rw [h]

/-! ### What a transform reads -/

/-- Both states have the same operands for command `i`, a transform of slot `d`: the slot, the
configuration and the parameter registers its rule names. -/
def SameOperands (i : Instr) (d : SlotId) (s s' : State) : Prop :=
  s'.slot d = s.slot d ∧ s'.cfg = s.cfg ∧ ∀ j ∈ paramsRead i, s'.p[j] = s.p[j]

/-- From the same operands a transform raises the same fault or writes the same buffer: what carries
every such write over from `s` to `s'` carries the outcome over. -/
theorem bodyOf_map_of_sameOperands {d : SlotId} {i : Instr} (hi : i ∈ slotTransforms d)
    {s s' : State} (h : SameOperands i d s s') {g : State → State}
    (hg : ∀ c y, s'.setBuf d c y = g (s.setBuf d c y)) : bodyOf i s' = g <$> bodyOf i s := by
  obtain ⟨hslot, hcfg, hp⟩ := h
  obtain ⟨hbq, hfir⟩ := State.taps_congr hcfg
  have hnum : s'.num = s.num := by rw [State.num, hcfg, State.num]
  have hpf (j : Fin 8) (hj : j ∈ paramsRead i) : s'.pf j = s.pf j := by
    rw [State.pf, hp j hj, State.pf]
  have hpn (j : Fin 8) (hj : j ∈ paramsRead i) : s'.pn j = s.pn j := by
    rw [State.pn, hp j hj, State.pn]
  have hpro := prologue_congr hslot
  have hepi (c : Container) (y : List F64) := epilogue_map (hg c y)
  simp only [slotTransforms, List.mem_cons, List.not_mem_nil, or_false] at hi
  obtain rfl | rfl | rfl | rfl | rfl | rfl | rfl | rfl := hi <;>
    simp only [paramsRead, List.forall_mem_cons, Bool.false_eq_true, if_true, if_false] at hpf hpn
  · simp only [bodyOf, biquadBody, hpro, hbq, hpf, hepi, map_bind]
  · simp only [bodyOf, biquadBody, hpro, hbq, hpf, hepi, map_bind]
  · simp only [bodyOf, firlpBody, hpro, hfir, hpf, hpn, hepi, map_bind]
  · simp only [bodyOf, ravgBody, hpro, hpn, hepi, map_bind]
  · simp only [bodyOf, hpf2Body, hpro, hepi, map_bind]
  · simp only [bodyOf, normBody, hpro, hnum, hpf, hepi, map_bind]
  · simp only [bodyOf, compBody, hpro, hnum, hpf, hepi, map_bind, Bool.false_eq_true, if_false]
  · simp only [bodyOf, compBody, hpro, hnum, hpf, hepi, map_bind, if_true]

/-- Settles O48: the operands decide whether the transform faults, with what, and what it leaves in
its slot. -/
theorem transformsAreStateless : Obligations.TransformsAreStateless := by
  intro d s s' t t' i hi hs hs' hslot hp hcfg h h'
  have hbody := bodyOf_map_of_sameOperands hi ⟨hslot.symm, hcfg.symm, by simp [hp]⟩
    (fun c y => (s.takeSlot_setBuf s' d c y).symm)
  rcases hb : bodyOf i s with f | u
  · rw [hb, map_error] at hbody
    cases (exec_of_error hb).symm.trans h
    cases (exec_of_error hbody).symm.trans h'
    exact ⟨rfl, by simpa using hslot, fun _ => ⟨rfl, rfl, rfl⟩⟩
  · rw [hb, map_ok] at hbody
    cases (exec_of_ok hb).symm.trans h
    cases (exec_of_ok hbody).symm.trans h'
    have hfaulted : t.faulted = false := (bodyOf_commits hb).status_frame.1.trans hs
    simp [hfaulted, hs']

/-! ### Which parameter registers a command reads -/

@[simp] theorem setSlot_setP (r : Fin 8) (v : Word64) (s : State) (d : SlotId)
    (c : Option Container) : (setP r v s).setSlot d c = setP r v (s.setSlot d c) := by
  cases d <;> rfl

@[simp] theorem srcDrop_setP (r : Fin 8) (v : Word64) (s : State) (n : Nat) :
    (setP r v s).srcDrop n = setP r v (s.srcDrop n) := rfl

@[simp] theorem snkWrite_setP (r : Fin 8) (v : Word64) (s : State) (b : List Byte) :
    (setP r v s).snkWrite b = setP r v (s.snkWrite b) := rfl

@[simp] theorem setBuf_setP (r : Fin 8) (v : Word64) (s : State) (d : SlotId) (c : Container)
    (y : List F64) : (setP r v s).setBuf d c y = setP r v (s.setBuf d c y) :=
  setSlot_setP r v s d _

@[simp] theorem readSlot_setP (r : Fin 8) (v : Word64) (s : State) (d : SlotId) :
    readSlot d (setP r v s) = readSlot d s := by
  unfold readSlot
  rw [setP_slot]

theorem sameOperands_setP {i : Instr} {r : Fin 8} (hr : r ∉ paramsRead i) (v : Word64) (s : State)
    (d : SlotId) : SameOperands i d s (setP r v s) := by
  refine ⟨setP_slot r v s d, rfl, fun j hj => ?_⟩
  have hne : r ≠ j := fun h => hr (h ▸ hj)
  exact Vector.getElem_set_ne r.isLt j.isLt (Fin.val_ne_of_ne hne)

/-- A write to a parameter register a command does not read can be done before it or after it. -/
theorem bodyOf_setP {i : Instr} {r : Fin 8} (hr : r ∉ paramsRead i) (v : Word64) (s : State) :
    bodyOf i (setP r v s) = setP r v <$> bodyOf i s := by
  have htransform (d : SlotId) (hi : i ∈ slotTransforms d) :=
    bodyOf_map_of_sameOperands hi (sameOperands_setP hr v s d) (setBuf_setP r v s d)
  have hpro (d : SlotId) : prologue d (setP r v s) = prologue d s := prologue_congr (setP_slot r v s d)
  cases i with
  | decode d =>
    simp only [bodyOf, decodeBody, map_bind, map_pure, State.srcRead, setP_src, setP_cfg,
      srcDrop_setP, setSlot_setP]
    rfl
  | encode d =>
    simp only [bodyOf, encodeBody, map_bind, map_pure, readSlot_setP, snkWrite_setP, setSlot_setP]
  | mix d a b =>
    simp only [bodyOf, mixBody, map_bind, readSlot_setP, setSlot_setP, apply_ite]
    rfl
  | fft d =>
    simp only [bodyOf, fftBody, map_bind, hpro]
    rfl
  | ifft =>
    simp only [bodyOf, ifftBody, map_bind, setP_spec]
    rfl
  | recon d =>
    have hepi (c : Container) (y : List F64) := epilogue_map (setBuf_setP r v s d c y)
    simp only [bodyOf, reconBody, map_bind, readSlot_setP, setP_time, hepi]
  | bqlp d => exact htransform d (by simp [slotTransforms])
  | bqhp d => exact htransform d (by simp [slotTransforms])
  | firlp d => exact htransform d (by simp [slotTransforms])
  | ravg d => exact htransform d (by simp [slotTransforms])
  | hpf2 d => exact htransform d (by simp [slotTransforms])
  | norm d => exact htransform d (by simp [slotTransforms])
  | comp d makeup => exact htransform d (by cases makeup <;> simp [slotTransforms])

/-- Settles O47: the write passes through the pseudocode, and through the taking of a fault. -/
theorem commandsReadOnlyTheirParameters : Obligations.CommandsReadOnlyTheirParameters := by
  intro i s t r hr v h
  have hbody := bodyOf_setP hr v s
  change exec i (setP r v s) = .next (setP r v t)
  rcases hb : bodyOf i s with f | u
  · rw [hb, map_error] at hbody
    cases (exec_of_error hb).symm.trans h
    exact exec_of_error hbody
  · rw [hb, map_ok] at hbody
    cases (exec_of_ok hb).symm.trans h
    exact exec_of_ok hbody

end Sys2Proof.Machine
end

section
/-! PROOFS. The reset state and the views of the state the host reads (10_state R32 to R36, R48). -/

namespace Sys2Proof.Machine

/-- Settles O1: nothing is valid after reset, so that every view is 0. -/
theorem resetStateHoldsTheStatedValues : Obligations.ResetStateHoldsTheStatedValues := by
  refine ⟨?_, rfl, rfl, ?_, rfl, rfl, rfl, rfl, rfl, ?_, rfl, rfl⟩
  · intro k
    cases k <;> rfl
  · intro i
    exact Vector.getElem_replicate _
  · intro r
    cases r with
    | len k => cases k <;> rfl
    | _ => rfl

/-! ### The bits of STATUS -/

theorem State.status_bits (s : State) :
    s.status.getLsbD 0 = s.faulted ∧ s.status.getLsbD 1 = s.k0.isSome ∧
      s.status.getLsbD 2 = s.k1.isSome ∧ s.status.getLsbD 3 = s.k2.isSome ∧
      s.status.getLsbD 4 = s.spec.isSome ∧ s.status.getLsbD 5 = s.time.isSome ∧
      s.status.toNat < 2 ^ 6 := by
  unfold State.status
  generalize s.faulted = f, s.k0.isSome = k0, s.k1.isSome = k1, s.k2.isSome = k2,
    s.spec.isSome = sv, s.time.isSome = tv
  revert f k0 k1 k2 sv tv
  decide

theorem State.status_reserved (s : State) {i : Nat} (h : 6 ≤ i) : s.status.getLsbD i = false := by
  obtain ⟨-, -, -, -, -, -, hlt⟩ := s.status_bits
  exact Nat.testBit_lt_two_pow (hlt.trans_le (Nat.pow_le_pow_right (by norm_num) h))

/-! ### Lengths -/

theorem State.len_of_slot {s : State} {k : SlotId} {c : Container} (h : s.slot k = some c) :
    s.len k = c.buf.length := by
  unfold State.len
  rw [h]

theorem State.len_of_empty {s : State} {k : SlotId} (h : s.slot k = none) : s.len k = 0 := by
  unfold State.len
  rw [h]

/-- Settles O55: the flags are read off STATUS bit by bit, and each length is one case of its view. -/
theorem statusAndLengthsAreViews : Obligations.StatusAndLengthsAreViews := by
  intro s
  obtain ⟨h0, h1, h2, h3, h4, h5, -⟩ := s.status_bits
  refine ⟨h0, h1, h2, h3, h4, h5, fun i hi => s.status_reserved hi, rfl, rfl, rfl, rfl,
    fun k c hc => ?_, fun k hk => ?_, fun x hx => ?_, fun hx => ?_, fun x hx => ?_, fun hx => ?_,
    rfl, rfl⟩
  · rw [State.statusReg, State.len_of_slot hc]
  · rw [State.statusReg, State.len_of_empty hk]
    rfl
  · rw [State.statusReg, hx, cplxLen]
  · rw [State.statusReg, hx, cplxLen]
    rfl
  · rw [State.statusReg, hx, cplxLen]
  · rw [State.statusReg, hx, cplxLen]
    rfl

end Sys2Proof.Machine
end

section
/-! PROOFS. The host's named actions that are no command (20_memory R66), and the port map
(20_memory R65): which offset reaches which action, and which reaches none. -/

namespace Sys2Proof.Machine

/-! ### The named actions -/

theorem hostAct_popSnk_of_cons {s : State} {b : Byte} {tail : List Byte} (h : s.snk = b :: tail) :
    hostAct .popSnk s = .next { s with snk := tail, reply := some (b.setWidth 64) } := by
  simp only [hostAct, popSnk, h, answer]

theorem hostAct_popSnk_of_nil {s : State} (h : s.snk = []) :
    hostAct .popSnk s = .next { s with reply := some 0 } := by
  simp only [hostAct, popSnk, h, answer]

/-- Settles O53: each step is the head move, in the state without it; `PopSnk` has two cases. -/
theorem hostActionsDoWhatTheTableSays : Obligations.HostActionsDoWhatTheTableSays := by
  intro s rest
  exact ⟨fun _ => step_move, fun _ _ => step_move, fun _ => step_move, fun _ => step_move,
    fun _ _ hsnk h => (step_move h).trans (hostAct_popSnk_of_cons (s := s.begin rest) hsnk),
    fun hsnk h => (step_move h).trans (hostAct_popSnk_of_nil (s := s.begin rest) hsnk), step_idle⟩

/-! ### The ports of the parameter registers -/

theorem paramAt_eq_some {offset : Nat} {i : Fin 8} :
    paramAt offset = some i ↔ offset = 0x80 + 8 * i.val := by
  unfold paramAt
  split
  next h => simp only [Option.some.injEq, Fin.ext_iff]; omega
  next h => simp only [reduceCtorEq, false_iff]; omega

theorem paramAt_eq_none {offset : Nat} (h : ∀ i : Fin 8, offset ≠ 0x80 + 8 * i.val) :
    paramAt offset = none :=
  Option.eq_none_iff_forall_ne_some.mpr fun i hi => h i (paramAt_eq_some.mp hi)

/-! ### The port map -/

/-- Apart from CMD and SRC, a write reaches the parameter registers alone. -/
theorem writeAction_of_ne {offset : Nat} (v : Word64) (hcmd : offset ≠ 0x00)
    (hsrc : offset ≠ 0x18) :
    writeAction offset v = (paramAt offset).map (fun i => .setP i v) := by
  unfold writeAction
  split
  · exact absurd rfl hcmd
  · exact absurd rfl hsrc
  · rfl

/-- Apart from the status group's ports and SNK, a read reaches the parameter registers alone. -/
theorem readAction_of_notMem {offset : Nat}
    (h : offset ∉ [0x04, 0x08, 0x0C, 0x10, 0x1C, 0x20, 0x28, 0x30, 0x38, 0x40, 0x48, 0x50]) :
    readAction offset = (paramAt offset).map .getP := by
  unfold readAction
  split
  case h_13 => rfl
  all_goals exact absurd (by decide) h

theorem writeAction_param (i : Fin 8) (v : Word64) :
    writeAction (0x80 + 8 * i.val) v = some (.setP i v) := by
  rw [writeAction_of_ne v (by omega) (by omega), paramAt_eq_some.mpr rfl, Option.map_some]

theorem readAction_param (i : Fin 8) : readAction (0x80 + 8 * i.val) = some (.getP i) := by
  rw [readAction_of_notMem (by revert i; decide), paramAt_eq_some.mpr rfl, Option.map_some]

/-! ### Accesses to a port -/

theorem hostMove_write_of_some {offset : Nat} {v : Word64} {a : HostAction} {s : State}
    (h : writeAction offset v = some a) : hostMove (.write offset v) s = hostAct a s := by
  simp only [hostMove, h]

theorem hostMove_write_of_none {offset : Nat} {v : Word64} {s : State}
    (h : writeAction offset v = none) : hostMove (.write offset v) s = .next s := by
  simp only [hostMove, h]

theorem hostMove_read_of_some {offset : Nat} {a : HostAction} {s : State}
    (h : readAction offset = some a) : hostMove (.read offset) s = hostAct a s := by
  simp only [hostMove, h]

theorem hostMove_read_of_none {offset : Nat} {s : State} (h : readAction offset = none) :
    hostMove (.read offset) s = .next { s with reply := some 0 } := by
  simp only [hostMove, h, answer]

/-- Settles O54: an access is what the port map gives for its offset, and off the listed ports only
the parameter registers are left. -/
theorem portsReachTheNamedActions : Obligations.PortsReachTheNamedActions := by
  intro s
  refine ⟨fun v => hostMove_write_of_some (a := .issue _) rfl, fun v => hostMove_write_of_some rfl,
    fun i v => hostMove_write_of_some (writeAction_param i v), ?_, ?_, hostMove_read_of_some rfl,
    fun i => hostMove_read_of_some (readAction_param i), ?_⟩
  · intro offset v hcmd hsrc hparam
    apply hostMove_write_of_none
    rw [writeAction_of_ne v hcmd hsrc, paramAt_eq_none hparam, Option.map_none]
  · intro e he
    apply hostMove_read_of_some
    revert e
    decide
  · intro offset hmap hparam
    apply hostMove_read_of_none
    rw [readAction_of_notMem hmap, paramAt_eq_none hparam, Option.map_none]

end Sys2Proof.Machine
end

section
/-! PROOFS. The decoder and the encoder (30_encoding R80 to R86): what each check of the decoder reads,
and that a word is the encoding of the command it decodes to. -/

namespace Sys2Proof

/-! ### Fields -/

theorem opcodeOf_eq_some {b : Byte} {op : Op} : opcodeOf b = some op ↔ b = op.code := by
  constructor
  · intro h
    unfold opcodeOf at h
    have hcode := List.find?_some h
    exact (beq_iff_eq.mp hcode).symm
  · rintro rfl
    cases op <;> rfl

theorem slotOf_eq_some {f : BitVec 2} {d : SlotId} : slotOf f = some d ↔ f.toNat = d.index := by
  revert f
  cases d <;> decide

theorem slotOf_eq_none {f : BitVec 2} : slotOf f = none ↔ f.toNat = 3 := by
  revert f
  decide

theorem buildInstr_mix_eq_some {cw : Word32} {i : Instr} :
    buildInstr .mix cw = some i ↔ ∃ d a b, (fieldKD cw).toNat = d.index ∧
      (fieldKA cw).toNat = a.index ∧ (fieldKB cw).toNat = b.index ∧ .mix d a b = i := by
  simp only [buildInstr, ← slotOf_eq_some]
  cases slotOf (fieldKD cw) <;> cases slotOf (fieldKA cw) <;> cases slotOf (fieldKB cw) <;> simp

/-! ### Words without unused bits -/

/-- No opcode uses the reserved bits 15:14 and 31:17 (30_encoding R80). -/
theorem Op.usedBits_reserved (op : Op) {n : Nat} (hn : n = 14 ∨ n = 15 ∨ 17 ≤ n) :
    op.usedBits.getLsbD n = false := by
  have hlt : op.usedBits.toNat < 2 ^ 17 := by cases op <;> decide
  obtain rfl | rfl | hn := hn
  · cases op <;> rfl
  · cases op <;> rfl
  · exact Nat.testBit_lt_two_pow (hlt.trans_le (Nat.pow_le_pow_right (by norm_num) hn))

section

variable {cw : Word32} {op : Op} (h : cw &&& ~~~op.usedBits = 0)

include h

/-- A bit that the opcode does not use is 0. -/
theorem getLsbD_of_unused {n : Nat} (hn : op.usedBits.getLsbD n = false) :
    cw.getLsbD n = false := by
  rcases Nat.lt_or_ge n 32 with hlt | hge
  · have hbit := congrArg (BitVec.getLsbD · n) h
    simpa [hlt, hn, -BitVec.getLsbD_eq_getElem] using hbit
  · exact BitVec.getLsbD_of_ge cw n hge

/-- A field whose bits the opcode does not use is 0. -/
theorem extractLsb'_of_unused {lo len : Nat} (hfield : op.usedBits.extractLsb' lo len = 0) :
    cw.extractLsb' lo len = 0 := by
  refine BitVec.eq_of_getLsbD_eq fun n hn => ?_
  have hbit := congrArg (BitVec.getLsbD · n) hfield
  simp only [BitVec.getLsbD_extractLsb', hn, decide_true, Bool.true_and] at hbit ⊢
  rw [getLsbD_of_unused h (by simpa using hbit)]
  simp

/-- Only MIX uses the fields `KA` and `KB` (30_encoding R84). -/
theorem sources_of_unused (hop : op ≠ .mix) : fieldKA cw = 0 ∧ fieldKB cw = 0 := by
  have hfields : op.usedBits.extractLsb' 10 2 = 0 ∧ op.usedBits.extractLsb' 12 2 = 0 := by
    revert hop
    cases op <;> decide
  exact ⟨extractLsb'_of_unused h hfields.1, extractLsb'_of_unused h hfields.2⟩

/-- Only the biquads and COMP use the flag `F` (30_encoding R84). -/
theorem flag_of_unused (hbiquad : op ≠ .biquad) (hcomp : op ≠ .comp) : fieldF cw = false := by
  have hflag : op.usedBits.getLsbD 16 = false := by
    revert hbiquad hcomp
    cases op <;> decide
  exact getLsbD_of_unused h hflag

/-- A word without unused bits is packed from its own fields: each bit of the word is in one of the
five fields, or reserved and 0. -/
theorem packWord_fields (hop : fieldOP cw = op.code) :
    packWord op (fieldKD cw).toNat (fieldKA cw).toNat (fieldKB cw).toNat (fieldF cw) = cw := by
  refine BitVec.eq_of_getLsbD_eq fun n hn => ?_
  have hreserved := fun h' => getLsbD_of_unused (n := n) h (op.usedBits_reserved h')
  have hflag (b : Bool) (m : Nat) :
      (BitVec.ofNat 32 b.toNat).getLsbD m = (decide (m = 0) && b) := by
    cases b <;> cases m <;> simp
  rw [packWord, ← hop]
  simp only [BitVec.ofNat_toNat, BitVec.getLsbD_or, BitVec.getLsbD_setWidth,
    BitVec.getLsbD_shiftLeft, fieldOP, fieldKD, fieldKA, fieldKB, fieldF,
    BitVec.getLsbD_extractLsb', hflag]
  grind

/-- The encoding of a command is packed from the fields of the word it is built from. -/
theorem encode_of_buildInstr {i : Instr} (hbuild : buildInstr op cw = some i) :
    encode i =
      packWord op (fieldKD cw).toNat (fieldKA cw).toNat (fieldKB cw).toNat (fieldF cw) := by
  have hsources := sources_of_unused h
  have hflag := flag_of_unused h
  cases op with
  | ifft =>
    have hKD : fieldKD cw = 0 := extractLsb'_of_unused h rfl
    cases hbuild
    simp [encode, hKD, hsources, hflag]
  | mix =>
    obtain ⟨d, a, b, hd, ha, hb, rfl⟩ := buildInstr_mix_eq_some.mp hbuild
    simp [encode, hd, ha, hb, hflag]
  | biquad =>
    obtain ⟨d, hd, rfl⟩ := Option.map_eq_some_iff.mp hbuild
    rw [slotOf_eq_some] at hd
    split_ifs with hF <;> simp [encode, hd, hsources, hF]
  | _ =>
    obtain ⟨d, hd, rfl⟩ := Option.map_eq_some_iff.mp hbuild
    rw [slotOf_eq_some] at hd
    simp [encode, hd, hsources, hflag]

end

/-! ### The checks -/

section

variable {cw : Word32}

theorem decode_reservedOpcode (h : opcodeOf (fieldOP cw) = none) :
    decode cw = .error .reservedOpcode := by
  simp only [decode, h]

variable {op : Op} (hop : fieldOP cw = op.code)

include hop

theorem decode_reservedBit (h : cw &&& ~~~op.usedBits ≠ 0) : decode cw = .error .reservedBit := by
  simp only [decode, opcodeOf_eq_some.mpr hop, if_pos h]

theorem decode_noSuchSlot (h : cw &&& ~~~op.usedBits = 0) (hbuild : buildInstr op cw = none) :
    decode cw = .error .noSuchSlot := by
  simp only [decode, opcodeOf_eq_some.mpr hop, h, ne_eq, not_true_eq_false, if_false, hbuild]

theorem decode_of_buildInstr (h : cw &&& ~~~op.usedBits = 0) {i : Instr}
    (hbuild : buildInstr op cw = some i) :
    decode cw = if i.wf then .ok i else .error .mixAlias := by
  simp only [decode, opcodeOf_eq_some.mpr hop, h, ne_eq, not_true_eq_false, if_false, hbuild]

end

/-- What the decoder has checked of a word that it answers a command for. -/
theorem checked_of_decode {cw : Word32} {i : Instr} (h : decode cw = .ok i) :
    ∃ op, fieldOP cw = op.code ∧ cw &&& ~~~op.usedBits = 0 ∧ buildInstr op cw = some i := by
  rcases hop : opcodeOf (fieldOP cw) with _ | op
  · cases (decode_reservedOpcode hop).symm.trans h
  rw [opcodeOf_eq_some] at hop
  by_cases hbits : cw &&& ~~~op.usedBits = 0
  · rcases hbuild : buildInstr op cw with _ | j
    · cases (decode_noSuchSlot hop hbits hbuild).symm.trans h
    · have hdecode := (decode_of_buildInstr hop hbits hbuild).symm.trans h
      split_ifs at hdecode
      cases hdecode
      exact ⟨op, hop, hbits, hbuild⟩
  · cases (decode_reservedBit hop hbits).symm.trans h

/-- A word that decodes is the encoding of its command. -/
theorem encode_of_decode {cw : Word32} {i : Instr} (h : decode cw = .ok i) : encode i = cw := by
  obtain ⟨op, hop, hbits, hbuild⟩ := checked_of_decode h
  rw [encode_of_buildInstr hbits hbuild, packWord_fields hbits hop]

/-- Settles O7: decoding checks well-formedness, and each of the two functions undoes the other. -/
theorem decodeAndEncodeAgree : Obligations.DecodeAndEncodeAgree := by
  intro cw i
  constructor
  · exact fun h => ⟨Machine.wf_of_decode h, encode_of_decode h⟩
  · rintro ⟨hwf, rfl⟩
    exact Machine.decode_encode hwf

end Sys2Proof
end

section
/-! PROOFS. The decode checks as conditions on the bits of the word (30_encoding R86). -/

namespace Sys2Proof

open Sys2Proof.Machine Sys2Proof.Claims

/-! ### Each check of the decoder, read off the bits -/

theorem bitsAt_eq_toNat (cw : Word32) (lo len : Nat) :
    bitsAt cw lo len = (cw.extractLsb' lo len).toNat := by
  rw [bitsAt, BitVec.extractLsb'_toNat, Nat.shiftRight_eq_div_pow]

theorem bitsAt_fieldKD (cw : Word32) : bitsAt cw 8 2 = (fieldKD cw).toNat := bitsAt_eq_toNat cw 8 2

theorem bitsAt_fieldKA (cw : Word32) : bitsAt cw 10 2 = (fieldKA cw).toNat :=
  bitsAt_eq_toNat cw 10 2

theorem bitsAt_fieldKB (cw : Word32) : bitsAt cw 12 2 = (fieldKB cw).toNat :=
  bitsAt_eq_toNat cw 12 2

theorem SlotId.index_inj {d a : SlotId} : d.index = a.index ↔ d = a := by
  cases d <;> cases a <;> decide

theorem opcodeOf_eq_none {b : Byte} : opcodeOf b = none ↔ b.toNat ∉ assignedOpcodes := by
  revert b
  decide

theorem failsStep1_iff {cw : Word32} : FailsStep1 cw ↔ opcodeOf (fieldOP cw) = none := by
  rw [FailsStep1, bitsAt_eq_toNat, opcodeOf_eq_none, fieldOP]

theorem fieldOP_of_not_failsStep1 {cw : Word32} (h : ¬ FailsStep1 cw) :
    ∃ op : Op, fieldOP cw = op.code := by
  obtain ⟨op, hop⟩ := Option.ne_none_iff_exists'.mp (mt failsStep1_iff.mpr h)
  exact ⟨op, opcodeOf_eq_some.mp hop⟩

section

variable {cw : Word32} {op : Op} (hop : fieldOP cw = op.code)

include hop

theorem bitsAt_opcode : bitsAt cw 0 8 = op.code.toNat := by
  rw [bitsAt_eq_toNat, ← hop, fieldOP]

theorem failsStep2_iff : FailsStep2 cw ↔ cw &&& ~~~op.usedBits ≠ 0 := by
  have hunused : unusedBits op.code.toNat = ~~~op.usedBits := by cases op <;> rfl
  rw [FailsStep2, bitsAt_opcode hop, hunused]

theorem bitsAt_opcode_eq_mix : bitsAt cw 0 8 = 0x30 ↔ op = .mix := by
  rw [bitsAt_opcode hop]
  cases op <;> decide

/-- Only a slot field of 3 keeps the command from being built; the `KD` of IFFT is unused, so 0. -/
theorem failsStep3_iff (h : cw &&& ~~~op.usedBits = 0) :
    FailsStep3 cw ↔ buildInstr op cw = none := by
  simp only [FailsStep3, bitsAt_opcode_eq_mix hop, bitsAt_fieldKD, bitsAt_fieldKA, bitsAt_fieldKB,
    ← slotOf_eq_none]
  cases op with
  | ifft =>
    have hKD : fieldKD cw = 0 := extractLsb'_of_unused h rfl
    simp [buildInstr, hKD, slotOf_eq_none]
  | mix =>
    simp only [buildInstr, true_and]
    cases slotOf (fieldKD cw) <;> cases slotOf (fieldKA cw) <;> cases slotOf (fieldKB cw) <;> simp
  | _ => simp [buildInstr]

/-- Two slot fields are equal when they name the same slot. -/
theorem failsStep4_iff {i : Instr} (hbuild : buildInstr op cw = some i) :
    FailsStep4 cw ↔ i.wf = false := by
  simp only [FailsStep4, bitsAt_opcode_eq_mix hop, bitsAt_fieldKD, bitsAt_fieldKA, bitsAt_fieldKB]
  cases op with
  | mix =>
    obtain ⟨d, a, b, hd, ha, hb, rfl⟩ := buildInstr_mix_eq_some.mp hbuild
    simp [hd, ha, hb, SlotId.index_inj, Instr.wf, Decidable.imp_iff_not_or]
  | ifft => cases hbuild; simp [Instr.wf]
  | biquad =>
    obtain ⟨d, -, rfl⟩ := Option.map_eq_some_iff.mp hbuild
    split_ifs <;> simp [Instr.wf]
  | _ =>
    obtain ⟨d, -, rfl⟩ := Option.map_eq_some_iff.mp hbuild
    simp [Instr.wf]

end

/-- Settles O5: a word fails a step of R86 exactly when the decoder stops at that check; a word that
fails none so far has what the next check reads (its opcode, no unused bit, its command). -/
theorem decodeChecksRunInOrder : Obligations.DecodeChecksRunInOrder := by
  intro cw
  refine ⟨fun h1 => decode_reservedOpcode (failsStep1_iff.mp h1), fun h1 h2 => ?_,
    fun h1 h2 h3 => ?_, fun h1 h2 h3 h4 => ?_, fun h1 h2 h3 h4 => ?_, rfl, rfl, rfl, rfl,
    fun s e hs => issue_error hs⟩
  all_goals
    obtain ⟨op, hop⟩ := fieldOP_of_not_failsStep1 h1
    rw [failsStep2_iff hop] at h2
  · exact decode_reservedBit hop h2
  all_goals
    rw [not_not] at h2
    rw [failsStep3_iff hop h2] at h3
  · exact decode_noSuchSlot hop h2 h3
  all_goals
    obtain ⟨i, hi⟩ := Option.ne_none_iff_exists'.mp h3
    rw [failsStep4_iff hop hi] at h4
  · rw [decode_of_buildInstr hop h2 hi, h4]
    rfl
  · exact ⟨i, by rw [decode_of_buildInstr hop h2 hi, eq_true_of_ne_false h4, if_pos rfl]⟩

end Sys2Proof
end

section
/-! PROOFS. The table of commands (30_encoding R84): its rows exclude each other, and each is met by
the words of its command. -/

namespace Sys2Proof

open Sys2Proof.Machine Sys2Proof.Claims

/-! ### The rows -/

/-- The rows of the table, in its order. -/
def tableRows : List (Word32 × Word32) :=
  [.decode .k0, .encode .k0, .bqlp .k0, .bqhp .k0, .firlp .k0, .ravg .k0, .hpf2 .k0, .norm .k0,
    .comp .k0 false, .mix .k0 .k0 .k0, .fft .k0, .ifft, .recon .k0].map tableRow

theorem tableRow_mem (i : Instr) : tableRow i ∈ tableRows := by
  cases i <;> simp [tableRows, tableRow]

/-- Two rows differ in a bit that both masks hold, so that no word meets both. -/
def RowsDiffer (r r' : Word32 × Word32) : Prop := r.1 &&& r'.2 ≠ r'.1 &&& r.2

theorem tableRows_differ : tableRows.Pairwise RowsDiffer := by
  unfold RowsDiffer
  decide

/-- A word that meets two rows meets one row. -/
theorem tableRow_unique {cw : Word32} {i j : Instr} (hi : cw &&& (tableRow i).2 = (tableRow i).1)
    (hj : cw &&& (tableRow j).2 = (tableRow j).1) : tableRow i = tableRow j := by
  have hsymm : Std.Symm RowsDiffer := ⟨fun _ _ => Ne.symm⟩
  by_contra hne
  refine tableRows_differ.forall (tableRow_mem i) (tableRow_mem j) hne ?_
  rw [← hi, ← hj, BitVec.and_assoc, BitVec.and_assoc, BitVec.and_comm (tableRow i).2]

/-! ### Words that meet a row -/

/-- The opcode of a command (30_encoding R84). -/
def Instr.op : Instr → Op
  | .decode _ => .decode
  | .encode _ => .encode
  | .bqlp _ => .biquad
  | .bqhp _ => .biquad
  | .firlp _ => .firlp
  | .ravg _ => .ravg
  | .hpf2 _ => .hpf2
  | .norm _ => .norm
  | .comp _ _ => .comp
  | .mix _ _ _ => .mix
  | .fft _ => .fft
  | .ifft => .ifft
  | .recon _ => .recon

/-- The word of a command meets its row. -/
theorem encode_meets_tableRow (i : Instr) : encode i &&& (tableRow i).2 = (tableRow i).1 := by
  cases i with
  | ifft => decide
  | comp d makeup => cases d <;> cases makeup <;> decide
  | mix d a b => cases d <;> cases a <;> cases b <;> decide
  | _ d => cases d <;> decide

theorem fieldOP_of_meets_tableRow {cw : Word32} {i : Instr}
    (h : cw &&& (tableRow i).2 = (tableRow i).1) : fieldOP cw = i.op.code := by
  have hmask : fieldOP (tableRow i).2 = BitVec.allOnes 8 := by
    cases i <;> simp only [tableRow] <;> decide
  have hmatch : fieldOP (tableRow i).1 = i.op.code := by
    cases i <;> simp only [tableRow, Instr.op] <;> decide
  calc fieldOP cw = fieldOP cw &&& fieldOP (tableRow i).2 := by rw [hmask, BitVec.and_allOnes]
    _ = fieldOP (cw &&& (tableRow i).2) := BitVec.extractLsb'_and.symm
    _ = i.op.code := by rw [h, hmatch]

theorem unused_of_meets_tableRow {cw : Word32} {i : Instr}
    (h : cw &&& (tableRow i).2 = (tableRow i).1) : cw &&& ~~~i.op.usedBits = 0 := by
  have hmask : (tableRow i).2 &&& ~~~i.op.usedBits = ~~~i.op.usedBits := by
    cases i <;> simp only [tableRow, Instr.op] <;> decide
  have hmatch : (tableRow i).1 &&& ~~~i.op.usedBits = 0 := by
    cases i <;> simp only [tableRow, Instr.op] <;> decide
  rw [← hmask, ← BitVec.and_assoc, h, hmatch]

/-- Past the first two checks, the decoder stops at a slot field or answers the command. -/
theorem decode_ne_of_checked {cw : Word32} {op : Op} (hop : fieldOP cw = op.code)
    (h : cw &&& ~~~op.usedBits = 0) :
    decode cw ≠ .error .reservedOpcode ∧ decode cw ≠ .error .reservedBit := by
  rcases hbuild : buildInstr op cw with _ | i
  · simp [decode_noSuchSlot hop h hbuild]
  · rw [decode_of_buildInstr hop h hbuild]
    split_ifs <;> simp

/-- Settles O6: a word that decodes is its command's encoding, which meets the row; the mask of a row
holds the opcode and every unused bit; and two rows differ in a bit that both masks hold. -/
theorem decodedWordsMatchTheirTableRow : Obligations.DecodedWordsMatchTheirTableRow := by
  have hdecoded (cw : Word32) (i : Instr) (h : decode cw = .ok i) :
      cw &&& (tableRow i).2 = (tableRow i).1 := by
    rw [← encode_of_decode h]
    exact encode_meets_tableRow i
  refine ⟨hdecoded, fun cw i hrow => ?_, fun cw i j => tableRow_unique⟩
  obtain ⟨hopcode, hbit⟩ :=
    decode_ne_of_checked (fieldOP_of_meets_tableRow hrow) (unused_of_meets_tableRow hrow)
  exact ⟨hopcode, hbit, fun j hj => tableRow_unique (hdecoded cw j hj) hrow⟩

end Sys2Proof
end

section
/-! PROOFS. Numbers and command words as bytes, the least significant first (30_encoding R90, R92). -/

namespace Sys2Proof

open Sys2Proof.Machine Sys2Proof.Claims

theorem toNat_append_byte {n : Nat} (x : BitVec n) (b : Byte) :
    (x ++ b).toNat = b.toNat + 256 * x.toNat := by
  have hb := b.isLt
  rw [BitVec.toNat_append, ← Nat.shiftLeft_add_eq_or_of_lt hb, Nat.shiftLeft_eq]
  ring

/-! ### Command words -/

/-- The bytes of a command word as a number. -/
theorem toNat_eq_wordBytes (cw : Word32) :
    cw.toNat = (cw.extractLsb' 0 8).toNat + 256 * (cw.extractLsb' 8 8).toNat +
      65536 * (cw.extractLsb' 16 8).toNat + 16777216 * (cw.extractLsb' 24 8).toNat := by
  simp only [BitVec.extractLsb'_toNat, Nat.shiftRight_eq_div_pow]
  omega

theorem append_wordBytes (cw : Word32) :
    cw.extractLsb' 24 8 ++ cw.extractLsb' 16 8 ++ cw.extractLsb' 8 8 ++ cw.extractLsb' 0 8 = cw := by
  apply BitVec.eq_of_toNat_eq
  rw [toNat_append_byte, toNat_append_byte, toNat_append_byte, toNat_eq_wordBytes cw]
  ring

theorem decodeBytes_wordBytes {cw : Word32} {i : Instr} (h : decode cw = .ok i)
    (rest : List Byte) : decodeBytes (wordBytes cw ++ rest) = .ok (i, rest) := by
  simp only [wordBytes, List.cons_append, List.nil_append, decodeBytes, append_wordBytes, h]

/-- Settles O8: the four bytes make the word again, which decodes to its command. -/
theorem scriptBytesReadBack : Obligations.ScriptBytesReadBack := by
  intro i rest hwf
  exact ⟨⟨_, _, _, _, rfl, toNat_eq_wordBytes _⟩, decodeBytes_wordBytes (decode_encode hwf) rest⟩

/-! ### Numbers of a header -/

theorem u16At_toNat (h : List Byte) (i : Nat) : (u16At h i).toNat = num16 h i := by
  rw [u16At, le16, toNat_append_byte, num16, byteAt, byteAt]

theorem u32At_toNat (h : List Byte) (i : Nat) : (u32At h i).toNat = num32 h i := by
  rw [u32At, le32, toNat_append_byte, toNat_append_byte, toNat_append_byte, num32, num16, num16]
  simp only [byteAt]
  ring

/-- Settles O16: a number is its bytes from the lower offset up, and a tag its bytes as they stand. -/
theorem headerFieldsStandAtTheirOffsets : Obligations.HeaderFieldsStandAtTheirOffsets := by
  intro h
  exact ⟨rfl, u32At_toNat h 4, rfl, rfl, u32At_toNat h 16, u16At_toNat h 20, u16At_toNat h 22,
    u32At_toNat h 24, u32At_toNat h 28, u16At_toNat h 32, u16At_toNat h 34, rfl, u32At_toNat h 40⟩

end Sys2Proof
end

section
/-! PROOFS. Issuing a command word (30_encoding R80), and the reference words of
95_test_vectors section 2.1. -/

namespace Sys2Proof

open Sys2Proof.Machine

/-- Settles O3: both moves issue the word, and issuing a word that decodes runs its command. -/
theorem stepRunsTheDecodedCommand : Obligations.StepRunsTheDecodedCommand := by
  intro s cw rest i hs hdecode
  have hissue : issue cw (s.begin rest) = exec i (s.begin rest) := issue_ok hs hdecode
  refine ⟨fun h => (step_move h).trans hissue, ?_⟩
  rintro v rfl h
  exact (step_move h).trans hissue

/-- Settles O9: the decoder evaluated at each word. -/
theorem referenceWordsDecode : Obligations.ReferenceWordsDecode := by
  unfold Obligations.ReferenceWordsDecode
  decide

end Sys2Proof
end

section
/-! PROOFS. `trunc` and `round_half_away` of a finite value (40_container R122, 43_dynamics R213): both
put the sign of the value back on a floor of its magnitude. -/

namespace Sys2Proof

/-! ### A magnitude with a sign -/

theorem abs_ite_neg (neg : Bool) (m : Nat) : |if neg then -(m : Int) else (m : Int)| = m := by
  cases neg <;> simp

theorem ite_neg_mul_ite_neg_nonneg (neg : Bool) (m n : Nat) :
    0 ≤ (if neg then -(m : Int) else (m : Int)) * (if neg then -(n : Int) else (n : Int)) := by
  cases neg <;> simp <;> positivity

/-- Settles O59: the magnitude of `trunc` is the floor of a quotient of units, that of
`round_half_away` the floor of the quotient plus a half, and each has the sign of the value. -/
theorem truncAndRoundOfFiniteValues : Obligations.TruncAndRoundOfFiniteValues := by
  intro v hv
  obtain ⟨neg, ex, frac, rfl⟩ := F64.isFinite_iff.mp hv
  have hone := F64.unitsPerOne_pos
  have htwo := Nat.mul_pos two_pos hone
  refine ⟨⟨_, rfl, ?_, ?_, ite_neg_mul_ite_neg_nonneg neg _ _⟩,
    ⟨_, rfl, ?_, ?_, ite_neg_mul_ite_neg_nonneg neg _ _⟩⟩
  all_goals simp only [F64.units, abs_ite_neg]
  · exact_mod_cast Nat.div_mul_le_self _ _
  · exact_mod_cast Nat.lt_mul_of_div_lt (Nat.lt_succ_self _) hone
  · rw [mul_assoc, mul_left_comm]
    exact_mod_cast Nat.div_mul_le_self _ _
  · rw [mul_assoc, mul_left_comm]
    exact_mod_cast Nat.lt_mul_of_div_lt (Nat.lt_succ_self _) htwo

end Sys2Proof
end

section
/-! PROOFS. The bytes of a container (30_encoding R92, R96, 40_container R111, R121): what a number in
the middle of a list reads, the header as bytes, and one frame of two bytes per entry. -/

namespace Sys2Proof.Machine

open Sys2Proof.Claims

/-! ### Reading inside a longer list -/

theorem num16_take {b : List Byte} {n i : Nat} (h : i + 2 ≤ n) : num16 (b.take n) i = num16 b i := by
  simp [num16, show i < n by omega, show i + 1 < n by omega]

theorem num16_drop (b : List Byte) (n i : Nat) : num16 (b.drop n) i = num16 b (n + i) := by
  simp [num16, add_assoc]

theorem num16_append (a b : List Byte) (i : Nat) : num16 (a ++ b) (a.length + i) = num16 b i := by
  rw [← num16_drop, List.drop_left]

theorem num32_take {b : List Byte} {n i : Nat} (h : i + 4 ≤ n) : num32 (b.take n) i = num32 b i := by
  rw [num32, num16_take (by omega), num16_take (by omega), ← num32]

theorem frame16_take {b : List Byte} {n i : Nat} (h : i + 2 ≤ n) :
    frame16 (b.take n) i = frame16 b i := by
  rw [frame16, num16_take h, ← frame16]

theorem frame16_drop (b : List Byte) (n i : Nat) : frame16 (b.drop n) i = frame16 b (n + i) := by
  rw [frame16, num16_drop, ← frame16]

theorem frame16_append (a b : List Byte) (i : Nat) :
    frame16 (a ++ b) (a.length + i) = frame16 b i := by
  rw [frame16, num16_append, ← frame16]

theorem byteAt_take {h : List Byte} {n i : Nat} (hi : i < n) : byteAt (h.take n) i = byteAt h i := by
  simp [byteAt, hi]

/-! ### Numbers as bytes -/

theorem toLe16_le16 (b0 b1 : Byte) : toLe16 (le16 b0 b1).toNat = [b0, b1] := by
  have h0 := b0.isLt
  have h1 := b1.isLt
  simp only [toLe16, le16, toNat_append_byte, List.cons.injEq, and_true]
  constructor <;> apply BitVec.eq_of_toNat_eq <;> simp only [BitVec.toNat_ofNat] <;> omega

theorem toLe32_le32 (b0 b1 b2 b3 : Byte) : toLe32 (le32 b0 b1 b2 b3).toNat = [b0, b1, b2, b3] := by
  have h0 := b0.isLt
  have h1 := b1.isLt
  have h2 := b2.isLt
  have h3 := b3.isLt
  simp only [toLe32, le32, toNat_append_byte, List.cons.injEq, and_true]
  refine ⟨?_, ?_, ?_, ?_⟩ <;> apply BitVec.eq_of_toNat_eq <;> simp only [BitVec.toNat_ofNat] <;>
    omega

theorem le16_ofNat (v : Nat) :
    le16 (BitVec.ofNat 8 v) (BitVec.ofNat 8 (v / 2 ^ 8)) = BitVec.ofNat 16 v := by
  apply BitVec.eq_of_toNat_eq
  simp only [le16, toNat_append_byte, BitVec.toNat_ofNat]
  omega

theorem le32_ofNat (v : Nat) :
    le32 (BitVec.ofNat 8 v) (BitVec.ofNat 8 (v / 2 ^ 8)) (BitVec.ofNat 8 (v / 2 ^ 16))
      (BitVec.ofNat 8 (v / 2 ^ 24)) = BitVec.ofNat 32 v := by
  apply BitVec.eq_of_toNat_eq
  simp only [le32, toNat_append_byte, BitVec.toNat_ofNat]
  omega

/-! ### The header -/

theorem length_headerBytes (hdr : Header) (n : Nat) : (headerBytes hdr n).length = 44 := rfl

theorem parseHeader_take {h : List Byte} {n : Nat} (hn : 44 ≤ n) :
    parseHeader (h.take n) = parseHeader h := by
  have hbyte (i : Nat) (hi : i < 44) : byteAt (h.take n) i = byteAt h i :=
    byteAt_take (hi.trans_le hn)
  simp [parseHeader, tagAt, u32At, u16At, hbyte]

/-- Reading back a written header gives every field but the two sizes, which are recomputed. -/
theorem parseHeader_headerBytes (hdr : Header) (n : Nat) (rest : List Byte) :
    parseHeader (headerBytes hdr n ++ rest) = { hdr with
      containerSize := BitVec.ofNat 32 (36 + 2 * n), dataSize := BitVec.ofNat 32 (2 * n) } := by
  simp only [parseHeader, tagAt, u32At, u16At, byteAt, headerBytes, tagBytes, toLe32, toLe16,
    List.cons_append, List.nil_append, List.getD_cons_succ, List.getD_cons_zero, Nat.reduceAdd,
    le16_ofNat, le32_ofNat]
  simp only [BitVec.ofNat_toNat, BitVec.setWidth_eq]

theorem map_byteAt_range (h : List Byte) : (List.range h.length).map (byteAt h) = h := by
  apply List.ext_getElem <;> simp +contextual [byteAt]

/-- A header with consistent sizes is written as it was read. -/
theorem headerBytes_parseHeader {h : List Byte} {n : Nat} (hlen : h.length = 44)
    (hcontainer : num32 h 4 = 36 + 2 * n) (hdata : num32 h 40 = 2 * n) :
    headerBytes (parseHeader h) n = h := by
  have hbytes := map_byteAt_range h
  rw [hlen] at hbytes
  rw [headerBytes, ← hcontainer, ← hdata, ← u32At_toNat, ← u32At_toNat]
  simp only [parseHeader, u32At, u16At, toLe32_le32, toLe16_le16]
  exact hbytes

/-! ### The frames -/

theorem sext16_le16 (b0 b1 : Byte) (rest : List Byte) :
    sext16 (le16 b0 b1) = frame16 (b0 :: b1 :: rest) 0 := by
  simp [sext16, frame16, num16, le16, toNat_append_byte]

/-- One entry per frame: entry `i` is the frame at byte `2*i` (40_container R111). -/
theorem getElem?_decodeFrames {b : List Byte} {i : Nat} (h : 2 * i + 2 ≤ b.length) :
    (decodeFrames b)[i]? = some (F64.ofInt (frame16 b (2 * i))) := by
  induction b using decodeFrames.induct generalizing i with
  | case1 b0 b1 rest ih =>
    cases i with
    | zero => rw [decodeFrames, sext16_le16 b0 b1 rest]; rfl
    | succ i =>
      have hframe : frame16 (b0 :: b1 :: rest) (2 * (i + 1)) = frame16 rest (2 * i) := by
        rw [← frame16_append [b0, b1] rest, mul_add, add_comm]
        rfl
      rw [decodeFrames, List.getElem?_cons_succ, ih (by simpa [mul_add] using h), hframe]
  | case2 | case3 => simp at h

theorem sample16_eq_some {v : F64} {n : Int} :
    sample16 v = some n ↔ v.trunc = some n ∧ -32768 ≤ n ∧ n ≤ 32767 := by
  unfold sample16
  cases v.trunc with
  | none => simp
  | some q =>
    simp only [Option.ite_none_right_eq_some, Option.some.injEq]
    constructor
    · rintro ⟨hq, rfl⟩
      exact ⟨rfl, hq⟩
    · rintro ⟨rfl, hq⟩
      exact ⟨hq, rfl⟩

theorem frameBytes_of_sample16 {v : F64} {n : Int} (h : sample16 v = some n) :
    frameBytes v = toLe16 (n % 65536).toNat := by
  rw [frameBytes, h]

theorem length_flatMap_frameBytes {x : List F64} (h : ∀ v ∈ x, (sample16 v).isSome) :
    (x.flatMap frameBytes).length = 2 * x.length := by
  have hlen (v : F64) (hv : v ∈ x) : (frameBytes v).length = 2 := by
    obtain ⟨n, hn⟩ := Option.isSome_iff_exists.mp (h v hv)
    rw [frameBytes_of_sample16 hn]
    rfl
  rw [List.length_flatMap, List.map_congr_left hlen]
  simp [mul_comm]

/-- Two's complement: the frame an integer in range is written as reads back as that integer
(30_encoding R96). -/
theorem frame16_toLe16 {n : Int} (hlo : -32768 ≤ n) (hhi : n ≤ 32767) (rest : List Byte) :
    frame16 (toLe16 (n % 65536).toNat ++ rest) 0 = n := by
  simp only [frame16, num16, toLe16, List.cons_append, List.getD_cons_zero, List.getD_cons_succ,
    BitVec.toNat_ofNat, Nat.zero_add]
  split_ifs <;> omega

theorem isSome_of_forall₂_sample16 {x : List F64} {q : List Int}
    (h : List.Forall₂ (fun v n => sample16 v = some n) x q) : ∀ v ∈ x, (sample16 v).isSome := by
  induction h with
  | nil => exact List.forall_mem_nil _
  | cons hv _ ih => exact List.forall_mem_cons.mpr ⟨Option.isSome_of_eq_some hv, ih⟩

/-- The frames written read back as the integer parts of the entries. -/
theorem frame16_flatMap_frameBytes {x : List F64} {q : List Int}
    (h : List.Forall₂ (fun v n => sample16 v = some n) x q) {i : Nat} {n : Int}
    (hn : q[i]? = some n) : frame16 (x.flatMap frameBytes) (2 * i) = n := by
  induction h generalizing i with
  | nil => simp at hn
  | @cons v m x q hv _ ih =>
    rw [List.flatMap_cons, frameBytes_of_sample16 hv]
    obtain ⟨-, hlo, hhi⟩ := sample16_eq_some.mp hv
    cases i with
    | zero =>
      obtain rfl : m = n := by simpa using hn
      exact frame16_toLe16 hlo hhi _
    | succ i =>
      have hlen : 2 * (i + 1) = (toLe16 (m % 65536).toNat).length + 2 * i := by
        rw [mul_add, add_comm]
        rfl
      rw [hlen, frame16_append]
      exact ih (by simpa using hn)

/-- A decoded frame is in range, and its integer part is the integer it was read as. -/
theorem sample16_ofInt_sext16 (w : Word16) : sample16 (F64.ofInt (sext16 w)) = some (sext16 w) := by
  have hw := sext16_bounds w
  exact sample16_eq_some.mpr ⟨F64.trunc_ofInt (by omega), hw⟩

theorem frameBytes_ofInt_le16 (b0 b1 : Byte) :
    frameBytes (F64.ofInt (sext16 (le16 b0 b1))) = [b0, b1] := by
  have hmod : (sext16 (le16 b0 b1) % 65536).toNat = (le16 b0 b1).toNat := by
    have := (le16 b0 b1).isLt
    unfold sext16
    split_ifs <;> omega
  rw [frameBytes_of_sample16 (sample16_ofInt_sext16 _), hmod, toLe16_le16]

theorem isSome_sample16_of_mem_decodeFrames {b : List Byte} :
    ∀ v ∈ decodeFrames b, (sample16 v).isSome := by
  induction b using decodeFrames.induct with
  | case1 b0 b1 rest ih =>
    simp only [decodeFrames, List.forall_mem_cons, sample16_ofInt_sext16]
    exact ⟨rfl, ih⟩
  | case2 | case3 => simp [decodeFrames]

/-- Frames decoded and written again are the bytes they were. -/
theorem flatMap_frameBytes_decodeFrames {b : List Byte} (h : Even b.length) :
    (decodeFrames b).flatMap frameBytes = b := by
  induction b using decodeFrames.induct with
  | case1 b0 b1 rest ih =>
    rw [decodeFrames, List.flatMap_cons, frameBytes_ofInt_le16,
      ih (by simpa [Nat.even_add_one] using h)]
    rfl
  | case2 => simp at h
  | case3 => rfl

end Sys2Proof.Machine
end

section
/-! PROOFS. DECODE and ENCODE (40_container R110 to R122): what each commits when its checks pass, and
that the two together give a container back byte for byte. -/

namespace Sys2Proof.Machine

open Sys2Proof.Claims

/-! ### The header at the head of `SRC` -/

/-- The fields DECODE checks and derives from, in the words of the statements. -/
theorem parseHeader_srcRead (s : State) :
    parseHeader (s.srcRead headerLen) = parseHeader s.src := parseHeader_take le_rfl

theorem bitsPerSample_eq_supported {h : List Byte} :
    (parseHeader h).bitsPerSample = Config.supportedBits ↔ num16 h 34 = 16 := by
  rw [← u16At_toNat]
  exact BitVec.toNat_inj.symm

theorem byteRate_eq_zero {h : List Byte} : (parseHeader h).byteRate = 0 ↔ num32 h 28 = 0 := by
  rw [← u32At_toNat]
  exact BitVec.toNat_inj.symm

/-- At 16 bits a sample the derived sample count is `dataSize div 2` (40_container R114). -/
theorem sampleCount_parseHeader {s : State} (h : num16 s.src 34 = 16) :
    (deriveQuantities (parseHeader s.src)).sampleCount = announced s := by
  have hbits : (parseHeader s.src).bitsPerSample.toNat = 16 := (u16At_toNat _ _).trans h
  have hdata : (parseHeader s.src).dataSize.toNat = num32 s.src 40 := u32At_toNat _ _
  simp only [deriveQuantities, hbits, hdata, announced]
  omega

/-! ### DECODE -/

/-- The bytes of the announced frames, behind the header at the head of `SRC`. -/
def announcedFrames (s : State) : List Byte := (s.src.take (44 + 2 * announced s)).drop 44

theorem length_announcedFrames {s : State} (h : 44 + 2 * announced s ≤ s.src.length) :
    (announcedFrames s).length = 2 * announced s := by
  rw [announcedFrames, List.length_drop, List.length_take, min_eq_left h, Nat.add_sub_cancel_left]

theorem frame16_announcedFrames {s : State} {i : Nat} (h : i < announced s) :
    frame16 (announcedFrames s) (2 * i) = frame16 s.src (44 + 2 * i) := by
  rw [announcedFrames, frame16_drop, frame16_take (by omega)]

theorem take_header_append_announcedFrames (s : State) :
    s.src.take 44 ++ announcedFrames s = s.src.take (44 + 2 * announced s) := by
  have htake : s.src.take 44 = (s.src.take (44 + 2 * announced s)).take 44 := by
    rw [List.take_take, min_eq_left (Nat.le_add_right _ _)]
  rw [htake, announcedFrames, List.take_append_drop]

/-- The container DECODE makes of the bytes at the head of `SRC`. -/
def decodedContainer (s : State) : Container where
  hdr := parseHeader s.src
  der := deriveQuantities (parseHeader s.src)
  buf := decodeFrames (announcedFrames s)

theorem length_decodedContainer_buf {s : State} (h : 44 + 2 * announced s ≤ s.src.length) :
    (decodedContainer s).buf.length = announced s := by
  rw [decodedContainer, length_decodeFrames, length_announcedFrames h,
    Nat.mul_div_cancel_left _ two_pos]

/-- DECODE of an accepted header whose frames fit and are all there passes its five checks. -/
theorem decodeBody_of_accepted (d : SlotId) {s : State} (ha : HeaderAccepted s)
    (hfit : announced s ≤ s.cfg.nmax) (hlen : 44 + 2 * announced s ≤ s.src.length) :
    decodeBody d s =
      .ok ((s.srcDrop (44 + 2 * announced s)).setSlot d (some (decodedContainer s))) := by
  obtain ⟨h44, hbits, hrate⟩ := ha
  have hsupported := bitsPerSample_eq_supported.mpr hbits
  have hrate' := mt byteRate_eq_zero.mp hrate
  have hcount := sampleCount_parseHeader hbits
  unfold decodeBody
  simp only [bind_eq_ok, failIf_eq_ok, pure_eq_ok, parseHeader_srcRead, hcount]
  exact ⟨(), decide_eq_false (not_lt.mpr h44), (), bne_eq_false_iff_eq.mpr hsupported,
    (), beq_eq_false_iff_ne.mpr hrate', (), decide_eq_false (not_lt.mpr hfit),
    (), decide_eq_false (not_lt.mpr hlen), rfl⟩

/-- DECODE commits only when the announced frames are all there. -/
theorem decodeBody_ok_announced {d : SlotId} {s t : State} (h : decodeBody d s = .ok t) :
    44 + 2 * announced s ≤ s.src.length ∧
      t = (s.srcDrop (44 + 2 * announced s)).setSlot d (some (decodedContainer s)) := by
  obtain ⟨hbits, -, -, hlen, rfl⟩ := decodeBody_ok h
  rw [parseHeader_srcRead] at hbits hlen ⊢
  rw [sampleCount_parseHeader (bitsPerSample_eq_supported.mp hbits)] at hlen ⊢
  exact ⟨hlen, rfl⟩

/-- Settles O17: the container is the one DECODE makes of the head of `SRC`, and each part of it is
read off its bytes. -/
theorem decodeFillsTheSlot : Obligations.DecodeFillsTheSlot := by
  intro d s ha hfit hlen
  have ⟨_, hbits, _⟩ := ha
  refine ⟨decodedContainer s, exec_of_ok (decodeBody_of_accepted d ha hfit hlen),
    (parseHeader_take le_rfl).symm, sampleCount_parseHeader hbits, ?_, ?_,
    length_decodedContainer_buf hlen, fun i hi => ?_⟩
  · simp only [decodedContainer, deriveQuantities, parseHeader, u16At_toNat, hbits]
  · simp only [decodedContainer, deriveQuantities, parseHeader, u32At_toNat]
  · have hthere : 2 * i + 2 ≤ (announcedFrames s).length := by
      rw [length_announcedFrames hlen]
      omega
    rw [decodedContainer, getElem?_decodeFrames hthere, frame16_announcedFrames hi]

/-! ### ENCODE -/

/-- The bytes ENCODE writes of a container: the header, and one frame per entry. -/
def containerBytes (c : Container) : List Byte :=
  headerBytes c.hdr c.buf.length ++ c.buf.flatMap frameBytes

theorem length_containerBytes {c : Container} (h : ∀ v ∈ c.buf, (sample16 v).isSome) :
    (containerBytes c).length = 44 + 2 * c.buf.length := by
  rw [containerBytes, List.length_append, length_headerBytes, length_flatMap_frameBytes h]

/-- ENCODE of a slot whose amplitudes are all in range passes its check. -/
theorem encodeBody_of_inRange {d : SlotId} {s : State} {c : Container} (hc : s.slot d = some c)
    (h : ∀ v ∈ c.buf, (sample16 v).isSome) :
    encodeBody d s = .ok ((s.snkWrite (containerBytes c)).setSlot d none) := by
  have hnone : c.buf.findIdx? (fun v => (sample16 v).isNone) = none := by
    simpa [List.findIdx?_eq_none_iff, Option.isSome_iff_ne_none] using h
  have hrange : checkRange c.buf = .ok () := by rw [checkRange, hnone]
  rw [encodeBody, readSlot_eq_ok.mpr hc, ok_bind, hrange, ok_bind, pure_eq_ok, containerBytes]

/-- Settles O19: the header reads back but for its two sizes, and the frames read back as the integer
parts of the entries. -/
theorem encodeWritesTheContainer : Obligations.EncodeWritesTheContainer := by
  intro d s c q hc hq
  have hq' : List.Forall₂ (fun v n => sample16 v = some n) c.buf q :=
    hq.imp fun _ _ => sample16_eq_some.mpr
  have hrange := isSome_of_forall₂_sample16 hq'
  refine ⟨containerBytes c, exec_of_ok (encodeBody_of_inRange hc hrange),
    length_containerBytes hrange, parseHeader_headerBytes _ _ _, fun i n hn => ?_⟩
  rw [containerBytes, ← length_headerBytes c.hdr c.buf.length, frame16_append]
  exact frame16_flatMap_frameBytes hq' hn

/-! ### DECODE and ENCODE together -/

/-- A container with consistent sizes is written as the bytes it was read from: its header keeps the
sizes it has, and each frame is two bytes again. -/
theorem containerBytes_decodedContainer {s : State} (hlen : 44 + 2 * announced s ≤ s.src.length)
    (hdata : num32 s.src 40 = 2 * announced s) (hcontainer : num32 s.src 4 = 36 + 2 * announced s) :
    containerBytes (decodedContainer s) = s.src.take (44 + 2 * announced s) := by
  have hheader : headerBytes (parseHeader s.src) (announced s) = s.src.take 44 := by
    rw [← parseHeader_take (le_refl 44)]
    apply headerBytes_parseHeader
    · rw [List.length_take, min_eq_left (by omega)]
    · rwa [num32_take (by omega)]
    · rwa [num32_take (by omega)]
  have hframes : (decodeFrames (announcedFrames s)).flatMap frameBytes = announcedFrames s :=
    flatMap_frameBytes_decodeFrames ⟨announced s, by rw [length_announcedFrames hlen, two_mul]⟩
  rw [containerBytes, length_decodedContainer_buf hlen, decodedContainer, hheader, hframes,
    take_header_append_announcedFrames]

/-- Settles O21: the slot holds the decoded container, and ENCODE writes it as it was read. -/
theorem decodeThenEncodeIsTheIdentity : Obligations.DecodeThenEncodeIsTheIdentity := by
  intro d s ha hfit hlen hdata hcontainer
  have hslot := State.slot_setSlot_same (s.srcDrop (44 + 2 * announced s)) d
    (some (decodedContainer s))
  refine ⟨_, _, exec_of_ok (decodeBody_of_accepted d ha hfit hlen),
    exec_of_ok (encodeBody_of_inRange hslot isSome_sample16_of_mem_decodeFrames), ?_, ?_, ?_, ?_⟩
  · simp [containerBytes_decodedContainer hlen hdata hcontainer]
  all_goals simp

/-- Settles O44: what each of the two commits, and the number of bytes it takes or adds. -/
theorem containerCommandsChangeOnlySlotAndStream :
    Obligations.ContainerCommandsChangeOnlySlotAndStream := by
  intro d s t _ ht
  refine ⟨fun hdecode => ?_, fun hencode => ?_⟩
  · obtain ⟨hlen, rfl⟩ := decodeBody_ok_announced (bodyOf_ok_of_exec hdecode ht)
    simp +contextual [hlen, State.slot_setSlot_ne]
  · obtain ⟨c, hc, hrange, rfl⟩ := encodeBody_ok (bodyOf_ok_of_exec hencode ht)
    refine ⟨⟨c, hc, containerBytes c, length_containerBytes hrange, by simp [containerBytes]⟩, ?_⟩
    simp +contextual [State.slot_setSlot_ne]

end Sys2Proof.Machine
end

section
/-! PROOFS. The spectral commands (41_spectral R145 to R148): what FFT, IFFT and RECON commit, the
entries of a reconstruction, and the three commands one after the other. -/

namespace Sys2Proof.Machine

open Sys2Proof.Claims

/-! ### The common end of a transform -/

/-- The lowest index of a non-finite entry, in the words of the statements. -/
theorem firstNonFinite_of_lowest {y : List F64} {n : Nat}
    (hn : ∃ v, y[n]? = some v ∧ v.isFinite = false)
    (hlow : ∀ m < n, ∀ v, y[m]? = some v → v.isFinite = true) : firstNonFinite y = some n := by
  obtain ⟨v, hv, hfin⟩ := hn
  obtain ⟨hlt, rfl⟩ := List.getElem?_eq_some_iff.mp hv
  exact firstNonFinite_eq_some.mpr
    ⟨hlt, hfin, fun m hm => hlow m hm _ (List.getElem?_eq_getElem (hm.trans hlt))⟩

/-- A command whose pseudocode comes to the epilogue of 42_filters R197 ends as that epilogue does. -/
theorem endsWith_of_epilogue {i : Instr} {d : SlotId} {c : Container} {y : List F64} {s : State}
    (h : bodyOf i s = epilogue d c y s) : EndsWith i d c y s := by
  refine ⟨fun hfin => exec_of_ok ?_, fun n hn hlow => exec_of_error ?_⟩
  · exact h.trans (epilogue_eq_ok.mpr ⟨hfin, rfl⟩)
  · exact h.trans (epilogue_eq_error.mpr ⟨n, firstNonFinite_of_lowest hn hlow, rfl⟩)

/-! ### The two transforms -/

theorem exec_fft {d : SlotId} {s : State} {c : Container} (hc : s.slot d = some c)
    (hne : c.buf ≠ []) :
    exec (.fft d) s = .next { s with spec := some (s.num.dft (c.buf.map realCplx)) } :=
  exec_of_ok (fftBody_read hc hne)

theorem exec_ifft {s : State} {x : List Cplx} (hx : s.spec = some x) :
    exec .ifft s = .next { s with time := some (s.num.idft x) } :=
  exec_of_ok (ifftBody_read hx)

theorem length_spectrum (s : State) (x : List F64) :
    (s.num.dft (x.map realCplx)).length = x.length := by
  rw [State.num, length_dft, List.length_map]

/-- Settles O22: the committed spectrum has one bin per sample, whatever the record. -/
theorem fftWritesTheSpectrum : Obligations.FftWritesTheSpectrum := by
  intro d s c hc hne
  have hexec := exec_fft hc hne
  have hlen := length_spectrum s c.buf
  refine ⟨_, rfl, hexec, hlen, fun t ht => ?_⟩
  cases hexec.symm.trans ht
  exact ⟨by rw [State.statusReg, cplxLen, hlen], fun k => s.slot_set_spec _ k⟩

/-- Settles O23: the committed time buffer is as long as `SPEC`, whatever the record. -/
theorem ifftWritesTheTimeBuffer : Obligations.IfftWritesTheTimeBuffer := by
  intro s x hx
  have hexec := exec_ifft hx
  have hlen : (s.num.idft x).length = x.length := length_idft _ x
  refine ⟨_, rfl, hexec, hlen, fun t ht => ?_⟩
  cases hexec.symm.trans ht
  exact ⟨by rw [State.statusReg, cplxLen, hlen], rfl⟩

/-! ### The reconstruction -/

/-- The three parts of a reconstruction are two: all the real parts, and the tail of the buffer that
is longer than them. -/
theorem reconstruct_eq_append (x : List F64) (t : List Cplx) :
    reconstruct x t = t.map Cplx.re ++ x.drop t.length := by
  rcases le_total t.length x.length with h | h
  · rw [reconstruct, min_eq_right h, List.take_length, List.drop_of_length_le h, List.map_nil,
      List.append_nil]
  · rw [reconstruct, min_eq_left h, List.drop_of_length_le h, List.append_nil, List.append_nil,
      ← List.map_append, List.take_append_drop]

theorem isReconstruction_reconstruct (x : List F64) (t : List Cplx) :
    IsReconstruction x t (reconstruct x t) := by
  refine ⟨length_reconstruct x t, fun i z hz => ?_, fun i hi => ?_⟩
  · obtain ⟨hlt, -⟩ := List.getElem?_eq_some_iff.mp hz
    rw [reconstruct_eq_append, List.getElem?_append_left (by rwa [List.length_map]),
      List.getElem?_map, hz, Option.map_some]
  · rw [reconstruct_eq_append, List.getElem?_append_right (by rwa [List.length_map]),
      List.length_map, List.getElem?_drop, Nat.add_sub_cancel' hi]

/-- RECON ends with the reconstruction, as every transform ends. -/
theorem recon_endsWith {d : SlotId} {s : State} {c : Container} {t : List Cplx}
    (hc : s.slot d = some c) (ht : s.time = some t) (hne : c.buf ≠ []) :
    EndsWith (.recon d) d c (reconstruct c.buf t) s :=
  endsWith_of_epilogue (reconBody_read hc ht hne)

/-- Settles O24: the list of the pseudocode is the reconstruction by index. -/
theorem reconOverwritesWithRealParts : Obligations.ReconOverwritesWithRealParts :=
  fun _ _ c t hc ht hne =>
    ⟨_, isReconstruction_reconstruct c.buf t, recon_endsWith hc ht hne⟩

/-! ### The round trip -/

/-- A value close to another is finite, so that the epilogue lets the list through. -/
theorem allFinite_of_forall₂_close {x y : List F64} (h : List.Forall₂ Close y x) : AllFinite y := by
  induction h with
  | nil => exact allFinite_nil
  | cons hclose _ ih => exact allFinite_cons.mpr ⟨hclose.1, ih⟩

/-- A time buffer as long as the sample buffer replaces it whole. -/
theorem reconstruct_of_length_eq {x : List F64} {t : List Cplx} (h : t.length = x.length) :
    reconstruct x t = t.map Cplx.re := by
  rw [reconstruct_eq_append, List.drop_of_length_le h.ge, List.append_nil]

/-- What FFT, IFFT and RECON write over a buffer the record round-trips. -/
theorem reconstruct_close_of_roundTrips {num : Num} {x : List F64} (h : num.RoundTrips x) :
    List.Forall₂ Close (reconstruct x (num.idft (num.dft (x.map realCplx)))) x := by
  rw [reconstruct_of_length_eq (List.Forall₂.length_eq h)]
  exact List.forall₂_map_left_iff.mpr h

/-- Settles O25: FFT and IFFT leave the slots alone, so that RECON reads the buffer FFT read, and
commits the round trip of it. -/
theorem spectralRoundTripKeepsTheBuffer : Obligations.SpectralRoundTripKeepsTheBuffer := by
  intro d s c hc hne htrip
  have hclose := reconstruct_close_of_roundTrips htrip
  have hfft := exec_fft hc hne
  set spectrum := s.num.dft (c.buf.map realCplx)
  have hifft := exec_ifft (s := { s with spec := some spectrum }) rfl
  have hslot (k : SlotId) : State.slot { s with
      spec := some spectrum, time := some (s.num.idft spectrum) } k = s.slot k :=
    (State.slot_set_time { s with spec := some spectrum } _ k).trans (s.slot_set_spec _ k)
  obtain ⟨hrecon, -⟩ := recon_endsWith ((hslot d).trans hc) rfl hne
  refine ⟨_, _, _, _, hfft, hifft, hrecon (allFinite_of_forall₂_close hclose),
    State.slot_setSlot_same _ d _, hclose.length_eq, hclose, State.setSlot_faulted _ d _,
    fun k hk => ?_⟩
  rw [State.slot_setSlot_ne _ _ hk, hslot]

end Sys2Proof.Machine
end

section
/-! PROOFS. The biquads and the rolling average (42_filters R160 to R166, R180 to R182): the lists they
build, entry by entry, how each command ends with its list, and the buffers too short to change. -/

namespace Sys2Proof.Machine

open Sys2Proof.Claims

/-! ### Writing back what a slot holds -/

theorem State.setSlot_slot (s : State) (d : SlotId) : s.setSlot d (s.slot d) = s := by
  cases d <;> rfl

/-- A transform that builds the list it was given, of finite samples, changes nothing. -/
theorem exec_of_endsWith_same {i : Instr} {d : SlotId} {s : State} {c : Container} {y : List F64}
    (h : EndsWith i d c y s) (hy : y = c.buf) (hc : s.slot d = some c) (hfin : AllFinite c.buf) :
    exec i s = .next s := by
  subst hy
  have hexec : exec i s = .next (s.setSlot d (some c)) := h.1 hfin
  rw [hexec, ← hc, State.setSlot_slot]

/-! ### Biquad (42_filters R160 to R166) -/

/-- The recurrence behind two earlier samples `x2, x1` and two earlier outputs `y2, y1`. -/
theorem bqLoop_recurrence (t : Taps) (x1 x2 y1 y2 : F64) (x : List F64) (n : Nat)
    {v0 v1 v2 w1 w2 : F64} (h0 : (x2 :: x1 :: x)[n + 2]? = some v0)
    (h1 : (x2 :: x1 :: x)[n + 1]? = some v1) (h2 : (x2 :: x1 :: x)[n]? = some v2)
    (hy1 : (y2 :: y1 :: bqLoop t x1 x2 y1 y2 x)[n + 1]? = some w1)
    (hy2 : (y2 :: y1 :: bqLoop t x1 x2 y1 y2 x)[n]? = some w2) :
    (y2 :: y1 :: bqLoop t x1 x2 y1 y2 x)[n + 2]? = some (bqNext t v0 v1 v2 w1 w2) := by
  induction x generalizing x1 x2 y1 y2 n with
  | nil => simp at h0
  | cons v rest ih =>
    cases n with
    | zero =>
      cases h0; cases h1; cases h2; cases hy1; cases hy2
      rfl
    | succ n => exact ih v x1 (bqNext t v x1 x2 y1 y2) y1 n h0 h1 h2 hy1 hy2

theorem isBiquad_bqRun (t : Taps) (x : List F64) : IsBiquad t x (bqRun t x) := by
  refine ⟨length_bqRun t x, ?_⟩
  match x with
  | [] => exact ⟨fun _ _ => rfl, fun n x0 _ _ _ _ h0 => by simp at h0⟩
  | [v] => exact ⟨fun _ _ => rfl, fun n x0 _ _ _ _ h0 => by simp at h0⟩
  | v :: w :: rest =>
    refine ⟨fun n hn => ?_, fun n _ _ _ _ _ h0 h1 h2 h3 h4 =>
      bqLoop_recurrence t w v w v rest n h0 h1 h2 h3 h4⟩
    obtain rfl | rfl : n = 0 ∨ n = 1 := by omega
    · rfl
    · rfl

theorem isBqCoeff_bqCoeff (s : State) (mode : BqMode) (fc sr : F64) :
    IsBqCoeff s mode fc sr (s.bqCoeff mode fc sr) := by
  refine ⟨?_, ?_, fun n h => State.bqCoeff_free h mode fc sr⟩
  · rintro h rfl
    rw [State.bqCoeff_low h]
    exact ⟨_, rfl, rfl, rfl, rfl, rfl, rfl⟩
  · rintro h rfl
    rw [State.bqCoeff_high h]
    exact ⟨_, rfl, rfl, rfl, rfl, rfl, rfl⟩

theorem bqlp_endsWith {d : SlotId} {s : State} {c : Container} (hc : s.slot d = some c)
    (hne : c.buf ≠ []) :
    EndsWith (.bqlp d) d c (bqRun (s.bqCoeff .low (s.pf 0) c.rate) c.buf) s :=
  endsWith_of_epilogue (biquadBody_read .low hc hne)

theorem bqhp_endsWith {d : SlotId} {s : State} {c : Container} (hc : s.slot d = some c)
    (hne : c.buf ≠ []) :
    EndsWith (.bqhp d) d c (bqRun (s.bqCoeff .high (s.pf 0) c.rate) c.buf) s :=
  endsWith_of_epilogue (biquadBody_read .high hc hne)

/-- Settles O27: the loop carries the last two samples and outputs, which are those the recurrence
names by index. -/
theorem biquadsRunTheRecurrence : Obligations.BiquadsRunTheRecurrence :=
  fun _ s _ hc hne =>
    ⟨⟨_, _, isBqCoeff_bqCoeff s .low _ _, isBiquad_bqRun _ _, bqlp_endsWith hc hne⟩,
      ⟨_, _, isBqCoeff_bqCoeff s .high _ _, isBiquad_bqRun _ _, bqhp_endsWith hc hne⟩⟩

/-- Two samples or fewer are all passed through (42_filters R165). -/
theorem bqRun_of_short (t : Taps) {x : List F64} (h : x.length ≤ 2) : bqRun t x = x := by
  match x with
  | [] => rfl
  | [_] => rfl
  | [_, _] => rfl
  | _ :: _ :: _ :: _ => simp at h

/-! ### Sums over an index -/

/-- The model sums a list, the statements an index; both from `+0.0` in the same order. -/
theorem sumFrom0_map_range (f : Nat → F64) (n : Nat) :
    sumFrom0 ((List.range n).map f) = sumTo f n := by
  induction n with
  | zero => rfl
  | succ n ih =>
    rw [sumFrom0] at ih
    rw [sumFrom0, List.range_succ, List.map_append, List.foldl_append, ih]
    rfl

theorem sumTo_congr {f g : Nat → F64} {n : Nat} (h : ∀ i < n, f i = g i) :
    sumTo f n = sumTo g n := by
  induction n with
  | zero => rfl
  | succ n ih => rw [sumTo, sumTo, ih fun i hi => h i (by omega), h n (by omega)]

/-- The sum of `n` entries of a list from index `lo` on. -/
theorem sumFrom0_take_drop {x : List F64} {lo n : Nat} (h : lo + n ≤ x.length) :
    sumFrom0 ((x.drop lo).take n) = sumTo (fun m => x.getD (lo + m) F64.zero) n := by
  rw [← sumFrom0_map_range]
  congr 1
  apply List.ext_getElem
  · simp only [List.length_take, List.length_drop, List.length_map, List.length_range]
    omega
  · intro m h1 _
    rw [List.length_take] at h1
    rw [List.getElem_take, List.getElem_drop, List.getElem_map, List.getElem_range,
      List.getD_eq_getElem _ _ (by omega)]

/-! ### Rolling average (42_filters R180 to R182) -/

/-- At every index of the buffer there are as many samples up to it as the window takes. -/
theorem windowMean_eq {x : List F64} {w i : Nat} (hw : 0 < w) (hi : i < x.length) :
    windowMean x w i =
      (sumTo (fun m => x.getD (i + 1 - min (i + 1) w + m) F64.zero) (min (i + 1) w)).div
        (F64.ofNat (min (i + 1) w)) := by
  have hlo : i + 1 - w = i + 1 - min (i + 1) w := by omega
  have hcnt : i - (i + 1 - w) + 1 = min (i + 1) w := by omega
  simp only [windowMean, hcnt]
  rw [hlo, sumFrom0_take_drop (by omega)]

theorem getElem?_ravgRun {x : List F64} {i : Nat} (w : Nat) (hi : i < x.length) :
    (ravgRun x w)[i]? = some (if i + 6 ≤ x.length then windowMean x w i else x[i]) := by
  rw [ravgRun, List.getElem?_map, List.getElem?_range hi, Option.map_some, sampleAt,
    List.getD_eq_getElem _ _ hi]

theorem isRollingAverage_ravgRun (x : List F64) {w : Nat} (hw : 0 < w) :
    IsRollingAverage w x (ravgRun x w) := by
  refine ⟨length_ravgRun x w, fun i hi => ?_, fun i hi => ?_⟩
  · rw [getElem?_ravgRun w (by omega), if_pos hi, windowMean_eq hw (by omega)]
  · rcases Nat.lt_or_ge i x.length with hlt | hge
    · rw [getElem?_ravgRun w hlt, if_neg (by omega), List.getElem?_eq_getElem hlt]
    · rw [List.getElem?_eq_none hge, List.getElem?_eq_none ((length_ravgRun x w).trans_le hge)]

theorem ravg_endsWith {d : SlotId} {s : State} {c : Container} (hc : s.slot d = some c)
    (hne : c.buf ≠ []) (hw : 0 < s.pn 0) : EndsWith (.ravg d) d c (ravgRun c.buf (s.pn 0)) s := by
  have hw0 : ¬ (s.pn 0 == 0) = true := by simpa using hw.ne'
  exact endsWith_of_epilogue ((ravgBody_read hc hne).trans (if_neg hw0))

/-- Settles O32: the window of the model is the window of the statement, and a window of 0 is
refused before any is formed. -/
theorem ravgAveragesRawSamples : Obligations.RavgAveragesRawSamples := by
  refine fun d s c hc hne => ⟨fun hw => exec_of_error ?_, fun hw => ?_⟩
  · exact (ravgBody_read hc hne).trans (if_pos (beq_iff_eq.mpr hw))
  · exact ⟨_, isRollingAverage_ravgRun c.buf hw, ravg_endsWith hc hne hw⟩

/-- Five samples or fewer are all left as they are (42_filters R182). -/
theorem ravgRun_of_short {x : List F64} (w : Nat) (h : x.length ≤ 5) : ravgRun x w = x := by
  apply List.ext_getElem? fun i => ?_
  rcases Nat.lt_or_ge i x.length with hlt | hge
  · rw [getElem?_ravgRun w hlt, if_neg (by omega), List.getElem?_eq_getElem hlt]
  · rw [List.getElem?_eq_none hge, List.getElem?_eq_none ((length_ravgRun x w).trans_le hge)]

/-- Settles O28: each command builds the list it was given. -/
theorem shortBuffersPassThrough : Obligations.ShortBuffersPassThrough := by
  refine fun d s c hc hne hfin => ⟨fun hlen => ⟨?_, ?_⟩, fun hlen hw => ?_⟩
  · exact exec_of_endsWith_same (bqlp_endsWith hc hne) (bqRun_of_short _ hlen) hc hfin
  · exact exec_of_endsWith_same (bqhp_endsWith hc hne) (bqRun_of_short _ hlen) hc hfin
  · exact exec_of_endsWith_same (ravg_endsWith hc hne hw) (ravgRun_of_short _ hlen) hc hfin

end Sys2Proof.Machine
end

section
/-! PROOFS. FIRLP (42_filters R170 to R175): the order of its checks, the convolution by index, and
the kernel of one tap. -/

namespace Sys2Proof.Machine

open Sys2Proof.Claims

/-! ### The checks -/

/-- Settles O30: the two checks stand in this order before the kernel is formed. -/
theorem firlpChecksCutoffThenLength : Obligations.FirlpChecksCutoffThenLength := by
  refine fun d s c hc hne => ⟨fun hfc => exec_of_error ?_, fun hfc hm => exec_of_error ?_⟩
  · exact (firlpBody_read hc hne).trans (if_pos hfc)
  · have hm' : (s.pn 1 == 0 || decide (c.buf.length ≤ s.pn 1)) = true := by
      rw [Bool.or_eq_true, beq_iff_eq, decide_eq_true_iff]
      exact hm
    have hfc' : ¬ (s.pf 0).gt (c.rate.div F64.two) = true := by
      rw [Bool.not_eq_true]
      exact hfc
    exact ((firlpBody_read hc hne).trans (if_neg hfc')).trans (if_pos hm')

/-! ### The convolution -/

theorem sampleAt_sincKernel (tap : Nat → F64) {m i : Nat} (hi : i < m) :
    sampleAt (sincKernel tap m) i = (tap i).div (sumTo tap m) := by
  rw [sampleAt, List.getD_eq_getElem _ _ (by simpa using hi), ← sumFrom0_map_range]
  simp [sincKernel]

/-- Dropping the first `M` samples, output `k` is the convolution at index `k + M`. -/
theorem isFir_firRun (tap : Nat → F64) (m : Nat) (x : List F64) :
    IsFir tap m x (firRun (sincKernel tap m) x) := by
  refine ⟨fun i => (tap i).div (sumTo tap m), fun _ _ => rfl, by simp, fun k hk => ?_⟩
  have hrange : k < x.length - m := by omega
  simp only [firRun, length_sincKernel, List.getElem?_map, List.getElem?_range hrange,
    Option.map_some, firDot, sumFrom0_map_range]
  congr 1
  exact sumTo_congr fun i hi => by rw [sampleAt_sincKernel tap hi, sampleAt]

theorem isFirKernel_firTap (s : State) (cutoff : F64) (m : Nat) :
    IsFirKernel s cutoff m (s.firTap cutoff m) :=
  ⟨fun h i _ => State.firTap_default h cutoff m i, fun _ h i _ => State.firTap_free h cutoff m i⟩

theorem firlp_endsWith {d : SlotId} {s : State} {c : Container} (hc : s.slot d = some c)
    (hfc : (s.pf 0).gt (c.rate.div F64.two) = false) (hm : 0 < s.pn 1)
    (hlen : s.pn 1 < c.buf.length) :
    EndsWith (.firlp d) d c
      (firRun (sincKernel (s.firTap ((s.pf 0).div c.rate) (s.pn 1)) (s.pn 1)) c.buf) s := by
  have hne : c.buf ≠ [] := List.ne_nil_of_length_pos (by omega)
  have hok : (s.pn 1 == 0 || decide (c.buf.length ≤ s.pn 1)) = false := by
    rw [Bool.or_eq_false_iff, beq_eq_false_iff_ne, decide_eq_false_iff_not]
    omega
  apply endsWith_of_epilogue
  rw [bodyOf, firlpBody_read hc hne, hfc, hok]
  rfl

/-- Settles O29: the taps are those of the block, and the list is their convolution by index. -/
theorem firlpConvolvesTheKernel : Obligations.FirlpConvolvesTheKernel :=
  fun _ s c hc hfc hm hlen =>
    ⟨_, _, isFirKernel_firTap s _ _, isFir_firRun _ _ c.buf, firlp_endsWith hc hfc hm hlen⟩

/-- The statement leaves no choice of taps. -/
theorem eq_firTap_of_isFirKernel {s : State} {cutoff : F64} {m : Nat} {g : Nat → F64}
    (h : IsFirKernel s cutoff m g) {i : Nat} (hi : i < m) : g i = s.firTap cutoff m i := by
  obtain ⟨hdefault, hfree⟩ := h
  cases hfir : s.cfg.fir with
  | default => exact (hdefault hfir i hi).trans (State.firTap_default hfir cutoff m i).symm
  | free n => exact (hfree n hfir i hi).trans (State.firTap_free hfir cutoff m i).symm

end Sys2Proof.Machine

namespace Sys2Proof

/-! ### Exact rounding -/

/-- Rounding is exact on the values of the format: the nearest value to one of them is itself. -/
theorem F64.roundUnits_of_magUnits (neg : Bool) (ey : Fin 2047) (fy : BitVec 52) {den : Nat}
    (hden : 0 < den) :
    ∃ ex frac, F64.roundUnits neg (F64.magUnits ey fy * den) den = .fin neg ex frac ∧
      F64.magUnits ex frac = F64.magUnits ey fy := by
  have hlt : F64.magUnits ey fy < (2 ^ 54 - 1) * 2 ^ 2044 := by
    have hsig := F64.significand_lt ey fy
    have hexp : (2 : Nat) ^ (ey.val - 1) ≤ 2 ^ 2045 := pow_le_pow_right₀ one_le_two (by omega)
    calc F64.magUnits ey fy ≤ (2 ^ 53 - 1) * 2 ^ 2045 :=
          Nat.mul_le_mul (Nat.le_sub_one_of_lt hsig) hexp
      _ < (2 ^ 54 - 1) * 2 ^ 2044 := by
        rw [pow_succ 2 2044]
        have : 0 < (2 : Nat) ^ 2044 := by positivity
        generalize (2 : Nat) ^ 2044 = u at this ⊢
        omega
  rcases F64.roundUnits_cases neg (F64.magUnits ey fy * den) den with h | ⟨ex, frac, h⟩
  · have hle := (F64.roundUnits_eq_inf_iff neg hden).mp h
    exact absurd (Nat.le_of_mul_le_mul_right hle hden) (Nat.not_le.mpr hlt)
  · refine ⟨ex, frac, h, ?_⟩
    have hnear := (F64.roundUnits_nearest hden (ey := ey) (fy := fy) h).1
    rw [sub_self, abs_zero, abs_nonpos_iff, sub_eq_zero, Nat.cast_inj] at hnear
    exact Nat.eq_of_mul_eq_mul_right hden hnear

/-- A quotient that is the value of a finite `v` rounds to that value. -/
theorem F64.roundUnits_of_units {v : F64} (hv : v.isFinite = true) {den : Nat} (hden : 0 < den) :
    (F64.roundUnits (decide (v.units < 0)) (v.units.natAbs * den) den).isFinite = true ∧
      (F64.roundUnits (decide (v.units < 0)) (v.units.natAbs * den) den).units = v.units := by
  obtain ⟨t, ey, fy, rfl⟩ := F64.isFinite_iff.mp hv
  obtain ⟨ex, frac, h, hmag⟩ :=
    F64.roundUnits_of_magUnits (decide ((F64.fin t ey fy).units < 0)) ey fy hden
  rw [F64.natAbs_units_fin, h]
  refine ⟨rfl, ?_⟩
  rw [F64.units, hmag, ← F64.natAbs_units_fin t, ite_neg_natAbs]

/-- Added to `+0.0` a finite value stays what it is, but for the sign of a zero. -/
theorem F64.zero_add_of_finite {a : F64} (ha : a.isFinite = true) :
    (F64.zero.add a).isFinite = true ∧ (F64.zero.add a).units = a.units := by
  have hzero : F64.zero.units = 0 := by decide
  by_cases h : a.units = 0
  · obtain ⟨s, ex, frac, rfl⟩ := F64.isFinite_iff.mp ha
    have hsum : F64.zero.add (.fin s ex frac) = F64.zero := if_pos (by rwa [h, Int.add_zero])
    rw [hsum, hzero, h]
    exact ⟨rfl, rfl⟩
  · have hsum : F64.zero.units + a.units = a.units := by rw [hzero, Int.zero_add]
    rw [F64.add_eq_roundUnits rfl ha (by rwa [hsum]), hsum]
    simpa using F64.roundUnits_of_units ha one_pos

theorem F64.units_one : F64.one.units = F64.unitsPerOne := by
  rw [F64.one, F64.ofNat, F64.units_ofInt (by norm_num)]
  exact one_mul _

/-- A finite value that is not a zero, divided by itself, is 1. -/
theorem F64.div_of_units_eq {a b : F64} (ha : a.isFinite = true) (hb : b.isFinite = true)
    (heq : b.units = a.units) (h : a.units ≠ 0) :
    (a.div b).isFinite = true ∧ (a.div b).units = F64.unitsPerOne := by
  have hone := F64.roundUnits_of_units (v := F64.one) (F64.isFinite_ofInt (by norm_num))
    (Int.natAbs_pos.mpr h)
  rw [F64.units_one, Int.natAbs_natCast, Nat.mul_comm, decide_eq_false (by omega)] at hone
  rw [F64.div_eq_roundUnits ha hb (by rw [heq]; exact mul_ne_zero h h), heq,
    decide_eq_false (not_lt.mpr (mul_self_nonneg _))]
  exact hone

/-- A product with a value 1 keeps the other factor. -/
theorem F64.mul_of_units_one {a b : F64} (ha : a.isFinite = true) (hb : b.isFinite = true)
    (hone : b.units = F64.unitsPerOne) :
    (a.mul b).isFinite = true ∧ (a.mul b).units = a.units := by
  obtain ⟨s, ex, fx, rfl⟩ := F64.isFinite_iff.mp ha
  obtain ⟨t, ey, fy, rfl⟩ := F64.isFinite_iff.mp hb
  have hpos := F64.unitsPerOne_pos
  have hmag : F64.magUnits ey fy = F64.unitsPerOne := by
    rw [← F64.natAbs_units_fin t, hone, Int.natAbs_natCast]
  have hsign : t = false := by
    cases t with
    | false => rfl
    | true =>
      rw [F64.units, if_pos rfl] at hone
      omega
  obtain ⟨ez, fz, h, hz⟩ := F64.roundUnits_of_magUnits (s != t) ex fx hpos
  rw [F64.mul, hmag, h, hsign, Bool.bne_false]
  exact ⟨rfl, by rw [F64.units_fin, F64.units_fin, hz]⟩

end Sys2Proof

namespace Sys2Proof.Machine

open Sys2Proof.Claims

/-! ### One tap (42_filters R175) -/

/-- One tap normalises to 1, and the convolution with it drops the first sample: every output is a
sample, but that `-0.0` becomes `+0.0`. -/
theorem isFir_one_tap {g : Nat → F64} {x y : List F64} (h : IsFir g 1 x y) (hx : AllFinite x)
    (hg : (g 0).isFinite = true) (hg0 : (g 0).feq F64.zero = false) :
    AllFinite y ∧ List.Forall₂ (fun v u => v.feq u = true) y (x.drop 1) := by
  obtain ⟨tap, htap, hlen, hy⟩ := h
  have hne : (g 0).units ≠ 0 := by
    rw [← Bool.not_eq_true, F64.feq_iff_units hg rfl] at hg0
    exact hg0
  obtain ⟨hsum, hsumUnits⟩ := F64.zero_add_of_finite hg
  obtain ⟨hfin, hone⟩ := F64.div_of_units_eq hg hsum hsumUnits hne
  rw [show (g 0).div (F64.zero.add (g 0)) = tap 0 from (htap 0 one_pos).symm] at hfin hone
  rw [AllFinite, ← List.forall₂_and_left, List.forall₂_iff_get]
  refine ⟨by rw [hlen, List.length_drop], fun k hk _ => ?_⟩
  have hkx : k + 1 < x.length := by omega
  have hsample : x[k + 1].isFinite = true := hx _ (List.getElem_mem hkx)
  obtain ⟨hprod, hprodUnits⟩ := F64.mul_of_units_one hsample hfin hone
  obtain ⟨hout, houtUnits⟩ := F64.zero_add_of_finite hprod
  have hyk : y[k] = F64.zero.add (x[k + 1].mul (tap 0)) := by
    rw [← Option.some_inj, ← List.getElem?_eq_getElem hk, hy k hkx, sumTo, sumTo, Nat.sub_zero,
      List.getD_eq_getElem _ _ hkx]
  simp only [List.get_eq_getElem, hyk, List.getElem_drop, Nat.add_comm 1 k]
  exact ⟨hout, (F64.feq_iff_units hout hsample).mpr (houtUnits.trans hprodUnits)⟩

/-- Settles O31: the taps of the statement are those of the block, so that FIRLP builds the list
`isFir_one_tap` speaks of. -/
theorem firlpWithOneTapDropsASample : Obligations.FirlpWithOneTapDropsASample := by
  intro d s c g hc hlen hx hfc hp hg hfin hne
  have hm : s.pn 1 = 1 := congrArg BitVec.toNat hp
  have hend := firlp_endsWith hc hfc (by omega) (by omega)
  rw [hm] at hend
  rw [eq_firTap_of_isFirKernel hg one_pos] at hfin hne
  obtain ⟨hy, hsame⟩ := isFir_one_tap (isFir_firRun _ 1 c.buf) hx hfin hne
  exact ⟨_, hend.1 hy, hsame⟩

end Sys2Proof.Machine
end

section
/-! PROOFS. HPF2 (42_filters R190, R191): the second differences by index, and their exactness on
integers; and what every transform leaves unchanged (R197). -/

namespace Sys2Proof

/-! ### Exact operations on integers -/

/-- `float(n)` in units. -/
theorem F64.ofInt_eq_roundUnits_units (n : Int) :
    F64.ofInt n = F64.roundUnits (decide (n * F64.unitsPerOne < 0))
      (n * F64.unitsPerOne).natAbs 1 := by
  have hpos : (0 : Int) < F64.unitsPerOne := Int.natCast_pos.mpr F64.unitsPerOne_pos
  have hsign : n * F64.unitsPerOne < 0 ↔ n < 0 := by
    simp only [mul_neg_iff, hpos, hpos.not_gt, and_false, false_or, and_true]
  simp only [hsign, Int.natAbs_mul, Int.natAbs_natCast]
  rfl

theorem F64.ofInt_zero : F64.ofInt 0 = F64.zero := by decide +kernel

/-- The sum of two whole values that do not cancel is their sum rounded once. -/
theorem F64.add_of_whole {v w : F64} {a b : Int} (hv : v.isFinite = true) (hw : w.isFinite = true)
    (ha : v.units = a * F64.unitsPerOne) (hb : w.units = b * F64.unitsPerOne) (h : a + b ≠ 0) :
    v.add w = F64.ofInt (a + b) := by
  have hunits : v.units + w.units = (a + b) * F64.unitsPerOne := by rw [ha, hb, add_mul]
  have hne : v.units + w.units ≠ 0 := by
    rw [hunits]
    exact mul_ne_zero h (Int.natCast_ne_zero.mpr F64.unitsPerOne_pos.ne')
  rw [F64.add_eq_roundUnits hv hw hne, hunits, ← F64.ofInt_eq_roundUnits_units]

/-- Scaling both parts of a quotient does not change its rounding to an integer. -/
theorem nearestEven_mul_right (num den : Nat) {k : Nat} (hk : 0 < k) :
    nearestEven (num * k) (den * k) = nearestEven num den := by
  simp only [nearestEven, Nat.mul_div_mul_right _ _ hk, Nat.mul_mod_mul_right, ← Nat.mul_assoc,
    Nat.mul_lt_mul_right hk]

/-- Scaling both parts of a quotient does not change its rounding to binary64. -/
theorem F64.roundUnits_mul_right (neg : Bool) (num den : Nat) {k : Nat} (hk : 0 < k) :
    F64.roundUnits neg (num * k) (den * k) = F64.roundUnits neg num den := by
  simp only [F64.roundUnits, Nat.mul_div_mul_right _ _ hk, Nat.mul_right_comm den k,
    nearestEven_mul_right _ _ hk]

section Integers
variable {a b : Int} (ha : a.natAbs < 2 ^ 53) (hb : b.natAbs < 2 ^ 53)
include ha hb

/-- The sum of two exact integers is their sum rounded once: the sum of two that cancel is `+0.0`,
since no exact integer is `-0.0`. -/
theorem F64.ofInt_add_ofInt : (F64.ofInt a).add (F64.ofInt b) = F64.ofInt (a + b) := by
  by_cases h : a + b = 0
  · have hunits : (F64.ofInt a).units + (F64.ofInt b).units = 0 := by
      rw [F64.units_ofInt ha, F64.units_ofInt hb, ← add_mul, h, Int.zero_mul]
    have hsign : (decide (a < 0) && decide (b < 0)) = false := by
      rw [← Bool.decide_and, decide_eq_false_iff_not]
      omega
    obtain ⟨ex, fx, hx, -⟩ := F64.ofInt_exact ha
    obtain ⟨ey, fy, hy, -⟩ := F64.ofInt_exact hb
    rw [hx, hy] at hunits ⊢
    rw [F64.add, if_pos hunits, hsign, h, F64.ofInt_zero, F64.zero]
  · exact F64.add_of_whole (F64.isFinite_ofInt ha) (F64.isFinite_ofInt hb) (F64.units_ofInt ha)
      (F64.units_ofInt hb) h

/-- The difference of two exact integers is their difference rounded once: that of two equal ones is
`+0.0`. -/
theorem F64.ofInt_sub_ofInt : (F64.ofInt a).sub (F64.ofInt b) = F64.ofInt (a - b) := by
  have hneg : (F64.ofInt b).neg.units = -b * F64.unitsPerOne := by
    rw [F64.units_neg, F64.units_ofInt hb, neg_mul]
  rw [F64.sub, sub_eq_add_neg]
  by_cases h : a + -b = 0
  · have hunits : (F64.ofInt a).units + (F64.ofInt b).neg.units = 0 := by
      rw [F64.units_ofInt ha, hneg, ← add_mul, h, Int.zero_mul]
    obtain rfl : a = b := by omega
    obtain ⟨ex, fx, hx, -⟩ := F64.ofInt_exact ha
    rw [hx] at hunits ⊢
    rw [F64.neg] at hunits ⊢
    rw [F64.add, if_pos hunits, Bool.and_not_self, h, F64.ofInt_zero, F64.zero]
  · exact F64.add_of_whole (F64.isFinite_ofInt ha)
      ((F64.isFinite_neg _).trans (F64.isFinite_ofInt hb)) (F64.units_ofInt ha) hneg h

/-- The product with a positive integer is rounded once, with the sign of the other factor. -/
theorem F64.ofInt_mul_ofInt (hpos : 0 < a) :
    (F64.ofInt a).mul (F64.ofInt b) = F64.ofInt (a * b) := by
  obtain ⟨ex, fx, hx, hmx⟩ := F64.ofInt_exact ha
  obtain ⟨ey, fy, hy, hmy⟩ := F64.ofInt_exact hb
  have hsign : (decide (a < 0) != decide (b < 0)) = decide (a * b < 0) := by
    simp only [mul_neg_iff, hpos, hpos.not_gt, true_and, false_and, or_false, decide_false,
      Bool.false_bne]
  have hmag : a.natAbs * F64.unitsPerOne * (b.natAbs * F64.unitsPerOne) =
      (a * b).natAbs * F64.unitsPerOne * F64.unitsPerOne := by
    rw [Int.natAbs_mul]
    ring
  have hround := F64.roundUnits_mul_right (decide (a * b < 0)) ((a * b).natAbs * F64.unitsPerOne) 1
    F64.unitsPerOne_pos
  rw [Nat.one_mul, ← hmag] at hround
  rw [hx, hy, F64.mul, hmx, hmy, hsign, hround]
  rfl

end Integers

end Sys2Proof

namespace Sys2Proof.Machine

open Sys2Proof.Claims

/-! ### The second difference -/

/-- The second difference behind two earlier samples `x2, x1`. -/
theorem hpfLoop_difference (x1 x2 : F64) (x : List F64) (n : Nat) {v0 v1 v2 : F64}
    (h0 : (x2 :: x1 :: x)[n + 2]? = some v0) (h1 : (x2 :: x1 :: x)[n + 1]? = some v1)
    (h2 : (x2 :: x1 :: x)[n]? = some v2) :
    (hpfLoop x1 x2 x)[n]? = some ((v0.sub (F64.two.mul v1)).add v2) := by
  induction x generalizing x1 x2 n with
  | nil => simp at h0
  | cons v rest ih =>
    cases n with
    | zero =>
      cases h0; cases h1; cases h2
      rfl
    | succ n => exact ih v x1 n h0 h1 h2

theorem isSecondDifference_hpfRun (x : List F64) : IsSecondDifference x (hpfRun x) := by
  refine ⟨length_hpfRun x, ?_⟩
  match x with
  | [] => exact ⟨fun n _ h => by simp at h, fun n x0 _ _ h0 => by simp at h0⟩
  | [v] =>
    refine ⟨fun n _ h => ?_, fun n x0 _ _ h0 => by simp at h0⟩
    obtain rfl : n = 0 := by simpa using h
    rfl
  | v :: w :: rest =>
    refine ⟨fun n hn _ => ?_, fun n _ _ _ h0 h1 h2 => hpfLoop_difference w v rest n h0 h1 h2⟩
    obtain rfl | rfl : n = 0 ∨ n = 1 := by omega
    · rfl
    · rfl

theorem hpf2_endsWith {d : SlotId} {s : State} {c : Container} (hc : s.slot d = some c)
    (hne : c.buf ≠ []) : EndsWith (.hpf2 d) d c (hpfRun c.buf) s :=
  endsWith_of_epilogue (hpf2Body_read hc hne)

/-- Settles O33: the loop carries the last two samples, which are those the difference names by
index. -/
theorem hpf2TakesSecondDifferences : Obligations.Hpf2TakesSecondDifferences :=
  fun _ _ c hc hne => ⟨_, isSecondDifference_hpfRun c.buf, hpf2_endsWith hc hne⟩

/-! ### Integer samples -/

/-- The second difference of integers at index `i`, 0 at the first two. -/
def intDifference (q : List Int) (i : Nat) : Int :=
  if i < 2 then 0 else q.getD i 0 - 2 * q.getD (i - 1) 0 + q.getD (i - 2) 0

/-- The second differences of a list of integers. -/
def intDifferences (q : List Int) : List Int := (List.range q.length).map (intDifference q)

theorem getElem?_intDifferences {q : List Int} {i : Nat} (h : i < q.length) :
    (intDifferences q)[i]? = some (intDifference q i) := by
  rw [intDifferences, List.getElem?_map, List.getElem?_range h, Option.map_some]

theorem intDifference_add_two {q : List Int} {i : Nat} {q0 q1 q2 : Int} (h0 : q[i + 2]? = some q0)
    (h1 : q[i + 1]? = some q1) (h2 : q[i]? = some q2) :
    intDifference q (i + 2) = q0 - 2 * q1 + q2 := by
  simp only [intDifference, Nat.add_sub_cancel, List.getD_eq_getElem?_getD, h0, h2,
    show i + 2 - 1 = i + 1 from rfl, h1, Option.getD_some]
  exact if_neg (by omega)

/-- Integers of magnitude below `2^50` have second differences that are exact. -/
theorem natAbs_intDifference_lt {q : List Int} (hq : ∀ n ∈ q, |n| < 2 ^ 50) (i : Nat) :
    (intDifference q i).natAbs < 2 ^ 53 := by
  have hgetD (j : Nat) : |q.getD j 0| < 2 ^ 50 := by
    rcases Nat.lt_or_ge j q.length with hj | hj
    · rw [List.getD_eq_getElem _ _ hj]
      exact hq _ (List.getElem_mem hj)
    · rw [List.getD_eq_default _ _ hj]
      norm_num
  have h0 := abs_lt.mp (hgetD i)
  have h1 := abs_lt.mp (hgetD (i - 1))
  have h2 := abs_lt.mp (hgetD (i - 2))
  unfold intDifference
  split_ifs <;> omega

/-- A second difference of integers of magnitude below `2^50` is formed without rounding. -/
theorem secondDifference_ofInt {a b c : Int} (ha : |a| < 2 ^ 50) (hb : |b| < 2 ^ 50)
    (hc : |c| < 2 ^ 50) :
    ((F64.ofInt a).sub ((F64.ofNat 2).mul (F64.ofInt b))).add (F64.ofInt c) =
      F64.ofInt (a - 2 * b + c) := by
  rw [abs_lt] at ha hb hc
  rw [F64.ofNat, F64.ofInt_mul_ofInt (by omega) (by omega) (by omega),
    F64.ofInt_sub_ofInt (by omega) (by omega), F64.ofInt_add_ofInt (by omega) (by omega)]
  rfl

theorem eq_intDifferences_of_isSecondDifference {q : List Int} {y : List F64}
    (hq : ∀ n ∈ q, |n| < 2 ^ 50) (h : IsSecondDifference (q.map F64.ofInt) y) :
    y = (intDifferences q).map F64.ofInt := by
  obtain ⟨hlen, hfirst, hrest⟩ := h
  rw [List.length_map] at hlen hfirst
  apply List.ext_getElem? fun i => ?_
  rcases Nat.lt_or_ge i q.length with hi | hi
  · rw [List.getElem?_map, getElem?_intDifferences hi, Option.map_some]
    rcases Nat.lt_or_ge i 2 with hi2 | hi2
    · rw [hfirst i hi2 hi, intDifference, if_pos hi2, F64.ofInt_zero]
    · obtain ⟨n, rfl⟩ := Nat.exists_eq_add_of_le' hi2
      have hget {j : Nat} (hj : j < q.length) : q[j]? = some q[j] := List.getElem?_eq_getElem hj
      have hmap {j : Nat} (hj : j < q.length) : (q.map F64.ofInt)[j]? = some (F64.ofInt q[j]) := by
        rw [List.getElem?_map, hget hj, Option.map_some]
      have hbound {j : Nat} (hj : j < q.length) : |q[j]| < 2 ^ 50 := hq _ (List.getElem_mem hj)
      have h1 : n + 1 < q.length := by omega
      have h2 : n < q.length := by omega
      rw [hrest n _ _ _ (hmap hi) (hmap h1) (hmap h2),
        secondDifference_ofInt (hbound hi) (hbound h1) (hbound h2),
        intDifference_add_two (hget hi) (hget h1) (hget h2)]
  · rw [List.getElem?_eq_none (by omega),
      List.getElem?_eq_none (by simpa [intDifferences] using hi)]

/-- Settles O34: no step of a difference rounds, so that the list is that of the integers, which is
finite. -/
theorem hpf2IsExactOnIntegers : Obligations.Hpf2IsExactOnIntegers := by
  intro d s c q hc hne hq hbuf
  have hdiff := isSecondDifference_hpfRun c.buf
  have hend := hpf2_endsWith hc (by simpa [hbuf] using hne)
  rw [hbuf] at hdiff
  rw [hbuf, eq_intDifferences_of_isSecondDifference hq hdiff] at hend
  refine ⟨intDifferences q, hend.1 ?_, by simp [intDifferences], fun i hi hlt => ?_,
    fun i q0 q1 q2 h0 h1 h2 => ?_⟩
  · simp only [AllFinite, intDifferences, List.forall_mem_map]
    exact fun i _ => F64.isFinite_ofInt (natAbs_intDifference_lt hq i)
  · rw [getElem?_intDifferences hlt, intDifference, if_pos hi]
  · obtain ⟨hlt, -⟩ := List.getElem?_eq_some_iff.mp h0
    rw [getElem?_intDifferences hlt, intDifference_add_two h0 h1 h2]

/-! ### What every transform leaves unchanged (42_filters R197) -/

/-- A transform names one slot. -/
theorem slot_eq_of_transform {i : Instr} {d k : SlotId} (hd : i ∈ Instr.recon d :: slotTransforms d)
    (hk : i = .recon k ∨ i ∈ slotTransforms k) : k = d := by
  simp only [slotTransforms, List.mem_cons, List.not_mem_nil, or_false] at hd hk
  rcases hd with rfl | rfl | rfl | rfl | rfl | rfl | rfl | rfl | rfl <;> simpa [eq_comm] using hk

/-- What a transform commits is a buffer of its own slot. -/
theorem Commits.of_transform {i : Instr} {d : SlotId} {s t : State} (h : Commits s i t)
    (hi : i ∈ Instr.recon d :: slotTransforms d) :
    ∃ c y, s.slot d = some c ∧ t = s.setBuf d c y := by
  cases h with
  | transform i k c y hk hc hy hlen =>
    cases slot_eq_of_transform hi hk
    exact ⟨c, y, hc, rfl⟩
  | _ => simp [slotTransforms] at hi

theorem sameButSlots_setBuf (s : State) (d : SlotId) (c : Container) (y : List F64) :
    SameButSlots s (s.setBuf d c y) := by
  simp [SameButSlots]

/-- Settles O43: a transform that does not fault commits, and its commit writes its slot's buffer. -/
theorem transformsChangeOnlyTheirBuffer : Obligations.TransformsChangeOnlyTheirBuffer := by
  intro d s t i hi _ h hf
  obtain ⟨c, y, hc, rfl⟩ := (bodyOf_commits (bodyOf_ok_of_exec h hf)).of_transform hi
  exact ⟨sameButSlots_setBuf s d c y, fun k hk => s.slot_setBuf_ne c y hk, c, y, hc,
    s.slot_setBuf_same d c y⟩

end Sys2Proof.Machine
end

section
/-! PROOFS. Magnitudes and zeros of binary64 values (00_scope R11): which values equal a zero, what the
operations make of one, and which sums and counts stay inside the format. -/

namespace Sys2Proof

/-! ### Magnitudes -/

@[simp] theorem F64.isFinite_abs (a : F64) : a.abs.isFinite = a.isFinite := by cases a <;> rfl

@[simp] theorem F64.units_abs (a : F64) : a.abs.units = |a.units| := by
  rcases a with _ | _ | ⟨s, ex, frac⟩
  · rfl
  · rfl
  · exact (abs_ite_neg s _).symm

/-- The greatest magnitude, in half spacings of the top of the format. -/
theorem F64.magUnits_le (ex : Fin 2047) (frac : BitVec 52) :
    F64.magUnits ex frac ≤ (2 ^ 54 - 2) * 2 ^ 2044 := by
  have hsig := Nat.le_sub_one_of_lt (F64.significand_lt ex frac)
  have hexp : 2 ^ (ex.val - 1) ≤ 2 * 2 ^ 2044 := by
    rw [← pow_succ']
    exact pow_le_pow_right₀ one_le_two (by omega)
  calc F64.magUnits ex frac ≤ (2 ^ 53 - 1) * (2 * 2 ^ 2044) := Nat.mul_le_mul hsig hexp
    _ = (2 ^ 54 - 2) * 2 ^ 2044 := by
      generalize (2 : Nat) ^ 2044 = u
      omega

/-! ### Values equal to zero -/

theorem F64.magUnits_eq_zero {ex : Fin 2047} {frac : BitVec 52} :
    F64.magUnits ex frac = 0 ↔ ex = 0 ∧ frac = 0 := by
  have hpow : 2 ^ (ex.val - 1) ≠ 0 := by positivity
  rw [F64.magUnits, Nat.mul_eq_zero, or_iff_left hpow, F64.significand, ← Fin.val_eq_zero_iff,
    ← BitVec.toNat_inj]
  split_ifs with h
  · simp [h]
  · simp [h]

theorem F64.feq_zero_iff_units {v : F64} :
    v.feq F64.zero = true ↔ v.isFinite = true ∧ v.units = 0 := by
  cases v with
  | nan => simp [F64.feq, F64.isFinite]
  | inf s => simp [F64.feq, F64.zero, F64.zeroOf, F64.isFinite]
  | fin s ex frac =>
    rw [F64.feq_iff_units rfl rfl]
    exact (and_iff_right rfl).symm

/-- The values equal to zero are the two zeros. -/
theorem F64.feq_zero_iff {v : F64} : v.feq F64.zero = true ↔ ∃ s, v = F64.zeroOf s := by
  rw [F64.feq_zero_iff_units]
  constructor
  · rintro ⟨hfin, hunits⟩
    obtain ⟨s, ex, frac, rfl⟩ := F64.isFinite_iff.mp hfin
    rw [← Int.natAbs_eq_zero, F64.natAbs_units_fin, F64.magUnits_eq_zero] at hunits
    obtain ⟨rfl, rfl⟩ := hunits
    exact ⟨s, rfl⟩
  · rintro ⟨s, rfl⟩
    cases s <;> decide

@[simp] theorem F64.zeroOf_feq_zero (s : Bool) : (F64.zeroOf s).feq F64.zero = true :=
  F64.feq_zero_iff.mpr ⟨s, rfl⟩

/-! ### Operations with a zero -/

@[simp] theorem F64.roundUnits_zero (neg : Bool) (den : Nat) :
    F64.roundUnits neg 0 den = F64.zeroOf neg := by
  simp [F64.roundUnits, nearestEven, F64.pack, F64.zeroOf]

/-- A zero times a finite value is a zero, with the sign of the operands' signs together. -/
theorem F64.zeroOf_mul_fin (s t : Bool) (ey : Fin 2047) (fy : BitVec 52) :
    (F64.zeroOf s).mul (.fin t ey fy) = F64.zeroOf (s != t) := by
  rw [F64.zeroOf, F64.mul, F64.magUnits_eq_zero.mpr ⟨rfl, rfl⟩, Nat.zero_mul, F64.roundUnits_zero]

theorem F64.mul_zero {a b : F64} (ha : a.isFinite = true) (hb : b.feq F64.zero = true) :
    (a.mul b).feq F64.zero = true := by
  obtain ⟨s, ex, fx, rfl⟩ := F64.isFinite_iff.mp ha
  obtain ⟨t, rfl⟩ := F64.feq_zero_iff.mp hb
  rw [F64.zeroOf, F64.mul, F64.magUnits_eq_zero.mpr ⟨rfl, rfl⟩, Nat.mul_zero, F64.roundUnits_zero]
  exact F64.zeroOf_feq_zero _

/-- A zero divided by a number that is not a zero is a zero. -/
theorem F64.zero_div {a b : F64} (ha : a.feq F64.zero = true) (hb : b.isNaN = false)
    (hb0 : b.feq F64.zero = false) : (a.div b).feq F64.zero = true := by
  obtain ⟨s, rfl⟩ := F64.feq_zero_iff.mp ha
  cases b with
  | nan => cases hb
  | inf t => exact F64.zeroOf_feq_zero _
  | fin t ey fy =>
    have hmag : F64.magUnits ey fy ≠ 0 := by
      rw [← F64.natAbs_units_fin t, Int.natAbs_ne_zero]
      intro hunits
      rw [F64.feq_zero_iff_units.mpr ⟨rfl, hunits⟩] at hb0
      cases hb0
    rw [F64.zeroOf, F64.div, if_neg hmag, F64.magUnits_eq_zero.mpr ⟨rfl, rfl⟩, Nat.zero_mul,
      F64.roundUnits_zero]
    exact F64.zeroOf_feq_zero _

/-! ### Sums inside the format -/

/-- A sum that cancels is a zero. -/
theorem F64.add_cancel {a b : F64} (ha : a.isFinite = true) (hb : b.isFinite = true)
    (h : a.units + b.units = 0) : (a.add b).feq F64.zero = true := by
  obtain ⟨s, ex, fx, rfl⟩ := F64.isFinite_iff.mp ha
  obtain ⟨t, ey, fy, rfl⟩ := F64.isFinite_iff.mp hb
  rw [F64.add, if_pos h]
  exact F64.zeroOf_feq_zero _

/-- Added to a zero a finite value stays what it is, but for the sign of a zero. -/
theorem F64.zero_add_units {z a : F64} (hz : z.feq F64.zero = true) (ha : a.isFinite = true) :
    (z.add a).isFinite = true ∧ (z.add a).units = a.units := by
  obtain ⟨hzfin, hz0⟩ := F64.feq_zero_iff_units.mp hz
  have hsum : z.units + a.units = a.units := by rw [hz0, Int.zero_add]
  by_cases h : a.units = 0
  · rw [h]
    exact F64.feq_zero_iff_units.mp (F64.add_cancel hzfin ha (hsum.trans h))
  · rw [F64.add_eq_roundUnits hzfin ha (by rwa [hsum]), hsum]
    simpa using F64.roundUnits_of_units ha one_pos

theorem F64.zero_add_zero {y z : F64} (hy : y.feq F64.zero = true) (hz : z.feq F64.zero = true) :
    (y.add z).feq F64.zero = true := by
  obtain ⟨hfin, hz0⟩ := F64.feq_zero_iff_units.mp hz
  obtain ⟨hsum, hunits⟩ := F64.zero_add_units hy hfin
  exact F64.feq_zero_iff_units.mpr ⟨hsum, hunits.trans hz0⟩

theorem F64.isFinite_roundUnits (neg : Bool) {num den : Nat} (hden : 0 < den)
    (h : num < (2 ^ 54 - 1) * 2 ^ 2044 * den) : (F64.roundUnits neg num den).isFinite = true := by
  obtain hinf | ⟨ex, frac, hfin⟩ := F64.roundUnits_cases neg num den
  · exact absurd ((F64.roundUnits_eq_inf_iff neg hden).mp hinf) (Nat.not_le.mpr h)
  · rw [hfin]
    rfl

/-- A sum below the overflow bound is finite. -/
theorem F64.isFinite_add {a b : F64} (ha : a.isFinite = true) (hb : b.isFinite = true)
    (h : (a.units + b.units).natAbs < (2 ^ 54 - 1) * 2 ^ 2044) : (a.add b).isFinite = true := by
  by_cases h0 : a.units + b.units = 0
  · exact (F64.feq_zero_iff_units.mp (F64.add_cancel ha hb h0)).1
  · rw [F64.add_eq_roundUnits ha hb h0]
    exact F64.isFinite_roundUnits _ one_pos (by rwa [Nat.mul_one])

/-- `1.0 - a` does not overflow: 1 is less than half the top spacing. -/
theorem F64.isFinite_one_sub {a : F64} (ha : a.isFinite = true) :
    (F64.one.sub a).isFinite = true := by
  refine F64.isFinite_add (F64.isFinite_ofInt (by norm_num)) ((F64.isFinite_neg a).trans ha) ?_
  obtain ⟨s, ex, frac, rfl⟩ := F64.isFinite_iff.mp ha
  have hmag := F64.magUnits_le ex frac
  have hunit : F64.unitsPerOne < 2 ^ 2044 := by
    rw [F64.unitsPerOne_eq]
    exact pow_lt_pow_right₀ one_lt_two (by norm_num)
  have hsum := Int.natAbs_add_le F64.one.units (F64.fin s ex frac).neg.units
  rw [F64.units_one, F64.units_neg, Int.natAbs_neg, F64.natAbs_units_fin,
    Int.natAbs_natCast] at hsum
  rw [F64.units_one, F64.units_neg]
  generalize (2 : Nat) ^ 2044 = u at hmag hunit ⊢
  omega

/-- `float(n)` of a positive count is a number that is not a zero, for counts beyond the format as
well: its distance from `n` is at most that of 1. -/
theorem F64.ofNat_ne_zero {n : Nat} (hn : 1 ≤ n) :
    (F64.ofNat n).isNaN = false ∧ (F64.ofNat n).feq F64.zero = false := by
  refine ⟨F64.isNaN_roundUnits _ _ _, ?_⟩
  rw [← Bool.not_eq_true, F64.feq_zero_iff]
  rintro ⟨s, hzero⟩
  obtain ⟨ey, fy, -, hone⟩ := F64.ofInt_exact (n := 1) (by norm_num)
  have hnear := (F64.roundUnits_nearest one_pos (ey := ey) (fy := fy) hzero).1
  have hpos := F64.unitsPerOne_pos
  have hmul : F64.unitsPerOne ≤ n * F64.unitsPerOne := Nat.le_mul_of_pos_left _ hn
  rw [F64.magUnits_eq_zero.mpr ⟨rfl, rfl⟩, hone, Int.natAbs_natCast, Int.natAbs_one, Nat.mul_one,
    Nat.mul_one, Nat.one_mul] at hnear
  generalize n * F64.unitsPerOne = m at hnear hmul
  simp only [Int.abs_eq_natAbs] at hnear
  omega

/-! ### Comparisons with a difference from zero -/

theorem F64.lt_congr_left {a a' : F64} (ha : a.isFinite = true) (ha' : a'.isFinite = true)
    (h : a.units = a'.units) (b : F64) : a.lt b = a'.lt b := by
  obtain ⟨_, _, _, rfl⟩ := F64.isFinite_iff.mp ha
  obtain ⟨_, _, _, rfl⟩ := F64.isFinite_iff.mp ha'
  cases b <;> simp [F64.lt, h]

theorem F64.lt_congr_right {b b' : F64} (hb : b.isFinite = true) (hb' : b'.isFinite = true)
    (h : b.units = b'.units) (a : F64) : a.lt b = a.lt b' := by
  obtain ⟨_, _, _, rfl⟩ := F64.isFinite_iff.mp hb
  obtain ⟨_, _, _, rfl⟩ := F64.isFinite_iff.mp hb'
  cases a <;> simp [F64.lt, h]

/-- A sum with a zero is the other operand, or a finite value of as many units. -/
theorem F64.zero_add_cases {z : F64} (hz : z.feq F64.zero = true) (a : F64) :
    z.add a = a ∨ a.isFinite = true ∧ (z.add a).isFinite = true ∧ (z.add a).units = a.units := by
  obtain ⟨s, rfl⟩ := F64.feq_zero_iff.mp hz
  cases a with
  | nan => exact .inl rfl
  | inf t => exact .inl rfl
  | fin t ey fy => exact .inr ⟨rfl, F64.zero_add_units hz rfl⟩

/-- A zero summand does not matter on the left of a comparison. -/
theorem F64.zero_add_lt {z : F64} (hz : z.feq F64.zero = true) (a b : F64) :
    (z.add a).lt b = a.lt b := by
  obtain h | ⟨ha, hsum, hunits⟩ := F64.zero_add_cases hz a
  · rw [h]
  · exact F64.lt_congr_left hsum ha hunits b

/-- A zero summand does not matter on the right of a comparison. -/
theorem F64.lt_zero_add {z : F64} (hz : z.feq F64.zero = true) (a b : F64) :
    a.lt (z.add b) = a.lt b := by
  obtain h | ⟨hb, hsum, hunits⟩ := F64.zero_add_cases hz b
  · rw [h]
  · exact F64.lt_congr_right hsum hb hunits a

theorem F64.lt_zero_sub (a b : F64) : a.lt (F64.zero.sub b) = a.lt b.neg :=
  F64.lt_zero_add (F64.zeroOf_feq_zero false) a b.neg

theorem F64.neg_lt_neg (a b : F64) : a.neg.lt b.neg = b.lt a := by
  cases a with
  | nan => cases b <;> rfl
  | inf s =>
    cases b with
    | nan => rfl
    | inf t => cases s <;> cases t <;> rfl
    | fin t ey fy => rfl
  | fin s ex fx =>
    cases b with
    | nan => rfl
    | inf t => exact Bool.not_not t
    | fin t ey fy =>
      rw [Bool.eq_iff_iff, F64.lt_iff_units rfl rfl, F64.lt_iff_units rfl rfl, F64.units_neg,
        F64.units_neg]
      exact neg_lt_neg_iff

end Sys2Proof
end

section
/-! PROOFS. NORM (43_dynamics R200 to R203): the peak of a list, the normalised list and how a command
that normalises ends. -/

namespace Sys2Proof.Machine

open Sys2Proof.Claims

/-! ### The peak -/

theorem peakOf_concat (x : List F64) (v : F64) :
    peakOf (x ++ [v]) = if v.abs.gt (peakOf x) then v.abs else peakOf x := by
  rw [peakOf, List.foldl_append]
  rfl

/-- The peak of finite samples is `+0.0` or the magnitude of one of them, and no magnitude is above
it. -/
theorem peakOf_spec {x : List F64} (hx : AllFinite x) :
    (peakOf x).isFinite = true ∧ (peakOf x = F64.zero ∨ ∃ v ∈ x, peakOf x = v.abs) ∧
      ∀ v ∈ x, |v.units| ≤ (peakOf x).units := by
  induction x using List.reverseRecOn with
  | nil => exact ⟨rfl, .inl rfl, by simp⟩
  | append_singleton x v ih =>
    have hv : v.isFinite = true := hx v (by simp)
    obtain ⟨hfin, hmem, hle⟩ := ih fun w hw => hx w (by simp [hw])
    have habs : v.abs.isFinite = true := (F64.isFinite_abs v).trans hv
    have hgt : v.abs.gt (peakOf x) = true ↔ (peakOf x).units < |v.units| := by
      rw [← F64.units_abs]
      exact F64.lt_iff_units hfin habs
    rw [peakOf_concat]
    rw [List.forall_mem_append, List.forall_mem_singleton]
    split_ifs with h <;> rw [hgt] at h
    · refine ⟨habs, .inr ⟨v, by simp, rfl⟩, fun w hw => ?_, (F64.units_abs v).ge⟩
      rw [F64.units_abs]
      exact (hle w hw).trans h.le
    · refine ⟨hfin, hmem.imp_right ?_, hle, not_lt.mp h⟩
      rintro ⟨w, hw, hpeak⟩
      exact ⟨w, List.mem_append_left _ hw, hpeak⟩

/-- The peak is a zero exactly when every sample is. -/
theorem peakOf_feq_zero_iff {x : List F64} (hx : AllFinite x) :
    (peakOf x).feq F64.zero = true ↔ Silent x := by
  obtain ⟨hfin, hmem, hle⟩ := peakOf_spec hx
  constructor
  · intro hpeak v hv
    have hv0 := hle v hv
    rw [(F64.feq_zero_iff_units.mp hpeak).2, abs_nonpos_iff] at hv0
    exact F64.feq_zero_iff_units.mpr ⟨hx v hv, hv0⟩
  · intro hs
    obtain h | ⟨v, hv, h⟩ := hmem
    · rw [h]
      exact F64.zeroOf_feq_zero false
    · rw [F64.feq_zero_iff_units]
      refine ⟨hfin, ?_⟩
      rw [h, F64.units_abs, (F64.feq_zero_iff_units.mp (hs v hv)).2, abs_zero]

theorem allFinite_of_silent {x : List F64} (h : Silent x) : AllFinite x :=
  fun v hv => (F64.feq_zero_iff_units.mp (h v hv)).1

/-! ### The normalised list -/

theorem normalize_of_silent (num : Num) {x : List F64} (db : F64) (h : Silent x) :
    normalize num x db = .error ⟨.degenerateInput, 1⟩ :=
  normalize_eq_error.mpr ⟨(peakOf_feq_zero_iff (allFinite_of_silent h)).mpr h, rfl⟩

theorem exists_normalize (num : Num) {x : List F64} (db : F64) (hx : AllFinite x)
    (h : ¬ Silent x) : ∃ y, normalize num x db = .ok y ∧ IsNormalized (linear num db) x y := by
  obtain ⟨hfin, hmem, hle⟩ := peakOf_spec hx
  rw [← peakOf_feq_zero_iff hx] at h
  refine ⟨_, normalize_eq_ok.mpr ⟨Bool.eq_false_iff.mpr h, rfl⟩, peakOf x, ?_, fun v hv => ?_, rfl⟩
  · refine hmem.resolve_left fun h0 => h ?_
    rw [h0]
    exact F64.zeroOf_feq_zero false
  · rw [← Bool.not_eq_true, F64.gt, F64.lt_iff_units hfin ((F64.isFinite_abs v).trans (hx v hv)),
      F64.units_abs, not_lt]
    exact hle v hv

/-- How a command ends that normalises a finite list and passes it to the epilogue. -/
theorem normalize_endsWith {i : Instr} {d : SlotId} {c : Container} {s : State} {x : List F64}
    {db : F64} (h : bodyOf i s = (normalize s.num x db >>= fun y => epilogue d c y s))
    (hx : AllFinite x) :
    (Silent x → Raises i s .degenerateInput 1) ∧
      (¬ Silent x → ∃ y, IsNormalized (linear s.num db) x y ∧ EndsWith i d c y s) := by
  refine ⟨fun hs => exec_of_error ?_, fun hs => ?_⟩
  · rw [h, normalize_of_silent _ _ hs, error_bind]
  · obtain ⟨y, hy, hnorm⟩ := exists_normalize s.num db hx hs
    rw [hy, ok_bind] at h
    exact ⟨y, hnorm, endsWith_of_epilogue h⟩

/-- Settles O35: NORM normalises its buffer and passes it to the epilogue. -/
theorem normScalesToTheTarget : Obligations.NormScalesToTheTarget :=
  fun _ _ _ hc hne hx => normalize_endsWith (normBody_read hc hne) hx

/-! ### A target of minus infinity (43_dynamics R203) -/

/-- `lin(-Inf) = +0.0` for every record, by NUM-POW10-NEGINF. -/
theorem linear_negInf (sel : NumSel) : (linear sel.record (.inf true)).feq F64.zero = true := by
  obtain ⟨r, hr⟩ := sel.record_eq_ofRaw
  obtain ⟨ex, frac, h20, -⟩ := F64.ofInt_exact (n := 20) (by norm_num)
  have hdiv : F64.div (.inf true) (F64.ofNat 20) = .inf true := by
    rw [show F64.ofNat 20 = F64.ofInt 20 from rfl, h20]
    rfl
  rw [linear, hdiv, hr]
  exact F64.mul_zero (F64.isFinite_ofInt (by norm_num)) (F64.zeroOf_feq_zero false)

/-- The peak of a list that is not silent is no zero, so that the quotient of a zero target and the
peak is one, and so is each of its products. -/
theorem silent_of_isNormalized {target : F64} {x y : List F64} (h : IsNormalized target x y)
    (ht : target.feq F64.zero = true) (hx : AllFinite x) (hs : ¬ Silent x) : Silent y := by
  obtain ⟨peak, ⟨w, hw, rfl⟩, hgt, rfl⟩ := h
  have hfin (v : F64) (hv : v ∈ x) : v.abs.isFinite = true := (F64.isFinite_abs v).trans (hx v hv)
  have hpeak : w.abs.feq F64.zero = false := by
    rw [← Bool.not_eq_true, F64.feq_zero_iff_units]
    rintro ⟨-, h0⟩
    refine hs fun v hv => F64.feq_zero_iff_units.mpr ⟨hx v hv, ?_⟩
    have hle := hgt v hv
    rw [← Bool.not_eq_true, F64.gt, F64.lt_iff_units (hfin w hw) (hfin v hv), h0, F64.units_abs,
      not_lt, abs_nonpos_iff] at hle
    exact hle
  have hnan : w.abs.isNaN = false := by
    obtain ⟨_, _, _, h⟩ := F64.isFinite_iff.mp (hfin w hw)
    rw [h]
    rfl
  rw [Silent, List.forall_mem_map]
  exact fun v hv => F64.mul_zero (hx v hv) (F64.zero_div ht hnan hpeak)

/-- Settles O36: the target is a zero, so that NORM commits a silent list. -/
theorem normToMinusInfinitySilences : Obligations.NormToMinusInfinitySilences := by
  intro d s c hc hx hs hp
  have hne : c.buf ≠ [] := fun h => hs (by simp [Silent, h])
  obtain ⟨y, hnorm, hend, -⟩ := (normScalesToTheTarget d s c hc hne hx).2 hs
  have hy := silent_of_isNormalized hnorm (hp ▸ linear_negInf s.cfg.num) hx hs
  obtain ⟨peak, -, -, rfl⟩ := hnorm
  exact ⟨_, hend (allFinite_of_silent hy), List.length_map _, hy⟩

end Sys2Proof.Machine
end

section
/-! PROOFS. The soft knee (43_dynamics R215): the gain in each region, and that the regions are
exclusive and cover every case but a NaN. -/

namespace Sys2Proof.Machine

/-! ### The gain in each region -/

section Regions
variable {env thr knee ratio : F64}

theorem kneeGain_below (h : (env.sub thr).lt (F64.zero.sub (knee.div F64.two)) = true) :
    kneeGain env thr knee ratio = F64.one := if_pos h

theorem kneeGain_within (h1 : ¬ (env.sub thr).lt (F64.zero.sub (knee.div F64.two)) = true)
    (h2 : (env.sub thr).abs.le (knee.div F64.two) = true) :
    kneeGain env thr knee ratio =
      (env.add ((((F64.one.div ratio).sub F64.one).mul
        (((env.sub thr).add (knee.div F64.two)).mul ((env.sub thr).add (knee.div F64.two)))).div
          (F64.two.mul knee))).div env :=
  (if_neg h1).trans (if_pos h2)

theorem kneeGain_above (h1 : ¬ (env.sub thr).lt (F64.zero.sub (knee.div F64.two)) = true)
    (h2 : ¬ (env.sub thr).abs.le (knee.div F64.two) = true)
    (h3 : (env.sub thr).gt (knee.div F64.two) = true) :
    kneeGain env thr knee ratio = (thr.add ((env.sub thr).div ratio)).div env :=
  (if_neg h1).trans ((if_neg h2).trans (if_pos h3))

theorem kneeGain_outside (h1 : ¬ (env.sub thr).lt (F64.zero.sub (knee.div F64.two)) = true)
    (h2 : ¬ (env.sub thr).abs.le (knee.div F64.two) = true)
    (h3 : ¬ (env.sub thr).gt (knee.div F64.two) = true) :
    kneeGain env thr knee ratio = .nan :=
  (if_neg h1).trans ((if_neg h2).trans (if_neg h3))

end Regions

/-! ### Which regions hold -/

/-- With a NaN no region holds. -/
theorem no_knee_region {d hk : F64} (h : d.isNaN = true ∨ hk.isNaN = true) :
    d.lt (F64.zero.sub hk) = false ∧ d.abs.le hk = false ∧ d.gt hk = false := by
  have hneg : hk.neg.isNaN = hk.isNaN := by cases hk <;> rfl
  have habs : d.abs.isNaN = d.isNaN := by cases d <;> rfl
  obtain ⟨hlt, -⟩ := F64.compare_nan (hneg.symm ▸ h)
  obtain ⟨hltAbs, hfeqAbs⟩ := F64.compare_nan (habs.symm ▸ h)
  exact ⟨(F64.lt_zero_sub d hk).trans hlt, by rw [F64.le, hltAbs, hfeqAbs]; rfl,
    (F64.compare_nan h.symm).1⟩

/-- A half-width of at least 0 and a `d` that is no NaN: exactly one region holds. -/
theorem exactly_one_knee_region {d hk : F64} (hd : d.isNaN = false)
    (hhk : F64.zero.le hk = true) :
    (d.lt (F64.zero.sub hk) = true ∧ ¬ d.abs.le hk = true ∧ ¬ d.gt hk = true) ∨
      (¬ d.lt (F64.zero.sub hk) = true ∧ d.abs.le hk = true ∧ ¬ d.gt hk = true) ∨
      (¬ d.lt (F64.zero.sub hk) = true ∧ ¬ d.abs.le hk = true ∧ d.gt hk = true) := by
  rw [F64.lt_zero_sub]
  cases hk with
  | nan => cases hhk
  | inf t =>
    cases t with
    | true => cases hhk
    | false =>
      cases d with
      | nan => cases hd
      | inf s => cases s <;> decide
      | fin s ex fx => exact .inr (.inl ⟨Bool.false_ne_true, rfl, Bool.false_ne_true⟩)
  | fin t ey fy =>
    cases d with
    | nan => cases hd
    | inf s =>
      cases s with
      | true => exact .inl ⟨rfl, Bool.false_ne_true, Bool.false_ne_true⟩
      | false => exact .inr (.inr ⟨Bool.false_ne_true, Bool.false_ne_true, rfl⟩)
    | fin s ex fx =>
      rw [F64.le_iff_units rfl rfl, show F64.zero.units = 0 by decide] at hhk
      rw [F64.gt, F64.lt_iff_units rfl rfl, F64.le_iff_units rfl rfl, F64.lt_iff_units rfl rfl,
        F64.units_neg, F64.units_abs, abs_le]
      omega

/-- Settles O40: one equation per region, and which regions hold. -/
theorem kneeGainHasThreeRegions : Obligations.KneeGainHasThreeRegions := by
  intro env thr knee ratio d hk first second third
  refine ⟨kneeGain_below, kneeGain_within, kneeGain_above, fun hnan => ?_,
    exactly_one_knee_region⟩
  obtain ⟨h1, h2, h3⟩ := no_knee_region hnan
  exact kneeGain_outside (Bool.eq_false_iff.mp h1) (Bool.eq_false_iff.mp h2)
    (Bool.eq_false_iff.mp h3)

end Sys2Proof.Machine
end

section
/-! PROOFS. COMP (43_dynamics R210 to R219): its lookahead check, the compressed list by index, how the
command ends with and without makeup, and silence. -/

namespace Sys2Proof.Machine

open Sys2Proof.Claims

/-! ### The lookahead (43_dynamics R213) -/

theorem lookaheadCount_of_pos {ms sr : F64} {l : Nat}
    (h : (sr.mul (ms.div (F64.ofNat 1000))).roundHalfAway = some (l : Int)) (hl : 1 ≤ l) :
    lookaheadCount ms sr = .ok l := by
  simp only [lookaheadCount, h]
  exact if_neg (by omega)

theorem lookaheadCount_of_short {ms sr : F64} {l : Int}
    (h : (sr.mul (ms.div (F64.ofNat 1000))).roundHalfAway = some l) (hl : l < 1) :
    lookaheadCount ms sr = .error ⟨.paramDomain, 4⟩ := by
  simp only [lookaheadCount, h]
  exact if_pos hl

theorem lookaheadCount_of_not_finite {ms sr : F64}
    (h : (sr.mul (ms.div (F64.ofNat 1000))).isFinite = false) :
    lookaheadCount ms sr = .error ⟨.paramDomain, 4⟩ := by
  have hnone : (sr.mul (ms.div (F64.ofNat 1000))).roundHalfAway = none := by
    generalize sr.mul (ms.div (F64.ofNat 1000)) = v at h
    cases v with
    | nan => rfl
    | inf s => rfl
    | fin s ex frac => cases h
  simp only [lookaheadCount, hnone]

/-- Settles O38: the lookahead is refused before any sample is read. -/
theorem compRefusesShortLookahead : Obligations.CompRefusesShortLookahead :=
  fun _ _ _ _ hc hne =>
    ⟨fun h => exec_of_error (compBody_short hc hne (lookaheadCount_of_not_finite h)),
      fun _ h hl => exec_of_error (compBody_short hc hne (lookaheadCount_of_short h hl))⟩

/-! ### The compressed list -/

/-- The mean over the rest of the buffer is the mean over the indices that exist. -/
theorem lookaheadMean_drop (x : List F64) (l i : Nat) :
    lookaheadMean (x.drop i) l = meanAhead x l i := by
  rw [lookaheadMean, meanAhead, List.take_eq_take_min, List.length_drop]
  rcases le_total i x.length with hi | hi
  · rw [sumFrom0_take_drop (by omega)]
  · rw [Nat.sub_eq_zero_of_le hi, Nat.min_zero]
    rfl

/-- The coefficient is chosen before the formula in the model, and after it in the statements. -/
theorem envelope_eq_nextEnv (env pk ca cr : F64) : envelope env pk ca cr = nextEnv env pk ca cr := by
  unfold envelope nextEnv
  split_ifs <;> rfl

/-- The envelope of COMP before index `i` of a buffer, `+0.0` before the first. -/
def envelopeAt (k : CompSetup) (x : List F64) : Nat → F64
  | 0 => F64.zero
  | i + 1 => envelope (envelopeAt k x i) (lookaheadMean (x.drop i) k.look) k.ca k.cr

/-- The loop from any envelope on: each sample is scaled by the gain of the envelope at its index. -/
theorem getElem?_compLoop (k : CompSetup) {x : List F64} {env : Nat → F64}
    (h : ∀ i, env (i + 1) = envelope (env i) (lookaheadMean (x.drop i) k.look) k.ca k.cr) {i : Nat}
    {v : F64} (hv : x[i]? = some v) :
    (compLoop k (env 0) x)[i]? = some (v.mul (kneeGain (env (i + 1)) k.thr k.knee k.ratio)) := by
  induction x generalizing env i with
  | nil => simp at hv
  | cons a rest ih =>
    have h0 : envelope (env 0) (lookaheadMean (a :: rest) k.look) k.ca k.cr = env 1 := (h 0).symm
    rw [compLoop, h0]
    cases i with
    | zero =>
      cases hv
      rfl
    | succ i => exact ih (env := fun j => env (j + 1)) (fun j => h (j + 1)) hv

theorem isCompressed_compLoop (k : CompSetup) (x : List F64) :
    IsCompressed k.thr k.knee k.ratio k.ca k.cr k.look x (compLoop k F64.zero x) := by
  refine ⟨envelopeAt k x, rfl, fun i => ?_, length_compLoop k _ x,
    fun _ _ hv => getElem?_compLoop k (env := envelopeAt k x) (fun _ => rfl) hv⟩
  rw [envelopeAt, lookaheadMean_drop, envelope_eq_nextEnv]

/-! ### How COMP ends -/

section Ends
variable {d : SlotId} {s : State} {c : Container} {l : Nat} (hc : s.slot d = some c)
  (hne : c.buf ≠ []) (hl : lookaheadCount (s.pf 4) c.rate = .ok l)
include hc hne hl

/-- Without makeup the compressed list comes to the epilogue, whose finiteness check repeats the one
before. -/
theorem comp_endsWith :
    EndsWith (.comp d false) d c (compLoop (setupOf s c l) F64.zero c.buf) s := by
  apply endsWith_of_epilogue
  rw [bodyOf, compBody_read hc hne hl, epilogue]
  cases checkFinite (compLoop (setupOf s c l) F64.zero c.buf) <;> rfl

theorem comp_raises_nonFinite {n : Nat} (makeup : Bool)
    (h : firstNonFinite (compLoop (setupOf s c l) F64.zero c.buf) = some n) :
    Raises (.comp d makeup) s .nonFinite n := by
  apply exec_of_error
  rw [bodyOf, compBody_read hc hne hl, checkFinite_eq_error.mpr ⟨n, h, rfl⟩, error_bind]

/-- With makeup a finite compressed list is normalised to `P[6]`. -/
theorem comp_makeup_endsWith (h : AllFinite (compLoop (setupOf s c l) F64.zero c.buf)) :
    (Silent (compLoop (setupOf s c l) F64.zero c.buf) →
      Raises (.comp d true) s .degenerateInput 1) ∧
    (¬ Silent (compLoop (setupOf s c l) F64.zero c.buf) →
      ∃ z, IsNormalized (linear s.num (s.pf 6)) (compLoop (setupOf s c l) F64.zero c.buf) z ∧
        EndsWith (.comp d true) d c z s) := by
  refine normalize_endsWith ?_ h
  rw [bodyOf, compBody_read hc hne hl, checkFinite_eq_ok (u := ()) |>.mpr h, ok_bind]
  rfl

end Ends

/-- Settles O37: the loop's list is the compressed list, and the command ends with it in one of the
three ways. -/
theorem compFollowsTheEnvelope : Obligations.CompFollowsTheEnvelope := by
  intro d s c l hc hne hround hpos
  have hl : lookaheadCount (s.pf 4) c.rate = .ok l := lookaheadCount_of_pos hround hpos
  have hmakeup := comp_makeup_endsWith hc hne hl
  refine ⟨_, isCompressed_compLoop (setupOf s c l) c.buf, comp_endsWith hc hne hl, fun h => ?_,
    fun h => (hmakeup h).1, fun h => (hmakeup h).2⟩
  rw [← firstNonFinite_eq_none, ← ne_eq, Option.ne_none_iff_exists'] at h
  obtain ⟨n, hn⟩ := h
  exact ⟨n, comp_raises_nonFinite hc hne hl true hn, comp_raises_nonFinite hc hne hl false hn⟩

/-! ### Silence (43_dynamics R219) -/

/-- The sum of zeros from `+0.0` is a zero. -/
theorem sumFrom0_of_silent {x : List F64} (h : Silent x) : (sumFrom0 x).feq F64.zero = true := by
  induction x using List.reverseRecOn with
  | nil => exact F64.zeroOf_feq_zero false
  | append_singleton x v ih =>
    rw [sumFrom0, List.foldl_append]
    exact F64.zero_add_zero (ih fun w hw => h w (by simp [hw])) (h v (by simp))

theorem lookaheadMean_of_silent {x : List F64} {l : Nat} (h : Silent x) (hl : 1 ≤ l) :
    (lookaheadMean x l).feq F64.zero = true := by
  obtain ⟨hnan, hne⟩ := F64.ofNat_ne_zero hl
  exact F64.zero_div (sumFrom0_of_silent fun v hv => h v (List.mem_of_mem_take hv)) hnan hne

/-- A zero envelope stays a zero under a zero peak estimate; the estimate is not above it, so that
the release coefficient is the one used. -/
theorem envelope_of_zero {env pk ca cr : F64} (henv : env.feq F64.zero = true)
    (hpk : pk.feq F64.zero = true) (hcr : cr.isFinite = true) :
    (envelope env pk ca cr).feq F64.zero = true := by
  have hgt : pk.gt env = false := by
    obtain ⟨s, rfl⟩ := F64.feq_zero_iff.mp henv
    obtain ⟨t, rfl⟩ := F64.feq_zero_iff.mp hpk
    cases s <;> cases t <;> decide
  simp only [envelope, hgt, Bool.false_eq_true, if_false]
  exact F64.zero_add_zero (F64.mul_zero (F64.isFinite_one_sub hcr) hpk) (F64.mul_zero hcr henv)

/-- A zero envelope is below the knee of a threshold above half the knee. -/
theorem kneeGain_of_zero {env thr knee : F64} (ratio : F64) (henv : env.feq F64.zero = true)
    (h : thr.gt (knee.div F64.two) = true) : kneeGain env thr knee ratio = F64.one := by
  apply kneeGain_below
  rw [F64.sub, F64.zero_add_lt henv, F64.lt_zero_sub, F64.neg_lt_neg]
  exact h

/-- A zero times 1.0 is that zero, with its sign. -/
theorem zero_mul_one {v : F64} (h : v.feq F64.zero = true) : v.mul F64.one = v := by
  obtain ⟨s, rfl⟩ := F64.feq_zero_iff.mp h
  obtain ⟨ex, frac, hone, -⟩ := F64.ofInt_exact (n := 1) (by norm_num)
  rw [show F64.one = F64.ofInt 1 from rfl, hone, F64.zeroOf_mul_fin]
  exact congrArg F64.zeroOf (Bool.bne_false s)

theorem compLoop_of_silent {k : CompSetup} {x : List F64} (hx : Silent x) (hlook : 1 ≤ k.look)
    (hthr : k.thr.gt (k.knee.div F64.two) = true) (hcr : k.cr.isFinite = true) {env : F64}
    (henv : env.feq F64.zero = true) : compLoop k env x = x := by
  induction x generalizing env with
  | nil => rfl
  | cons v rest ih =>
    have henv' := envelope_of_zero (ca := k.ca) henv (lookaheadMean_of_silent hx hlook) hcr
    obtain ⟨hv, hrest⟩ := List.forall_mem_cons.mp hx
    rw [compLoop, kneeGain_of_zero k.ratio henv' hthr, zero_mul_one hv, ih hrest henv']

/-- Settles O39: the compressed list is the buffer itself, which is silent. -/
theorem compPassesSilence : Obligations.CompPassesSilence := by
  intro d s c l hc hne hs hround hpos hthr _ hcr
  have hl : lookaheadCount (s.pf 4) c.rate = .ok l := lookaheadCount_of_pos hround hpos
  have hsame : compLoop (setupOf s c l) F64.zero c.buf = c.buf :=
    compLoop_of_silent hs hpos hthr hcr (F64.zeroOf_feq_zero false)
  have hfin := allFinite_of_silent hs
  refine ⟨exec_of_endsWith_same (comp_endsWith hc hne hl) hsame hc hfin, ?_⟩
  exact (comp_makeup_endsWith hc hne hl (hsame.symm ▸ hfin)).1 (hsame.symm ▸ hs)

end Sys2Proof.Machine
end

section
/-! PROOFS. The Mixer (44_mixer): MIX writes the clipped sums of its two tracks, which stay in the
signed 16-bit range, and its destination alone. -/

namespace Sys2Proof

/-- Exact integers compare as the integers do. -/
theorem F64.ofInt_lt_ofInt {a b : Int} (ha : a.natAbs < 2 ^ 53) (hb : b.natAbs < 2 ^ 53) :
    (F64.ofInt a).lt (F64.ofInt b) = true ↔ a < b := by
  have hpos : (0 : Int) < F64.unitsPerOne := by exact_mod_cast F64.unitsPerOne_pos
  rw [F64.lt_iff_units (F64.isFinite_ofInt ha) (F64.isFinite_ofInt hb), F64.units_ofInt ha,
    F64.units_ofInt hb]
  exact mul_lt_mul_iff_left₀ hpos

/-- Between finite values, `<` is transitive: no infinity and no NaN lies between them. -/
theorem F64.lt_trans_of_isFinite {a b c : F64} (ha : a.isFinite = true) (hc : c.isFinite = true)
    (hab : a.lt b = true) (hbc : b.lt c = true) : a.lt c = true := by
  cases b with
  | nan => exact absurd hbc Bool.false_ne_true
  | inf neg =>
    cases neg with
    | true => exact absurd hab (by simp [F64.not_lt_negInf])
    | false => exact absurd hbc (by simp [F64.not_posInf_lt])
  | fin neg ex frac =>
    rw [F64.lt_iff_units ha rfl] at hab
    rw [F64.lt_iff_units rfl hc] at hbc
    exact (F64.lt_iff_units ha hc).mpr (hab.trans hbc)

end Sys2Proof

namespace Sys2Proof.Machine

open Sys2Proof.Claims

/-! ### The clip (44_mixer R244) -/

theorem clip16_above {t : F64} (h : t.gt (F64.ofInt 32767) = true) : clip16 t = F64.ofInt 32767 :=
  if_pos h

/-- A value below the lower bound is not above the upper one. -/
theorem clip16_below {t : F64} (h : t.lt (F64.ofInt (-32768)) = true) :
    clip16 t = F64.ofInt (-32768) := by
  have hgt : ¬ t.gt (F64.ofInt 32767) = true := fun hgt => by
    have hbounds := F64.lt_trans_of_isFinite (F64.isFinite_ofInt (by decide))
      (F64.isFinite_ofInt (by decide)) hgt h
    rw [F64.ofInt_lt_ofInt (by decide) (by decide)] at hbounds
    exact absurd hbounds (by decide)
  rw [clip16, if_neg hgt, if_pos h]

theorem clip16_within {t : F64} (hgt : t.gt (F64.ofInt 32767) = false)
    (hlt : t.lt (F64.ofInt (-32768)) = false) : clip16 t = t := by
  rw [clip16, hgt, hlt]
  rfl

/-- A clipped value is beyond neither bound; a NaN, which `clip16` keeps, compares with neither. -/
theorem clip16_in_range (t : F64) :
    (clip16 t).gt (F64.ofInt 32767) = false ∧ (clip16 t).lt (F64.ofInt (-32768)) = false := by
  simp only [← Bool.not_eq_true]
  by_cases hgt : t.gt (F64.ofInt 32767) = true
  · rw [clip16_above hgt, F64.gt, F64.ofInt_lt_ofInt, F64.ofInt_lt_ofInt] <;> decide
  by_cases hlt : t.lt (F64.ofInt (-32768)) = true
  · rw [clip16_below hlt, F64.gt, F64.ofInt_lt_ofInt, F64.ofInt_lt_ofInt] <;> decide
  · rw [clip16_within (eq_false_of_ne_true hgt) (eq_false_of_ne_true hlt)]
    exact ⟨hgt, hlt⟩

/-! ### The clipped sums (44_mixer R240) -/

/-- Each entry is the clipped sum at its index; the missing tail of the shorter track is `+0.0`. -/
theorem getElem?_mixRun {x w : List F64} {i : Nat} {v : F64} (hv : x[i]? = some v) :
    (mixRun x w)[i]? = some (clip16 (v.add (w.getD i F64.zero))) := by
  induction x, w using mixRun.induct generalizing i with
  | case1 w => simp at hv
  | case2 a rest ih =>
    cases i with
    | zero => cases hv; rfl
    | succ i => exact ih hv
  | case3 a rest b ws ih =>
    cases i with
    | zero => cases hv; rfl
    | succ i => exact ih hv

theorem isMix_mixRun (x w : List F64) : IsMix x w (mixRun x w) :=
  ⟨length_mixRun x w, fun _ _ => getElem?_mixRun⟩

/-- Every entry of a mix is a clipped value. -/
theorem exists_clip16_of_mem_mixRun {x w : List F64} {v : F64} (h : v ∈ mixRun x w) :
    ∃ t, v = clip16 t := by
  obtain ⟨i, hi⟩ := List.mem_iff_getElem?.mp h
  obtain ⟨hlt, -⟩ := List.getElem?_eq_some_iff.mp hi
  rw [length_mixRun] at hlt
  exact ⟨_, Option.some.inj (hi.symm.trans (getElem?_mixRun (List.getElem?_eq_getElem hlt)))⟩

/-! ### What MIX commits -/

/-- MIX of two slots that hold buffers, into a third (44_mixer R240 to R242). -/
theorem mixBody_read {d a b : SlotId} {s : State} {ca cb : Container} (hda : d ≠ a) (hdb : d ≠ b)
    (ha : s.slot a = some ca) (hb : s.slot b = some cb) (hna : ca.buf ≠ []) (hnb : cb.buf ≠ []) :
    mixBody d a b s = .ok (s.setSlot d (some (if cb.buf.length ≤ ca.buf.length then
      mixContainer ca cb else mixContainer cb ca))) := by
  unfold mixBody
  rw [beq_false_of_ne hda, beq_false_of_ne hdb, Bool.or_self, failIf_false, ok_bind,
    readSlot_eq_ok.mpr ha, ok_bind, readSlot_eq_ok.mpr hb, ok_bind,
    List.isEmpty_eq_false_iff.mpr hna, List.isEmpty_eq_false_iff.mpr hnb, Bool.or_self,
    failIf_false, ok_bind]
  split_ifs <;> rfl

/-- Settles O41: one container for each order of the lengths. -/
theorem mixSumsAndClips : Obligations.MixSumsAndClips := by
  intro d a b s ca cb hda hdb ha hb hna hnb
  have hexec := exec_of_ok (i := .mix d a b) (mixBody_read hda hdb ha hb hna hnb)
  by_cases hlen : cb.buf.length ≤ ca.buf.length
  · rw [if_pos hlen] at hexec
    exact ⟨_, hexec, fun _ => ⟨rfl, rfl, isMix_mixRun _ _⟩, fun hlt => absurd hlen hlt.not_ge,
      (length_mixRun _ _).trans (max_eq_left hlen).symm⟩
  · rw [if_neg hlen] at hexec
    exact ⟨_, hexec, fun hle => absurd hle hlen, fun _ => ⟨rfl, rfl, isMix_mixRun _ _⟩,
      (length_mixRun _ _).trans (max_eq_right (le_of_not_ge hlen)).symm⟩

/-- A MIX of finite tracks that does not fault leaves the clipped sums of two finite lists in its
destination: the two tracks, the longer one first. -/
theorem exists_mixRun_of_exec {d a b : SlotId} {s t : State} {ca cb : Container}
    (ha : s.slot a = some ca) (hb : s.slot b = some cb) (hfa : AllFinite ca.buf)
    (hfb : AllFinite cb.buf) (h : exec (.mix d a b) s = .next t) (hf : t.faulted = false) :
    ∃ c x w, t.slot d = some c ∧ c.buf = mixRun x w ∧ AllFinite x ∧ AllFinite w := by
  obtain ⟨-, -, ca', cb', ha', hb', -, -, rfl⟩ := mixBody_ok (bodyOf_ok_of_exec h hf)
  cases ha.symm.trans ha'
  cases hb.symm.trans hb'
  rw [State.slot_setSlot_same]
  split_ifs
  · exact ⟨_, _, _, rfl, rfl, hfa, hfb⟩
  · exact ⟨_, _, _, rfl, rfl, hfb, hfa⟩

/-- Settles O42: a committed mix is a list of clipped sums of finite values. -/
theorem mixStaysInRange : Obligations.MixStaysInRange := by
  refine ⟨fun d a b s t ca cb ha hb hfa hfb h hf _ => ?_,
    fun t => ⟨clip16_above, clip16_below, clip16_within⟩⟩
  obtain ⟨c, x, w, hc, hbuf, hx, hw⟩ := exists_mixRun_of_exec ha hb hfa hfb h hf
  refine ⟨c, hc, hbuf ▸ allFinite_mixRun hx hw, fun v hv => ?_⟩
  obtain ⟨t, rfl⟩ := exists_clip16_of_mem_mixRun (hbuf ▸ hv)
  exact clip16_in_range t

/-! ### What MIX, FFT and IFFT leave unchanged (44_mixer R241, 41_spectral R145, R146) -/

theorem sameButSlots_setSlot (s : State) (d : SlotId) (c : Option Container) :
    SameButSlots s (s.setSlot d c) := by
  simp [SameButSlots]

/-- Settles O45: none of the three has faulted, so that each has committed its one write. -/
theorem mixFftIfftChangeOnlyTheirDestination :
    Obligations.MixFftIfftChangeOnlyTheirDestination := by
  intro s t _ hf
  refine ⟨fun d a b h => ?_, fun d h => ?_, fun h => ?_⟩
  · obtain ⟨-, -, ca, cb, -, -, -, -, rfl⟩ := mixBody_ok (bodyOf_ok_of_exec h hf)
    exact ⟨sameButSlots_setSlot s d _, fun k hk => s.slot_setSlot_ne _ hk, by simp⟩
  · obtain ⟨c, -, -, rfl⟩ := fftBody_ok (bodyOf_ok_of_exec h hf)
    exact ⟨rfl, Option.some_ne_none _⟩
  · obtain ⟨x, -, rfl⟩ := ifftBody_ok (bodyOf_ok_of_exec h hf)
    exact ⟨rfl, Option.some_ne_none _⟩

end Sys2Proof.Machine
end

section
/-! PROOFS. The status group and the faulted state (60_exceptions R256 to R258, R268, R271): what
issuing a word does to the status group, what is left to the host in the faulted state, and that every
step answers a state. -/

namespace Sys2Proof.Machine

open Sys2Proof.Claims

/-! ### Issuing a word (60_exceptions R256, R258) -/

/-- In a state that is not faulted a word takes a fault, and is then the word recorded, or commits. -/
theorem issue_raises_or_commits {cw : Word32} {s t : State} (hs : s.faulted = false)
    (h : issue cw s = .next t) : (∃ f, t = s.raise cw f) ∨ ∃ i, Commits s i t := by
  obtain ⟨hf, -⟩ | ⟨-, e, -, hi⟩ | ⟨-, i, hd, hi⟩ := issue_cases cw s
  · exact absurd (hs.symm.trans hf) Bool.false_ne_true
  · cases hi.symm.trans h
    exact .inl ⟨_, rfl⟩
  · obtain ⟨-, rfl⟩ := (decodeAndEncodeAgree cw i).mp hd
    obtain hcommit | ⟨f, -, rfl⟩ := exec_cases (hi.symm.trans h)
    · exact .inr ⟨i, hcommit⟩
    · exact .inl ⟨f, rfl⟩

/-- Settles O10: a fault is a raise of the word issued, and no commit writes the status group. -/
theorem faultEntryWritesOnlyTheStatusGroup : Obligations.FaultEntryWritesOnlyTheStatusGroup := by
  refine ⟨fun cw s t hs h => ?_, rfl⟩
  obtain ⟨f, rfl⟩ | ⟨i, hcommit⟩ := issue_raises_or_commits hs h
  · exact ⟨fun _ => ⟨rfl, f.kind, f.info, rfl⟩, fun hf => by cases hf⟩
  · obtain ⟨hfaulted, hstatus⟩ := hcommit.status_frame
    exact ⟨fun hf => by simp [hfaulted, hs] at hf, fun _ => hstatus⟩

/-- Settles O4: the step is the issue of the word, in the state without the move. -/
theorem illegalWordTakesIllegalCommand : Obligations.IllegalWordTakesIllegalCommand :=
  fun s _ rest _ hs hd h => (step_move h).trans (issue_error (s := s.begin rest) hs hd)

/-! ### The faulted state (60_exceptions R257, R268) -/

theorem State.SameBlock.status {s t : State} (h : s.SameBlock t) :
    t.faulted = s.faulted ∧ t.fault = s.fault ∧ t.fcmd = s.fcmd ∧ t.finfo = s.finfo := by
  obtain ⟨_, _, _, _, _, rfl⟩ := h
  exact ⟨rfl, rfl, rfl, rfl⟩

theorem State.SameBlock.cplx {s t : State} (h : s.SameBlock t) :
    t.spec = s.spec ∧ t.time = s.time := by
  obtain ⟨_, _, _, _, _, rfl⟩ := h
  exact ⟨rfl, rfl⟩

/-- In the faulted state every named action but Reset leaves all but the host's own state. -/
theorem sameBlock_of_hostAct_faulted {a : HostAction} {s t : State} (hs : s.faulted = true)
    (ha : a ≠ .reset) (h : hostAct a s = .next t) : s.SameBlock t := by
  obtain ⟨cw, -, hi⟩ | ⟨hreset, -⟩ | hsame := hostAct_cases h
  · cases (issue_faulted hs).symm.trans hi
    exact .refl s
  · exact absurd hreset ha
  · exact hsame

/-- Settles O11: a word is ignored, and the other actions do not look at `FAULTED`. -/
theorem faultedStateIgnoresCommands : Obligations.FaultedStateIgnoresCommands := by
  intro s hs
  refine ⟨fun _ => issue_faulted hs, fun a t ha h => ?_, fun _ => rfl, fun _ _ => rfl, fun _ => rfl,
    fun _ => rfl, fun _ _ => hostAct_popSnk_of_cons, hostAct_popSnk_of_nil⟩
  have hsame := sameBlock_of_hostAct_faulted hs ha h
  obtain ⟨hfaulted, hfault, hfcmd, hfinfo⟩ := hsame.status
  exact ⟨hfaulted.trans hs, hfault, hfcmd, hfinfo, hsame.slot, hsame.cplx⟩

/-- Settles O12: a step that issues a word or changes the host's own state alone leaves `FAULTED`. -/
theorem onlyResetLeavesTheFaultedState : Obligations.OnlyResetLeavesTheFaultedState := by
  intro s t hs h ht
  obtain ⟨cw, rest, -, hi⟩ | ⟨rest, hreset, -⟩ | hsame := step_cases h
  · cases (issue_faulted (s := s.begin rest) hs).symm.trans hi
    simp [hs] at ht
  · exact ⟨rest, hreset⟩
  · obtain ⟨hfaulted, -⟩ := hsame.status
    simp [hfaulted, hs] at ht

/-! ### Every step answers a state (20_memory R66, 60_exceptions R271) -/

theorem exists_exec (i : Instr) (s : State) : ∃ t, exec i s = .next t := by
  rcases hb : bodyOf i s with f | t
  · exact ⟨_, exec_of_error hb⟩
  · exact ⟨t, exec_of_ok hb⟩

theorem exists_issue (cw : Word32) (s : State) : ∃ t, issue cw s = .next t := by
  obtain ⟨-, hi⟩ | ⟨-, e, -, hi⟩ | ⟨-, i, -, hi⟩ := issue_cases cw s
  · exact ⟨_, hi⟩
  · exact ⟨_, hi⟩
  · rw [hi]
    exact exists_exec i s

theorem exists_hostAct (a : HostAction) (s : State) : ∃ t, hostAct a s = .next t := by
  cases a with
  | issue cw => exact exists_issue cw s
  | _ => exact ⟨_, rfl⟩

theorem exists_hostMove (m : HostMove) (s : State) : ∃ t, hostMove m s = .next t := by
  cases m with
  | act a => exact exists_hostAct a s
  | write offset v =>
    rcases ha : writeAction offset v with _ | a
    · exact ⟨_, hostMove_write_of_none ha⟩
    · rw [hostMove_write_of_some ha]
      exact exists_hostAct a s
  | read offset =>
    rcases ha : readAction offset with _ | a
    · exact ⟨_, hostMove_read_of_none ha⟩
    · rw [hostMove_read_of_some ha]
      exact exists_hostAct a s

/-- Settles O50: a step is idle or one move, and a command commits or takes a fault. -/
theorem everyStepAnswersANextState : Obligations.EveryStepAnswersANextState := by
  intro s
  rcases hs : s.host with _ | ⟨m, rest⟩
  · exact ⟨s, step_idle hs⟩
  · rw [step_move hs]
    exact exists_hostMove m _

end Sys2Proof.Machine
end

section
/-! PROOFS. Operands that are empty, and destinations (60_exceptions R259, R260): the faults of each
command that reads a slot or a complex buffer, in their order, and that a destination is not read. -/

namespace Sys2Proof.Machine

open Sys2Proof.Claims

/-! ### The faults of the operands -/

/-- FFT and the transforms of one slot begin with the prologue, and raise what it raises. -/
theorem bodyOf_of_prologue_error {d : SlotId} {i : Instr} {s : State} {f : Raise}
    (hi : i ∈ Instr.fft d :: slotTransforms d) (h : prologue d s = .error f) :
    bodyOf i s = .error f := by
  simp only [slotTransforms, List.mem_cons, List.not_mem_nil, or_false] at hi
  obtain rfl | rfl | rfl | rfl | rfl | rfl | rfl | rfl | rfl := hi
  · rw [bodyOf, fftBody, h, error_bind]
  · rw [bodyOf, biquadBody, h, error_bind]
  · rw [bodyOf, biquadBody, h, error_bind]
  · rw [bodyOf, firlpBody, h, error_bind]
  · rw [bodyOf, ravgBody, h, error_bind]
  · rw [bodyOf, hpf2Body, h, error_bind]
  · rw [bodyOf, normBody, h, error_bind]
  · rw [bodyOf, compBody, h, error_bind]
  · rw [bodyOf, compBody, h, error_bind]

/-- The two faults of ENCODE, in their order (40_container R120). -/
theorem encodeBody_eq_error {d : SlotId} {s : State} {f : Raise} :
    encodeBody d s = .error f ↔
      (s.slot d = none ∧ f = ⟨.emptySlot, d.index⟩) ∨
      ∃ c, s.slot d = some c ∧ checkRange c.buf = .error f := by
  simp [encodeBody, bind_eq_error, readSlot_eq_error]

/-- The one fault of IFFT (41_spectral R146). -/
theorem ifftBody_eq_error {s : State} {f : Raise} :
    ifftBody s = .error f ↔ s.spec = none ∧ f = ⟨.emptySlot, specDetail⟩ := by
  simp [ifftBody, bind_eq_error, readCplx_eq_error]

/-- The four faults of RECON, in their order (41_spectral R147). -/
theorem reconBody_eq_error {d : SlotId} {s : State} {f : Raise} :
    reconBody d s = .error f ↔
      (s.slot d = none ∧ f = ⟨.emptySlot, d.index⟩) ∨
      ∃ c, s.slot d = some c ∧
        ((s.time = none ∧ f = ⟨.emptySlot, timeDetail⟩) ∨
        ∃ v, s.time = some v ∧
          ((c.buf = [] ∧ f = ⟨.degenerateInput, 0⟩) ∨
          (c.buf ≠ [] ∧ epilogue d c (reconstruct c.buf v) s = .error f))) := by
  simp [reconBody, bind_eq_error, readSlot_eq_error, readCplx_eq_error, failIf_eq_error,
    failIf_eq_ok]

/-- The faults of a MIX into a third slot, in their order (44_mixer R240). -/
theorem mixBody_eq_error {d a b : SlotId} {s : State} {f : Raise} (hda : d ≠ a) (hdb : d ≠ b) :
    mixBody d a b s = .error f ↔
      (s.slot a = none ∧ f = ⟨.emptySlot, a.index⟩) ∨
      ∃ ca, s.slot a = some ca ∧
        ((s.slot b = none ∧ f = ⟨.emptySlot, b.index⟩) ∨
        ∃ cb, s.slot b = some cb ∧ (ca.buf = [] ∨ cb.buf = []) ∧ f = ⟨.degenerateInput, 0⟩) := by
  simp [mixBody, bind_eq_error, readSlot_eq_error, failIf_eq_error, failIf_eq_ok, hda, hdb,
    ite_eq_iff]

/-- Settles O13: each command looks at its operands first, in their order. -/
theorem emptyOperandsRaiseEmptySlot : Obligations.EmptyOperandsRaiseEmptySlot := by
  refine ⟨fun d s hd i hi => ?_, fun d a b s hda hdb ha => ?_, fun d a b s hda hdb ha hb => ?_,
    fun s hs => ?_, fun d s hd ht => ?_, rfl, rfl, rfl⟩
  all_goals apply exec_of_error
  · have hprologue : prologue d s = .error ⟨.emptySlot, d.index⟩ :=
      prologue_eq_error.mpr (.inl ⟨hd, rfl⟩)
    simp only [List.cons_append, List.nil_append, List.mem_cons] at hi
    obtain rfl | rfl | rfl | hi := hi
    · exact encodeBody_eq_error.mpr (.inl ⟨hd, rfl⟩)
    · exact bodyOf_of_prologue_error List.mem_cons_self hprologue
    · exact reconBody_eq_error.mpr (.inl ⟨hd, rfl⟩)
    · exact bodyOf_of_prologue_error (List.mem_cons_of_mem _ hi) hprologue
  · exact (mixBody_eq_error hda hdb).mpr (.inl ⟨ha, rfl⟩)
  · obtain ⟨ca, hca⟩ := Option.ne_none_iff_exists'.mp ha
    exact (mixBody_eq_error hda hdb).mpr (.inr ⟨ca, hca, .inl ⟨hb, rfl⟩⟩)
  · exact ifftBody_eq_error.mpr ⟨hs, rfl⟩
  · obtain ⟨c, hc⟩ := Option.ne_none_iff_exists'.mp hd
    exact reconBody_eq_error.mpr (.inr ⟨c, hc, .inl ⟨ht, rfl⟩⟩)

/-- Settles O15: the length is looked at when every operand is there. -/
theorem emptyBuffersRaiseDegenerateInput : Obligations.EmptyBuffersRaiseDegenerateInput := by
  refine ⟨fun d s c hc hb i hi => ?_, fun d s c hc hb ht => ?_,
    fun d a b s ca cb hda hdb ha hb hempty => ?_⟩
  all_goals apply exec_of_error
  · exact bodyOf_of_prologue_error hi (prologue_eq_error.mpr (.inr ⟨c, hc, hb, rfl⟩))
  · obtain ⟨v, hv⟩ := Option.ne_none_iff_exists'.mp ht
    exact reconBody_eq_error.mpr (.inr ⟨c, hc, .inr ⟨v, hv, .inl ⟨hb, rfl⟩⟩⟩)
  · exact (mixBody_eq_error hda hdb).mpr (.inr ⟨ca, ha, .inr ⟨cb, hb, hempty, rfl⟩⟩)

/-! ### Destinations that are only written (60_exceptions R259) -/

@[simp] theorem State.setSlot_setSlot (s : State) (d : SlotId) (c c' : Option Container) :
    (s.setSlot d c).setSlot d c' = s.setSlot d c' := by
  cases d <;> rfl

theorem readSlot_setSlot_ne (s : State) {j d : SlotId} (c : Option Container) (h : j ≠ d) :
    readSlot j (s.setSlot d c) = readSlot j s := by
  unfold readSlot
  rw [State.slot_setSlot_ne s c h]

theorem decodeBody_setSlot (d : SlotId) (s : State) (c : Option Container) :
    decodeBody d (s.setSlot d c) = decodeBody d s := by
  cases d <;> rfl

theorem mixBody_setSlot {d a b : SlotId} (hda : d ≠ a) (hdb : d ≠ b) (s : State)
    (c : Option Container) : mixBody d a b (s.setSlot d c) = mixBody d a b s := by
  simp only [mixBody, readSlot_setSlot_ne s c hda.symm, readSlot_setSlot_ne s c hdb.symm,
    State.setSlot_setSlot]

theorem fftBody_set_spec (d : SlotId) (s : State) (v : Option (List Cplx)) :
    fftBody d { s with spec := v } = fftBody d s := by
  unfold fftBody
  rw [prologue_congr (s.slot_set_spec v d)]
  rfl

theorem ifftBody_set_time (s : State) (v : Option (List Cplx)) :
    ifftBody { s with time := v } = ifftBody s := rfl

/-- A command that ends without a fault ends the same way from any state in which its pseudocode does
the same. -/
theorem exec_of_bodyOf_eq {i : Instr} {s s' t : State} (hbody : bodyOf i s' = bodyOf i s)
    (h : exec i s = .next t) (ht : t.faulted = false) : exec i s' = .next t :=
  exec_of_ok (hbody.trans (bodyOf_ok_of_exec h ht))

/-- Settles O14: no pseudocode tells the two states apart, and its commit overwrites where they
differ. -/
theorem destinationsAreNeverChecked : Obligations.DestinationsAreNeverChecked := by
  intro s t ht
  exact ⟨fun d c h => exec_of_bodyOf_eq (decodeBody_setSlot d s c) h ht,
    fun _ _ _ c hda hdb h => exec_of_bodyOf_eq (mixBody_setSlot hda hdb s c) h ht,
    fun d v h => exec_of_bodyOf_eq (fftBody_set_spec d s v) h ht,
    fun v h => exec_of_bodyOf_eq (ifftBody_set_time s v) h ht⟩

end Sys2Proof.Machine
end

section
/-! PROOFS. The faults of DECODE and ENCODE (60_exceptions R263, R267, 40_container R110, R120): the
five checks of DECODE in their order, and the lowest index out of ENCODE's range. -/

namespace Sys2Proof.Machine

open Sys2Proof.Claims

/-! ### DECODE -/

/-- DECODE as its five checks, in the words of the statements (40_container R110). -/
theorem decodeBody_eq_checks (d : SlotId) (s : State) :
    decodeBody d s =
      if s.src.length < 44 then .error ⟨.streamExhausted, 0⟩
      else if num16 s.src 34 ≠ 16 then .error ⟨.format, 34⟩
      else if num32 s.src 28 = 0 then .error ⟨.format, 28⟩
      else if s.cfg.nmax < announced s then .error ⟨.capacity, announced s⟩
      else if s.src.length < 44 + 2 * announced s then .error ⟨.streamExhausted, 1⟩
      else .ok ((s.srcDrop (44 + 2 * announced s)).setSlot d (some (decodedContainer s))) := by
  unfold decodeBody
  simp only [failIf_bind, parseHeader_srcRead, decide_eq_true_eq, bne_iff_ne, beq_iff_eq, ne_eq,
    bitsPerSample_eq_supported, byteRate_eq_zero]
  by_cases hbits : num16 s.src 34 = 16
  · rw [sampleCount_parseHeader hbits]
    rfl
  · simp only [hbits, not_false_eq_true, if_true]
    rfl

/-- Settles O18: each case is one of the checks, with the ones before it passed. -/
theorem decodeFaultsInOrder : Obligations.DecodeFaultsInOrder := by
  intro d s
  refine ⟨fun hshort => ?_, fun hlen hbits => ?_, fun hlen hbits hrate => ?_,
    fun ⟨hlen, hbits, hrate⟩ hover => ?_, fun ⟨hlen, hbits, hrate⟩ hfit hshort => ?_⟩
  all_goals apply exec_of_error; rw [bodyOf, decodeBody_eq_checks]
  · rw [if_pos hshort]
  · rw [if_neg hlen.not_gt, if_pos hbits]
  · rw [if_neg hlen.not_gt, if_neg (not_not.mpr hbits), if_pos hrate]
  · rw [if_neg hlen.not_gt, if_neg (not_not.mpr hbits), if_neg hrate, if_pos hover]
  · rw [if_neg hlen.not_gt, if_neg (not_not.mpr hbits), if_neg hrate, if_neg hfit.not_gt,
      if_pos hshort]

/-! ### ENCODE -/

theorem sample16_of_out_of_range {v : F64} {q : Int} (hv : v.trunc = some q)
    (hq : q < -32768 ∨ 32767 < q) : sample16 v = none := by
  simp only [sample16, hv]
  exact if_neg (by omega)

/-- The range check names the lowest entry that has no 16-bit integer. -/
theorem checkRange_of_lowest {x : List F64} {n : Nat} {v : F64} (hn : x[n]? = some v)
    (hv : sample16 v = none) (hlow : ∀ m < n, ∀ u, x[m]? = some u → (sample16 u).isSome) :
    checkRange x = .error ⟨.encodeRange, n⟩ := by
  obtain ⟨hlt, rfl⟩ := List.getElem?_eq_some_iff.mp hn
  have hfind : x.findIdx? (fun v => (sample16 v).isNone) = some n := by
    rw [List.findIdx?_eq_some_iff_getElem]
    refine ⟨hlt, by rw [hv]; rfl, fun m hm => ?_⟩
    simpa [Option.isSome_iff_ne_none] using hlow m hm _ (List.getElem?_eq_getElem (hm.trans hlt))
  rw [checkRange, hfind]

/-- Settles O20: the entries before the one out of range all have their integer. -/
theorem encodeRangeNamesTheLowestIndex : Obligations.EncodeRangeNamesTheLowestIndex := by
  intro d s c n v q hc hn hv hq hlow
  have hbefore : ∀ m < n, ∀ u, c.buf[m]? = some u → (sample16 u).isSome := by
    intro m hm u hu
    obtain ⟨r, hr⟩ := hlow m hm u hu
    exact Option.isSome_of_eq_some (sample16_eq_some.mpr hr)
  have hcheck := checkRange_of_lowest hn (sample16_of_out_of_range hv hq) hbefore
  exact exec_of_error (encodeBody_eq_error.mpr (.inr ⟨c, hc, hcheck⟩))

end Sys2Proof.Machine
end

section
/-! PROOFS. The host action Reset (70_reset R280, R281): in any state it gives every piece of state its
reset value. -/

namespace Sys2Proof.Machine

theorem step_resetAction {s : State} {rest : List HostMove} (h : s.host = .act .reset :: rest) :
    step s = .next (s.begin rest).hardReset := step_move h

@[simp] theorem State.hardReset_status (s : State) : s.hardReset.status = 0 := rfl

@[simp] theorem State.hardReset_faultO (s : State) : s.hardReset.faultO = false := rfl

/-- Settles O2: the step is a hard reset of the state without the move, read field by field. -/
theorem resetActionRestoresTheResetState : Obligations.ResetActionRestoresTheResetState := by
  intro s rest h
  have hstep := step_resetAction h
  refine ⟨hstep, fun t ht => ?_⟩
  cases hstep.symm.trans ht
  simp

end Sys2Proof.Machine
end
